-- ==== Sys2Proof/Word.lean ====
section
/-! DEFINITION. The word types of the block: the 32-bit command and data word (00_scope R7) and the byte of STREAM and PIX (20_memory R76). -/

namespace Sys2Proof

/-- A 32-bit word: command words, host data, most registers (00_scope R7). -/
abbrev Word := BitVec 32

/-- One byte: a stream byte, a pixel, a probability (00_scope R7). -/
abbrev Byte := BitVec 8

end Sys2Proof
end

