-- ==== Sys2Proof/Syntax.lean ====
section
/-! DEFINITION. The command set: one constructor per row of the opcode table (30_encoding R102), with the operand fields the row uses. -/

namespace Sys2Proof

/-- DIR of format E (43_lf R205): 0 a vertical edge, 1 a horizontal edge. -/
inductive Dir where
  | v
  | h
  deriving DecidableEq, Repr

/-- KIND of format E (43_lf R205): simple or normal filter, macroblock or subblock edge. -/
inductive Kind where
  | smb
  | ssub
  | nmb
  | nsub
  deriving DecidableEq, Repr

/-- The nineteen commands of VBD command set version 1 (30_encoding R101, R102). Operand fields keep the width the format
gives them; DELTA is read as a signed number where it is used (R103). -/
inductive Instr where
  | nop
  | bdSel (ctx : BitVec 4)
  | bdSeek (ctx : BitVec 4)
  | bdBit
  | bdBool (prob : BitVec 8)
  | bdLit (n : BitVec 5)
  | bdTree (start : BitVec 6)
  | tdRst
  | tdNewrow
  | tdBlk (blk : BitVec 5) (type : BitVec 2) (col : BitVec 10)
  | dqBlk (blk : BitVec 5) (type : BitVec 2) (seg : BitVec 2)
  | tdMb (seg : BitVec 2) (col : BitVec 10) (hasy2 : Bool) (skip : Bool)
  | lfSetlvl (lvl : BitVec 6)
  | lfAdjlvl (delta : BitVec 7)
  | lfSetx (coord : BitVec 14)
  | lfSety (coord : BitVec 14)
  | lfSeg (plane : BitVec 2) (dir : Dir) (kind : Kind)
  | lfEdge (plane : BitVec 2) (dir : Dir) (kind : Kind) (lenm1 : BitVec 4)
  | lfMb (mbx : BitVec 10) (mby : BitVec 10) (noinner : Bool)
  deriving DecidableEq, Repr

end Sys2Proof
end

