-- ==== Sys2Proof/WellFormed.lean ====
section
/-! DEFINITION. The "legal" column of the opcode table: which operand values a command accepts (30_encoding R102, R104). -/

namespace Sys2Proof

/-- CTX names one of the nine contexts (30_encoding R102). -/
def ctxLegal (ctx : BitVec 4) : Bool := decide (ctx.toNat ≤ 8)

/-- BLK names one of the 25 blocks of a macroblock (30_encoding R102). -/
def blkLegal (blk : BitVec 5) : Bool := decide (blk.toNat ≤ 24)

/-- PLANE names one of the three planes (30_encoding R102). -/
def planeLegal (plane : BitVec 2) : Bool := decide (plane.toNat ≤ 2)

/-- Every operand is inside its "legal" column (30_encoding R102). -/
def Instr.wf : Instr → Bool
  | .nop => true
  | .bdSel ctx => ctxLegal ctx
  | .bdSeek ctx => ctxLegal ctx
  | .bdBit => true
  | .bdBool _ => true
  | .bdLit _ => true
  | .bdTree _ => true
  | .tdRst => true
  | .tdNewrow => true
  | .tdBlk blk _ _ => blkLegal blk
  | .dqBlk blk _ _ => blkLegal blk
  | .tdMb _ _ _ _ => true
  | .lfSetlvl _ => true
  | .lfAdjlvl _ => true
  | .lfSetx _ => true
  | .lfSety _ => true
  | .lfSeg plane _ _ => planeLegal plane
  | .lfEdge plane _ _ _ => planeLegal plane
  | .lfMb _ _ _ => true

end Sys2Proof
end

