-- ==== Sys2Proof/Decode.lean ====
section
/-! DEFINITION. The command decoder and the encoder (30_encoding R100 to R106): total on every 32-bit word, rejecting by name. -/

namespace Sys2Proof

/-- Why a word is no command (30_encoding R104), in the order the checks are made. -/
inductive DecodeError where
  /-- Bits 31:24 are no opcode of R102; raised as ILLEGAL_CMD with the opcode byte. -/
  | illegalCmd (op : BitVec 8)
  /-- A reserved bit of the command is 1; raised as ILLEGAL_OPERAND(0). -/
  | reservedBit
  /-- An operand is outside its legal values; raised as ILLEGAL_OPERAND(1). -/
  | operandRange
  deriving DecidableEq, Repr

/-- The opcodes of R102, by name. -/
inductive Opcode where
  | nop | bdSel | bdSeek | bdBit | bdBool | bdLit | bdTree
  | tdRst | tdNewrow | tdBlk | dqBlk | tdMb
  | lfSetlvl | lfAdjlvl | lfSetx | lfSety | lfSeg | lfEdge | lfMb
  deriving DecidableEq, Repr

/-- Bits 31:24 of each command (30_encoding R102). -/
def Opcode.code : Opcode → BitVec 8
  | .nop => 0x00#8
  | .bdSel => 0x01#8
  | .bdSeek => 0x02#8
  | .bdBit => 0x03#8
  | .bdBool => 0x04#8
  | .bdLit => 0x05#8
  | .bdTree => 0x06#8
  | .tdRst => 0x10#8
  | .tdNewrow => 0x11#8
  | .tdBlk => 0x12#8
  | .dqBlk => 0x13#8
  | .tdMb => 0x14#8
  | .lfSetlvl => 0x20#8
  | .lfAdjlvl => 0x21#8
  | .lfSetx => 0x22#8
  | .lfSety => 0x23#8
  | .lfSeg => 0x24#8
  | .lfEdge => 0x25#8
  | .lfMb => 0x26#8

/-- The rows of the opcode table, in its order (30_encoding R102). -/
def Opcode.all : List Opcode :=
  [.nop, .bdSel, .bdSeek, .bdBit, .bdBool, .bdLit, .bdTree, .tdRst, .tdNewrow, .tdBlk, .dqBlk, .tdMb,
   .lfSetlvl, .lfAdjlvl, .lfSetx, .lfSety, .lfSeg, .lfEdge, .lfMb]

/-- The command an opcode byte selects, if any (30_encoding R104, R106). -/
def Opcode.ofByte (op : BitVec 8) : Option Opcode := Opcode.all.find? fun o => o.code == op

/-- The reserved bits of 23:0: those that belong to no field the command uses (30_encoding R100 to R102, R105). -/
def Opcode.reserved : Opcode → Word
  | .nop => 0x00FFFFFF#32
  | .bdSel => 0x00FFFFF0#32
  | .bdSeek => 0x00FFFFF0#32
  | .bdBit => 0x00FFFFFF#32
  | .bdBool => 0x00FFFF00#32
  | .bdLit => 0x00FFFFE0#32
  | .bdTree => 0x00FFFFC0#32
  | .tdRst => 0x00FFFFFF#32
  | .tdNewrow => 0x00FFFFFF#32
  | .tdBlk => 0x00F00380#32
  | .dqBlk => 0x00FFFE00#32
  | .tdMb => 0x00C0027F#32
  | .lfSetlvl => 0x00FFFFC0#32
  | .lfAdjlvl => 0x00FFFF80#32
  | .lfSetx => 0x00FFC000#32
  | .lfSety => 0x00FFC000#32
  | .lfSeg => 0x00FFFFE0#32
  | .lfEdge => 0x00FFF0E0#32
  | .lfMb => 0x00E00000#32

/-- DIR, one bit (43_lf R205). -/
def Dir.ofBits (b : BitVec 1) : Dir := if b = 0#1 then .v else .h

def Dir.bits : Dir → BitVec 1
  | .v => 0#1
  | .h => 1#1

/-- KIND, two bits (43_lf R205). -/
def Kind.ofBits (b : BitVec 2) : Kind :=
  if b = 0#2 then .smb else if b = 1#2 then .ssub else if b = 2#2 then .nmb else .nsub

def Kind.bits : Kind → BitVec 2
  | .smb => 0#2
  | .ssub => 1#2
  | .nmb => 2#2
  | .nsub => 3#2

/-- The fields of a word, placed as the command's format says (30_encoding R101). -/
def Opcode.fields (w : Word) : Opcode → Instr
  | .nop => .nop
  | .bdSel => .bdSel (w.extractLsb' 0 4)
  | .bdSeek => .bdSeek (w.extractLsb' 0 4)
  | .bdBit => .bdBit
  | .bdBool => .bdBool (w.extractLsb' 0 8)
  | .bdLit => .bdLit (w.extractLsb' 0 5)
  | .bdTree => .bdTree (w.extractLsb' 0 6)
  | .tdRst => .tdRst
  | .tdNewrow => .tdNewrow
  | .tdBlk => .tdBlk (w.extractLsb' 0 5) (w.extractLsb' 5 2) (w.extractLsb' 10 10)
  | .dqBlk => .dqBlk (w.extractLsb' 0 5) (w.extractLsb' 5 2) (w.extractLsb' 7 2)
  | .tdMb => .tdMb (w.extractLsb' 7 2) (w.extractLsb' 10 10) (w.getLsbD 20) (w.getLsbD 21)
  | .lfSetlvl => .lfSetlvl (w.extractLsb' 0 6)
  | .lfAdjlvl => .lfAdjlvl (w.extractLsb' 0 7)
  | .lfSetx => .lfSetx (w.extractLsb' 0 14)
  | .lfSety => .lfSety (w.extractLsb' 0 14)
  | .lfSeg => .lfSeg (w.extractLsb' 0 2) (Dir.ofBits (w.extractLsb' 2 1)) (Kind.ofBits (w.extractLsb' 3 2))
  | .lfEdge => .lfEdge (w.extractLsb' 0 2) (Dir.ofBits (w.extractLsb' 2 1)) (Kind.ofBits (w.extractLsb' 3 2))
      (w.extractLsb' 8 4)
  | .lfMb => .lfMb (w.extractLsb' 0 10) (w.extractLsb' 10 10) (w.getLsbD 20)

/-- Decoding a command word: opcode, reserved bits, operand values, in this order (30_encoding R104). -/
def decode (w : Word) : Except DecodeError Instr :=
  match Opcode.ofByte (w.extractLsb' 24 8) with
  | none => .error (.illegalCmd (w.extractLsb' 24 8))
  | some o =>
    if w &&& o.reserved ≠ 0#32 then .error .reservedBit
    else if (o.fields w).wf then .ok (o.fields w)
    else .error .operandRange

/-- The opcode of a command (30_encoding R102). -/
def Instr.opcode : Instr → Opcode
  | .nop => .nop
  | .bdSel _ => .bdSel
  | .bdSeek _ => .bdSeek
  | .bdBit => .bdBit
  | .bdBool _ => .bdBool
  | .bdLit _ => .bdLit
  | .bdTree _ => .bdTree
  | .tdRst => .tdRst
  | .tdNewrow => .tdNewrow
  | .tdBlk _ _ _ => .tdBlk
  | .dqBlk _ _ _ => .dqBlk
  | .tdMb _ _ _ _ => .tdMb
  | .lfSetlvl _ => .lfSetlvl
  | .lfAdjlvl _ => .lfAdjlvl
  | .lfSetx _ => .lfSetx
  | .lfSety _ => .lfSety
  | .lfSeg _ _ _ => .lfSeg
  | .lfEdge _ _ _ _ => .lfEdge
  | .lfMb _ _ _ => .lfMb

/-- Bits 23:0 of a command, from bit 23 down: its fields where the format puts them and zeros in the reserved places
(30_encoding R101). -/
def Instr.operandBits : Instr → BitVec 24
  | .nop => 0#24
  | .bdSel ctx => 0#20 ++ ctx
  | .bdSeek ctx => 0#20 ++ ctx
  | .bdBit => 0#24
  | .bdBool prob => 0#16 ++ prob
  | .bdLit n => 0#19 ++ n
  | .bdTree start => 0#18 ++ start
  | .tdRst => 0#24
  | .tdNewrow => 0#24
  | .tdBlk blk type col => 0#4 ++ col ++ 0#3 ++ type ++ blk
  | .dqBlk blk type seg => 0#15 ++ seg ++ type ++ blk
  | .tdMb seg col hasy2 skip => 0#2 ++ BitVec.ofBool skip ++ BitVec.ofBool hasy2 ++ col ++ 0#1 ++ seg ++ 0#7
  | .lfSetlvl lvl => 0#18 ++ lvl
  | .lfAdjlvl delta => 0#17 ++ delta
  | .lfSetx coord => 0#10 ++ coord
  | .lfSety coord => 0#10 ++ coord
  | .lfSeg plane dir kind => 0#19 ++ kind.bits ++ dir.bits ++ plane
  | .lfEdge plane dir kind lenm1 => 0#12 ++ lenm1 ++ 0#3 ++ kind.bits ++ dir.bits ++ plane
  | .lfMb mbx mby noinner => 0#3 ++ BitVec.ofBool noinner ++ mby ++ mbx

/-- The word of a command: the opcode in bits 31:24, the operand bits below (30_encoding R100). -/
def encode (i : Instr) : Word := i.opcode.code ++ i.operandBits

/-- The instruction the decoder reads from a table word: bits above `nbits` are 0. A command is one 32-bit word
(30_encoding R100), so the table's numbering is the word's own. -/
def decodeTableWord (nbits w : Nat) : Option Instr := (decode (BitVec.ofNat 32 (w % 2 ^ nbits))).toOption

end Sys2Proof
end

