-- ==== Sys2Proof/Config.lean ====
section
/-! DEFINITION. What is fixed for one block and what the spec leaves open: the memory sizes (00_scope R7), the shapes of the ROM tables (41_td R163 to R166), the ID value (10_state R31) and the free values (60_exceptions R257). -/

namespace Sys2Proof.Config

/-- STREAMSIZE and PIXSIZE, each 0 to 2^32 (00_scope R7; 92_eei_decisions D38). A machine carries them in its state
and no event changes them (log 1), so every statement over all states holds for every size. -/
structure Params where
  streamSize : Nat
  pixSize    : Nat
  deriving DecidableEq, Repr

/-- The sizes `State.reset` names: the largest the spec allows.
DESIGN CHOICE (log 1), unsafe for a claim about the reset state alone. -/
def resetParams : Params := { streamSize := 4294967296, pixSize := 4294967296 }

/-- The ID register: the characters V, P, 8 and the command-set version 1 (10_state R31). -/
def idValue : Word := 0x56503801#32

/-- A token of the coefficient alphabet (41_td R163): EOB; DCT_0 to DCT_4, `dct m` of magnitude m; CAT1 to CAT6,
`cat j` being CAT(j + 1). -/
inductive Token where
  | eob
  | dct (m : Fin 5)
  | cat (j : Fin 6)
  deriving DecidableEq, Repr

/-- A child of a node of the token tree: an inner node `N k` or a leaf (41_td R163). -/
inductive Child where
  | inner (k : Fin 11)
  | leaf  (t : Token)
  deriving DecidableEq, Repr

/-- One row of the token tree table: the child on bit 0 and the child on bit 1 (41_td R163). -/
structure Node where
  onZero : Child
  onOne  : Child
  deriving DecidableEq, Repr

/-- One category of large magnitudes: CATBASE and the probabilities of the extra bits, first-read bit first
(41_td R166). -/
structure Category where
  base  : Nat
  probs : List Byte
  deriving DecidableEq, Repr

/-- The ROM tables as one configuration record (93_implementation_defined U19). -/
structure Rom where
  ctree  : Vector Node 11
  zigzag : Vector (Fin 16) 16
  band   : Vector (Fin 8) 16
  cats   : Vector Category 6
  deriving DecidableEq, Repr

/-- The free values: what a location of the write set holds after an execution fault (60_exceptions R257; U5) and what an
internal memory entry holds after the power-on reset input (10_state R52; U2). No body: nothing can be proved of a
value (log 4). The machine applies it to the counter `freeIx` of its state. -/
opaque freeWord : Nat → BitVec 32

end Sys2Proof.Config
end

