-- ==== Sys2Proof/Machine/State.lean ====
section
/-! DEFINITION. The state of the block as plain data, the reasons a step can stop, and the state after reset (10_state R20 to R52). -/

namespace Sys2Proof.Machine

/-- Why the machine stops. The seven faults of the block are no stops: they are next states with the fault registers
written (60_exceptions R257). -/
inductive Fault where
  /-- Raised by the host's own access to a byte of STREAM that does not exist (address at or above STREAMSIZE, 10_state
  R48). No command raises it. Safe. -/
  | noStreamByte
  /-- Raised by the host's own access to a byte of PIX that does not exist (address at or above PIXSIZE, 10_state R48).
  No command raises it. Safe. -/
  | noPixByte
  deriving DecidableEq, Repr

/-- Why the model has no meaning for a step. -/
inductive Refusal where
  /-- Raised by `exec`'s arm of a command that has no meaning yet. No command is refused. Safe. -/
  | notModelled (mnemonic : String)
  deriving DecidableEq, Repr

/-- A memory: a list of (address, entry) pairs in ONE canonical form (`Memory.wf`); an address that is not listed reads as
0 (log 2). With `w = 8` it is a list of `Host.Cell`. -/
abbrev Memory (w : Nat) := List (Nat × BitVec w)

/-- One Boolean-decoder context BD[k] (10_state R37). -/
structure Ctx where
  startAddr : Word
  endAddr   : Word
  pos       : Word
  value     : BitVec 16
  range     : BitVec 8
  bitcnt    : BitVec 3
  init      : Bool
  deriving DecidableEq, Repr

/-- A context after reset: every field 0 (10_state R51). -/
def Ctx.reset : Ctx :=
  { startAddr := 0, endAddr := 0, pos := 0, value := 0, range := 0, bitcnt := 0, init := false }

/-- One event of the outside world (44_system R241; 20_memory R84). -/
inductive HostEvent where
  /-- HostRead(addr) on the register port. -/
  | read (addr : BitVec 13)
  /-- HostWrite(addr, data) on the register port; a write to CMD executes a command. -/
  | write (addr : BitVec 13) (data : Word)
  /-- The reset input, between two commands (70_reset R280). -/
  | powerOn
  /-- HostWrite(CMD, data) with the reset input asserted while the command is executed (70_reset R282; log 11). -/
  | resetDuring (data : Word)
  /-- The platform's read of one byte of STREAM (20_memory R84; log 10). -/
  | streamRead (addr : Nat)
  /-- The platform's write of one byte of STREAM (20_memory R84; log 10). -/
  | streamWrite (addr : Nat) (data : Byte)
  /-- The platform's read of one byte of PIX (20_memory R84; log 10). -/
  | pixRead (addr : Nat)
  /-- The platform's write of one byte of PIX (20_memory R84; log 10). -/
  | pixWrite (addr : Nat) (data : Byte)
  deriving DecidableEq, Repr

/-- Everything the spec gives the machine. The fields from `inbox` on are the model's own (logs 4, 8, 9). -/
structure State where
  /-- RESULT (10_state R21). -/
  result   : Word
  /-- CUR, the current context, 0 to 8 (10_state R22; log 19). -/
  cur      : Fin 9
  /-- CMDCNT, completed commands (10_state R23). -/
  cmdcnt   : Word
  /-- STATUS.FAULT (10_state R28). -/
  fault    : Bool
  /-- STATUS.FCLASS (10_state R28). -/
  fclass   : BitVec 2
  /-- STATUS.FCODE (10_state R28). -/
  fcode    : BitVec 4
  /-- FCMD, the command word that faulted (10_state R30). -/
  fcmd     : Word
  /-- FINFO, the information value of the fault (10_state R30). -/
  finfo    : Word
  /-- LFCFG: SIMPLE bit 0, SHARP bits 3:1, BASELVL bits 9:4 (10_state R32). -/
  lfcfg    : BitVec 10
  /-- LFLVL.LVL (10_state R33). -/
  lflvl    : BitVec 6
  /-- LFX (10_state R34). -/
  lfx      : BitVec 14
  /-- LFY (10_state R34). -/
  lfy      : BitVec 14
  /-- YBASE (10_state R35). -/
  ybase    : Word
  /-- UBASE (10_state R35). -/
  ubase    : Word
  /-- VBASE (10_state R35). -/
  vbase    : Word
  /-- YSTRIDE (10_state R35). -/
  ystride  : BitVec 16
  /-- UVSTRIDE (10_state R35). -/
  uvstride : BitVec 16
  /-- LNZ, the left non-zero flags, TDLNZ on the port (10_state R36, R47). -/
  lnz      : BitVec 9
  /-- BD[0] to BD[8] (10_state R37). -/
  bd       : Vector Ctx 9
  /-- TREE, 64 signed 8-bit entries (10_state R41). -/
  tree     : Memory 8
  /-- TPROB, 32 probabilities (10_state R41). -/
  tprob    : Memory 8
  /-- DQF, 128 factors (10_state R43). -/
  dqf      : Memory 16
  /-- CPROB, 1056 probabilities (10_state R42). -/
  cprob    : Memory 8
  /-- QCOEF, 400 signed 16-bit levels (10_state R44). -/
  qcoef    : Memory 16
  /-- COEF, 400 signed 32-bit coefficients (10_state R45). -/
  coef     : Memory 32
  /-- ANZ, 1024 columns of above non-zero flags (10_state R46, R47). -/
  anz      : Memory 9
  /-- STREAM, read only to the block (10_state R48). -/
  stream   : Memory 8
  /-- PIX, the pixel memory (10_state R48). -/
  pix      : Memory 8
  /-- STREAMSIZE and PIXSIZE, changed by no event (10_state R50; log 1). -/
  params   : Config.Params
  /-- The host events still to come, oldest first (44_system R241; log 8). -/
  inbox    : List HostEvent
  /-- The data the last read event returned to the host (log 9). -/
  rdata    : Word
  /-- The next index into the free values (log 4). -/
  freeIx   : Nat
  deriving DecidableEq, Repr

/-- The machine right after reset: every register at its reset value (10_state R51), memories with nothing listed
(log 2), sizes as log 1 says, no host event pending (log 8). -/
def State.reset : State :=
  { result := 0, cur := 0, cmdcnt := 0, fault := false, fclass := 0, fcode := 0, fcmd := 0, finfo := 0
    lfcfg := 0, lflvl := 0, lfx := 0, lfy := 0, ybase := 0, ubase := 0, vbase := 0, ystride := 0, uvstride := 0
    lnz := 0, bd := Vector.replicate 9 Ctx.reset
    tree := [], tprob := [], dqf := [], cprob := [], qcoef := [], coef := [], anz := []
    stream := [], pix := [], params := Config.resetParams
    inbox := [], rdata := 0, freeIx := 0 }

end Sys2Proof.Machine
end

