-- ==== Sys2Proof/Machine/Ops.lean ====
section
/-! DEFINITION. The named operations over memory and registers: memory access, free values, the fault entry and the completion of a command, the two resets, access to the contexts. -/

namespace Sys2Proof.Machine

/-! ## Memory -/

/-- What an address that nothing has written reads as. DESIGN CHOICE (log 2). -/
def Memory.unlisted {w : Nat} : BitVec w := 0

/-- The entry at an address (00_scope R11). -/
def Memory.read {w : Nat} : Memory w → Nat → BitVec w
  | [], _ => Memory.unlisted
  | (b, u) :: m, a => if b = a then u else Memory.read m a

/-- A memory without any entry at an address. -/
def Memory.erase {w : Nat} (m : Memory w) (a : Nat) : Memory w := m.filter fun e => e.1 != a

/-- A memory with an entry put where rising addresses want it. -/
def Memory.insert {w : Nat} : Memory w → Nat → BitVec w → Memory w
  | [], a, v => [(a, v)]
  | (b, u) :: m, a, v => if a < b then (a, v) :: (b, u) :: m else (b, u) :: Memory.insert m a v

/-- Writing one entry (00_scope R11); writing the value of an unlisted address removes the entry, so that equal memories
are equal lists. -/
def Memory.write {w : Nat} (m : Memory w) (a : Nat) (v : BitVec w) : Memory w :=
  if v = Memory.unlisted then m.erase a else (m.erase a).insert a v

/-- Writes, in the order listed. -/
def Memory.writeAll {w : Nat} : Memory w → List (Nat × BitVec w) → Memory w
  | m, [] => m
  | m, (a, v) :: rest => Memory.writeAll (m.write a v) rest

/-- Consecutive entries from an address on. -/
def Memory.writeSeq {w : Nat} : Memory w → Nat → List (BitVec w) → Memory w
  | m, _, [] => m
  | m, a, v :: rest => Memory.writeSeq (m.write a v) (a + 1) rest

/-- Writing 0 to `n` entries from `base` on. -/
def Memory.clear {w : Nat} (m : Memory w) (base n : Nat) : Memory w :=
  m.filter fun e => !(decide (base ≤ e.1) && decide (e.1 < base + n))

/-- The canonical form of a memory of `size` entries: addresses strictly rising and below `size`, and no entry equal to what
an unlisted address reads as. -/
abbrev Memory.wf {w : Nat} (size : Nat) (m : Memory w) : Prop :=
  m.Pairwise (fun e f => e.1 < f.1) ∧ ∀ e ∈ m, e.1 < size ∧ e.2 ≠ Memory.unlisted

/-! ## Free values -/

/-- The free value number `n`, at width `w` (60_exceptions R257; U2, U5). -/
def freeBits (w n : Nat) : BitVec w := (Config.freeWord n).setWidth w

/-- The entries at the listed addresses hold free values, numbered from `n` on. -/
def Memory.scramble {w : Nat} : Memory w → Nat → List Nat → Memory w
  | m, _, [] => m
  | m, n, a :: rest => Memory.scramble (m.write a (freeBits w n)) (n + 1) rest

/-! ## Contexts -/

/-- BD[k] (10_state R37). -/
def State.ctx (s : State) (k : Fin 9) : Ctx := s.bd[k]

/-- BD[k] replaced (10_state R37). -/
def State.setCtx (s : State) (k : Fin 9) (c : Ctx) : State := { s with bd := s.bd.set k c }

/-- The context every stream read goes through (10_state R22). -/
def State.curCtx (s : State) : Ctx := s.ctx s.cur

/-! ## Fields of LFCFG -/

/-- LFCFG.SIMPLE (10_state R32). -/
def State.simple (s : State) : Bool := s.lfcfg.getLsbD 0

/-- LFCFG.SHARP (10_state R32). -/
def State.sharp (s : State) : BitVec 3 := s.lfcfg.extractLsb' 1 3

/-- LFCFG.BASELVL (10_state R32). -/
def State.baselvl (s : State) : BitVec 6 := s.lfcfg.extractLsb' 4 6

/-! ## Faults (60_exceptions R250 to R257) -/

/-- The seven faults (60_exceptions R250). -/
inductive FaultName where
  | illegalCmd
  | illegalOperand
  | bdUninit
  | bdRange
  | bdOverrun
  | treeRange
  | pixRange
  deriving DecidableEq, Repr

/-- FCODE of a fault (60_exceptions R250). -/
def FaultName.code : FaultName → BitVec 4
  | .illegalCmd => 1
  | .illegalOperand => 2
  | .bdUninit => 3
  | .bdRange => 4
  | .bdOverrun => 5
  | .treeRange => 6
  | .pixRange => 7

/-- FCLASS of a fault (60_exceptions R251). -/
def FaultName.cls : FaultName → BitVec 2
  | .illegalCmd => 1
  | .bdOverrun => 2
  | .illegalOperand => 3
  | .bdUninit => 3
  | .bdRange => 3
  | .treeRange => 3
  | .pixRange => 3

/-- What `raise <Name>(info)` records (00_scope R12). -/
structure Trap where
  name : FaultName
  info : Word
  deriving DecidableEq, Repr

/-- Taking a fault: the five fault fields are written and nothing else; control goes nowhere (60_exceptions R257). -/
def State.raise (s : State) (w : Word) (t : Trap) : State :=
  { s with fault := true, fcode := t.name.code, fclass := t.name.cls, fcmd := w, finfo := t.info }

/-- The fault a word that does not decode raises (30_encoding R104). -/
def decodeTrap : DecodeError → Trap
  | .illegalCmd op => ⟨.illegalCmd, op.setWidth 32⟩
  | .reservedBit => ⟨.illegalOperand, 0⟩
  | .operandRange => ⟨.illegalOperand, 1⟩

/-- A command completes without a fault: CMDCNT advances (10_state R23; 30_encoding R104). -/
def State.complete (s : State) : State := { s with cmdcnt := s.cmdcnt + 1 }

/-- The outcome of a command that reached `raise` with the state `s` left behind (60_exceptions R257). FCMD is the command's
word, which is the encoding of the command (log 15). -/
def faulted (i : Instr) (s : State) (t : Trap) : Host.Outcome State Fault Refusal := .next (s.raise (encode i) t)

/-- The outcome of a command that completed (30_encoding R104). -/
def completed (s : State) : Host.Outcome State Fault Refusal := .next s.complete

/-- The operand check of the decoder, made again on the instruction as a term: an operand outside its legal values raises
ILLEGAL_OPERAND(1) (30_encoding R104; log 16). -/
def guardLegal (i : Instr) (s : State) (body : Host.Outcome State Fault Refusal) : Host.Outcome State Fault Refusal :=
  if i.wf then body else faulted i s ⟨.illegalOperand, 1⟩

/-! ## Leaving the fault state: the resets (70_reset R280, R281) -/

/-- Every register of the port map at its reset value (10_state R51); memories, STREAM, PIX and the host's side stay. -/
def State.resetRegs (s : State) : State :=
  { State.reset with
    tree := s.tree, tprob := s.tprob, dqf := s.dqf, cprob := s.cprob, qcoef := s.qcoef, coef := s.coef, anz := s.anz
    stream := s.stream, pix := s.pix, params := s.params
    inbox := s.inbox, rdata := s.rdata, freeIx := s.freeIx }

/-- The soft reset, `HostWrite(CTRL, 1)`: registers reset, memories kept (70_reset R281). -/
def State.softReset (s : State) : State := s.resetRegs

/-- The reset input: registers reset, the seven internal memories unspecified, STREAM and PIX kept (70_reset R280; 10_state
R52; log 3). -/
def State.powerOn (s : State) : State :=
  let n := s.freeIx
  { s.resetRegs with
    tree := Memory.scramble [] n (List.range 64)
    tprob := Memory.scramble [] (n + 64) (List.range 32)
    dqf := Memory.scramble [] (n + 96) (List.range 128)
    cprob := Memory.scramble [] (n + 224) (List.range 1056)
    qcoef := Memory.scramble [] (n + 1280) (List.range 400)
    coef := Memory.scramble [] (n + 1680) (List.range 400)
    anz := Memory.scramble [] (n + 2080) (List.range 1024)
    freeIx := n + 3104 }

/-! ## What an execution fault leaves behind (60_exceptions R257) -/

/-- POS, VALUE, RANGE and BITCNT of a context hold free values numbered from `n` on. -/
def Ctx.scramble (c : Ctx) (n : Nat) : Ctx :=
  { c with pos := freeBits 32 n, value := freeBits 16 (n + 1), range := freeBits 8 (n + 2), bitcnt := freeBits 3 (n + 3) }

/-- The write set of BD_SEEK k: POS, VALUE, RANGE, BITCNT free; INIT 0 (60_exceptions R257). -/
def State.scrambleSeek (s : State) (k : Fin 9) : State :=
  { s.setCtx k { (s.ctx k).scramble s.freeIx with init := false } with freeIx := s.freeIx + 4 }

/-- The write set of the read commands: RESULT and POS, VALUE, RANGE, BITCNT of BD[CUR] (60_exceptions R257). -/
def State.scrambleRead (s : State) : State :=
  { s.setCtx s.cur (s.curCtx.scramble s.freeIx) with result := freeBits 32 (s.freeIx + 4), freeIx := s.freeIx + 5 }

end Sys2Proof.Machine
end

