-- ==== Sys2Proof/Machine/Rom.lean ====
section
/-! DEFINITION. The default values of the ROM tables CTREE, ZIGZAG, BAND, CATBASE, PCAT (41_td R163 to R166), as one configuration record (93_implementation_defined U19). -/

namespace Sys2Proof.Machine

/-- CTREE, the token tree as a table of eleven nodes (41_td R163). -/
def romTree : Vector Config.Node 11 :=
  #v[⟨.leaf .eob, .inner 1⟩,
     ⟨.leaf (.dct 0), .inner 2⟩,
     ⟨.leaf (.dct 1), .inner 3⟩,
     ⟨.inner 4, .inner 6⟩,
     ⟨.leaf (.dct 2), .inner 5⟩,
     ⟨.leaf (.dct 3), .leaf (.dct 4)⟩,
     ⟨.inner 7, .inner 8⟩,
     ⟨.leaf (.cat 0), .leaf (.cat 1)⟩,
     ⟨.inner 9, .inner 10⟩,
     ⟨.leaf (.cat 2), .leaf (.cat 3)⟩,
     ⟨.leaf (.cat 4), .leaf (.cat 5)⟩]

/-- ZIGZAG, scan position to raster position (41_td R164). -/
def romZigzag : Vector (Fin 16) 16 := #v[0, 1, 4, 8, 5, 2, 3, 6, 9, 12, 13, 10, 7, 11, 14, 15]

/-- BAND, scan position to band (41_td R165). -/
def romBand : Vector (Fin 8) 16 := #v[0, 1, 2, 3, 6, 4, 5, 6, 6, 6, 6, 6, 6, 6, 6, 7]

/-- CATBASE and PCAT of CAT1 to CAT6 (41_td R166). -/
def romCats : Vector Config.Category 6 :=
  #v[⟨5, [159]⟩,
     ⟨7, [165, 145]⟩,
     ⟨11, [173, 148, 140]⟩,
     ⟨19, [176, 155, 140, 135]⟩,
     ⟨35, [180, 157, 141, 134, 130]⟩,
     ⟨67, [254, 254, 243, 230, 196, 177, 153, 140, 133, 130, 129]⟩]

/-- The tables this block is built with (41_td R163 to R166; log 13). -/
def rom : Config.Rom := { ctree := romTree, zigzag := romZigzag, band := romBand, cats := romCats }

end Sys2Proof.Machine
end

