-- ==== Sys2Proof/Machine/Operands.lean ====
section
/-! DEFINITION. The operand forms: block types and first positions, the linear indices of the internal memories, the two addressing forms (stream fetch is in BD.lean; pixel access here), macroblock geometry (10_state R42 to R47; 20_memory R81, R89; 43_lf R205). -/

namespace Sys2Proof.Machine

/-! ## Indices of the internal memories -/

/-- CPROB[t][b][c][k] (10_state R42). -/
def cprobIx (t b c k : Nat) : Nat := ((t * 8 + b) * 3 + c) * 11 + k

/-- DQF[s][t][b] (10_state R43). -/
def dqfIx (s t b : Nat) : Nat := (s * 4 + t) * 8 + b

/-- QCOEF[blk][n] and COEF[blk][r] (10_state R44, R45). -/
def coefIx (blk n : Nat) : Nat := blk * 16 + n

/-! ## Blocks of a macroblock -/

/-- The bit of LNZ that belongs to a block (10_state R47). -/
def lBit (blk : Nat) : Nat :=
  if blk < 16 then blk / 4
  else if blk < 20 then 4 + (blk - 16) / 2
  else if blk < 24 then 6 + (blk - 20) / 2
  else 8

/-- The bit of ANZ[col] that belongs to a block (10_state R47). -/
def aBit (blk : Nat) : Nat :=
  if blk < 16 then blk % 4
  else if blk < 20 then 4 + (blk - 16) % 2
  else if blk < 24 then 6 + (blk - 20) % 2
  else 8

/-- The first scan position of a block type: 1 for Y-with-Y2, else 0 (41_td R161). -/
def firstPos (t : Nat) : Nat := if t = 0 then 1 else 0

/-- The luma and chroma blocks of a macroblock in decoding order, each with its type; the luma type is 0 with a Y2 block and
3 without (41_td R177). -/
def macroblockBlocks (hasy2 : Bool) : List (Nat × Nat) :=
  (if hasy2 then [(24, 1)] else [])
    ++ (List.range 16).map (fun blk => (blk, if hasy2 then 0 else 3))
    ++ (List.range' 16 8).map (fun blk => (blk, 2))

/-! ## Pixel addresses -/

/-- The base register of a plane (20_memory R81). -/
def State.planeBase (s : State) (pl : Nat) : Nat :=
  if pl = 0 then s.ybase.toNat else if pl = 1 then s.ubase.toNat else s.vbase.toNat

/-- The stride register of a plane (20_memory R81). -/
def State.planeStride (s : State) (pl : Nat) : Nat := if pl = 0 then s.ystride.toNat else s.uvstride.toNat

/-- `PixAddr(plane, x, y)`: an unbounded integer address, checked, never wrapped (20_memory R81). -/
def State.pixAddr (s : State) (pl : Nat) (x y : Int) : Except Trap Nat :=
  if x < 0 ∨ y < 0 then .error ⟨.pixRange, 0xFFFFFFFF⟩
  else
    let a := s.planeBase pl + y.toNat * s.planeStride pl + x.toNat
    if s.params.pixSize ≤ a then .error ⟨.pixRange, BitVec.ofNat 32 a⟩ else .ok a

/-- The pixels of a segment across an edge (43_lf R205). -/
inductive Px where
  | p3 | p2 | p1 | p0 | q0 | q1 | q2 | q3
  deriving DecidableEq, Repr

/-- The place of a pixel along the segment: P_j at -1 - j, Q_j at j (43_lf R206). -/
def Px.offset : Px → Int
  | .p3 => -4
  | .p2 => -3
  | .p1 => -2
  | .p0 => -1
  | .q0 => 0
  | .q1 => 1
  | .q2 => 2
  | .q3 => 3

/-- The address of a pixel of the segment whose Q0 is at (x, y) (43_lf R205, R206). -/
def State.pxAddr (s : State) (pl : Nat) (dir : Dir) (x y : Int) (p : Px) : Except Trap Nat :=
  match dir with
  | .v => s.pixAddr pl (x + p.offset) y
  | .h => s.pixAddr pl x (y + p.offset)

/-- One application of the 1D edge operation: plane, direction, kind and the position of Q0 (43_lf R206). -/
structure SegOp where
  pl   : Nat
  dir  : Dir
  kind : Kind
  x    : Int
  y    : Int
  deriving DecidableEq, Repr

/-- The positions of one edge of `len` pixels from (x, y) on: going down a vertical edge, going right along a horizontal one
(43_lf R214). -/
def edgeOps (pl : Nat) (dir : Dir) (kind : Kind) (x y : Int) (len : Nat) : List SegOp :=
  (List.range len).map fun (k : Nat) =>
    match dir with
    | .v => { pl := pl, dir := .v, kind := kind, x := x, y := y + k }
    | .h => { pl := pl, dir := .h, kind := kind, x := x + k, y := y }

/-- The offsets of the inner edges of a plane of `size` pixels: 4, 8, ..., size - 4 (43_lf R215). -/
def innerOffsets (size : Nat) : List Nat := (List.range (size / 4 - 1)).map fun j => 4 * (j + 1)

/-- The edges of one macroblock in one plane: left, inner vertical, top, inner horizontal (43_lf R215). -/
def planeOps (pl size : Nat) (km ks : Kind) (mbx mby : Nat) (noinner : Bool) : List SegOp :=
  let x : Int := size * mbx
  let y : Int := size * mby
  (if 0 < mbx then edgeOps pl .v km x y size else [])
    ++ (if noinner then [] else (innerOffsets size).flatMap fun (e : Nat) => edgeOps pl .v ks (x + e) y size)
    ++ (if 0 < mby then edgeOps pl .h km x y size else [])
    ++ (if noinner then [] else (innerOffsets size).flatMap fun (e : Nat) => edgeOps pl .h ks x (y + e) size)

/-- All edges of one macroblock: luma only for the simple filter, the three planes for the normal one (43_lf R215). -/
def macroblockOps (simple : Bool) (mbx mby : Nat) (noinner : Bool) : List SegOp :=
  if simple then planeOps 0 16 .smb .ssub mbx mby noinner
  else planeOps 0 16 .nmb .nsub mbx mby noinner
    ++ planeOps 1 8 .nmb .nsub mbx mby noinner
    ++ planeOps 2 8 .nmb .nsub mbx mby noinner

end Sys2Proof.Machine
end

