-- ==== Sys2Proof/Machine/Flags.lean ====
section
/-! DEFINITION. The flags: the non-zero flags LNZ and ANZ of the token decoder, and the words STATUS and BDSTATE that show flags to the host (10_state R24, R28, R38, R47; 41_td R169, R173). -/

namespace Sys2Proof.Machine

/-- One flag written, the others kept (41_td R170). -/
def withFlag (v : BitVec 9) (i : Nat) (b : Bool) : BitVec 9 :=
  if b then v ||| (1#9 <<< i) else v &&& ~~~(1#9 <<< i)

/-- The context of a block's first token: left flag plus above flag, 0 to 2 (41_td R169). -/
def firstCtx (lnz anz : BitVec 9) (blk : Nat) : Nat :=
  (lnz.getLsbD (lBit blk)).toNat + (anz.getLsbD (aBit blk)).toNat

/-- The flags a skipped macroblock clears: all but the Y2 flag, and the Y2 flag too when it has a Y2 block (41_td R177). -/
def skipMask (hasy2 : Bool) : BitVec 9 := BitVec.ofBool hasy2 ++ 0xFF#8

/-- STATUS: FAULT bit 0, FCLASS bits 2:1, FCODE bits 7:4, CUR bits 11:8, the rest 0 (10_state R28). -/
def State.status (s : State) : Word :=
  0#20 ++ BitVec.ofNat 4 s.cur.val ++ s.fcode ++ 0#1 ++ s.fclass ++ BitVec.ofBool s.fault

/-- The FAULT output line, equal to STATUS.FAULT at all times (60_exceptions R253). -/
def State.faultOutput (s : State) : Bool := s.fault

/-- BDSTATE[k]: VALUE bits 15:0, RANGE 23:16, BITCNT 26:24, INIT bit 31 (10_state R38). -/
def Ctx.stateWord (c : Ctx) : Word :=
  BitVec.ofBool c.init ++ 0#4 ++ c.bitcnt ++ c.range ++ c.value

end Sys2Proof.Machine
end

