-- ==== Sys2Proof/Machine/BD.lean ====
section
/-! DEFINITION. The Boolean decoder unit: Fetch, ReadBool and the commands BD_SEL, BD_SEEK, BD_BIT, BD_BOOL, BD_LIT, BD_TREE (40_bd R130 to R145). -/

namespace Sys2Proof.Machine

/-! ## Shared procedures -/

/-- `Fetch(k)`: the byte at POS when POS < END, the cursor advanced; otherwise BD_OVERRUN(POS) (40_bd R132). -/
def fetch (stream : Memory 8) (c : Ctx) : Except Trap (Byte × Ctx) :=
  if c.endAddr ≤ c.pos then .error ⟨.bdOverrun, c.pos⟩
  else .ok (stream.read c.pos.toNat, { c with pos := c.pos + 1 })

/-- One pass of the normalisation loop: both registers shifted left, a byte merged at every eighth shift (40_bd R133). -/
def shiftOnce (stream : Memory 8) (c : Ctx) : Except Trap Ctx :=
  let v := c.value <<< 1
  let r := c.range <<< 1
  if c.bitcnt = 7#3 then
    match fetch stream c with
    | .error t => .error t
    | .ok (b, c') => .ok { c' with value := v ||| b.setWidth 16, range := r, bitcnt := 0#3 }
  else .ok { c with value := v, range := r, bitcnt := c.bitcnt + 1#3 }

/-- `while RANGE < 128`, at most `fuel` passes (40_bd R133). Seven passes are enough for every RANGE above 0 (R141; log 14). -/
def normalise (stream : Memory 8) : Nat → Ctx → Except Trap Ctx
  | 0, c => .ok c
  | fuel + 1, c =>
    if c.range < 128#8 then
      match shiftOnce stream c with
      | .error t => .error t
      | .ok c' => normalise stream fuel c'
    else .ok c

/-- `split = 1 + (((RANGE - 1) * p) >> 8)` (40_bd R133). -/
def split (range p : BitVec 8) : Nat := 1 + ((range.toNat - 1) * p.toNat) / 256

/-- The decision of one read, before normalisation: the bit and the context with the chosen half of the interval
(40_bd R133). -/
def decideBit (p : BitVec 8) (c : Ctx) : Bool × Ctx :=
  let sp := split c.range p
  if sp * 256 ≤ c.value.toNat then
    (true, { c with range := c.range - BitVec.ofNat 8 sp, value := c.value - BitVec.ofNat 16 (sp * 256) })
  else (false, { c with range := BitVec.ofNat 8 sp })

/-- `ReadBool(p)`: one bit with the probability `p` that it is 0 (40_bd R133). -/
def readBool (stream : Memory 8) (p : BitVec 8) (c : Ctx) : Except Trap (Bool × Ctx) :=
  match normalise stream 7 (decideBit p c).2 with
  | .error t => .error t
  | .ok c' => .ok ((decideBit p c).1, c')

/-- Reads with the listed probabilities, most significant bit first, into `acc` (40_bd R135; 41_td R166). -/
def readBits (stream : Memory 8) : List Byte → Nat → Ctx → Except Trap (Nat × Ctx)
  | [], acc, c => .ok (acc, c)
  | p :: ps, acc, c =>
    match readBool stream p c with
    | .error t => .error t
    | .ok (b, c') => readBits stream ps (acc * 2 + b.toNat) c'

/-- The tree walk of BD_TREE from index `i`: TREE_RANGE above 62 before the read, then one read with TPROB[i >> 1], then the
leaf or the next index (40_bd R137). Every walk ends within the bound of R139, so a walk out of fuel is one that R137 (d)
ends in BD_OVERRUN (log 14). -/
def treeWalk (stream tree tprob : Memory 8) : Nat → Nat → Ctx → Except Trap (Word × Ctx)
  | 0, _, c => .error ⟨.bdOverrun, c.endAddr⟩
  | fuel + 1, i, c =>
    if 62 < i then .error ⟨.treeRange, BitVec.ofNat 32 i⟩
    else
      match readBool stream (tprob.read (i / 2)) c with
      | .error t => .error t
      | .ok (b, c') =>
        let e := (tree.read (i + b.toNat)).toInt
        if e < 0 then .ok (BitVec.ofInt 32 (-e), c') else treeWalk stream tree tprob fuel e.toNat c'

/-- How many ReadBool calls a context can complete or attempt before BD_OVERRUN (40_bd R139). -/
def walkBound (c : Ctx) : Nat := 128 * 8 * (c.endAddr.toNat - c.pos.toNat + 1)

/-- The two bytes BD_SEEK loads and the fresh interval (40_bd R131). -/
def seek (stream : Memory 8) (c : Ctx) : Except Trap Ctx :=
  match fetch stream { c with init := false, pos := c.startAddr } with
  | .error t => .error t
  | .ok (hi, c1) =>
    match fetch stream c1 with
    | .error t => .error t
    | .ok (lo, c2) => .ok { c2 with value := hi ++ lo, range := 255#8, bitcnt := 0#3, init := true }

/-- A read command: the entry check BD_UNINIT, then a read through BD[CUR], then RESULT (40_bd R134, R145). A read that faults
leaves its write set unspecified (60_exceptions R257). -/
def bdRead (i : Instr) (s : State) (read : Ctx → Except Trap (Word × Ctx)) : Host.Outcome State Fault Refusal :=
  if s.curCtx.init then
    match read s.curCtx with
    | .error t => faulted i s.scrambleRead t
    | .ok (v, c) => completed { s.setCtx s.cur c with result := v }
  else faulted i s ⟨.bdUninit, BitVec.ofNat 32 s.cur.val⟩

/-- The value of a one-bit read in RESULT (40_bd R134). -/
def readBoolWord (stream : Memory 8) (p : BitVec 8) (c : Ctx) : Except Trap (Word × Ctx) :=
  match readBool stream p c with
  | .error t => .error t
  | .ok (b, c') => .ok (BitVec.ofNat 32 b.toNat, c')

/-- The value of a literal in RESULT (40_bd R135). -/
def readLitWord (stream : Memory 8) (n : Nat) (c : Ctx) : Except Trap (Word × Ctx) :=
  match readBits stream (List.replicate n 128#8) 0 c with
  | .error t => .error t
  | .ok (v, c') => .ok (BitVec.ofNat 32 v, c')

/-! ## The commands -/

/-- BD_SEL ctx: CUR (40_bd R130). -/
def execBdSel (ctx : BitVec 4) (s : State) : Host.Outcome State Fault Refusal :=
  guardLegal (.bdSel ctx) s (completed { s with cur := Fin.ofNat 9 ctx.toNat })

/-- BD_SEEK ctx: the range check, then the start of the range (40_bd R131). -/
def execBdSeek (ctx : BitVec 4) (s : State) : Host.Outcome State Fault Refusal :=
  let k := Fin.ofNat 9 ctx.toNat
  let c := s.ctx k
  guardLegal (.bdSeek ctx) s
    (if c.startAddr ≤ c.endAddr ∧ c.endAddr.toNat ≤ s.params.streamSize then
      match seek s.stream c with
      | .error t => faulted (.bdSeek ctx) (s.scrambleSeek k) t
      | .ok c' => completed (s.setCtx k c')
    else faulted (.bdSeek ctx) s ⟨.bdRange, BitVec.ofNat 32 k.val⟩)

/-- BD_BIT: one bit with probability 128 (40_bd R140). -/
def execBdBit (s : State) : Host.Outcome State Fault Refusal :=
  bdRead .bdBit s (readBoolWord s.stream 128#8)

/-- BD_BOOL prob: one bit with the given probability (40_bd R134). -/
def execBdBool (prob : BitVec 8) (s : State) : Host.Outcome State Fault Refusal :=
  bdRead (.bdBool prob) s (readBoolWord s.stream prob)

/-- BD_LIT n: an n-bit literal, most significant bit first (40_bd R135). -/
def execBdLit (n : BitVec 5) (s : State) : Host.Outcome State Fault Refusal :=
  bdRead (.bdLit n) s (readLitWord s.stream n.toNat)

/-- BD_TREE start: the walk of the tree in TREE and TPROB (40_bd R137). START = 63 faults before any read, so it leaves the
write set as it was (60_exceptions R257; 90_conflicts C6; log 6). -/
def execBdTree (start : BitVec 6) (s : State) : Host.Outcome State Fault Refusal :=
  if s.curCtx.init ∧ 62 < start.toNat then faulted (.bdTree start) s ⟨.treeRange, start.setWidth 32⟩
  else bdRead (.bdTree start) s fun c => treeWalk s.stream s.tree s.tprob (walkBound c) start.toNat c

end Sys2Proof.Machine
end

