-- ==== Sys2Proof/Machine/DQ.lean ====
section
/-! DEFINITION. The dequantizer unit: DqBlk and the command DQ_BLK (42_dq R190 to R195). -/

namespace Sys2Proof.Machine

/-- The exact product of a signed 16-bit level and an unsigned 16-bit factor, in 32 bits (42_dq R192, R194). -/
def dequant (level factor : BitVec 16) : BitVec 32 := BitVec.ofInt 32 (level.toInt * (factor.toNat : Int))

/-- The coefficient of block `blk` for scan position `n`, and its address in raster order (42_dq R192). -/
def dqEntry (rom : Config.Rom) (qcoef dqf : Memory 16) (blk t seg : Nat) (n : Fin 16) : Nat × BitVec 32 :=
  (coefIx blk (rom.zigzag[n]).val,
    dequant (qcoef.read (coefIx blk n.val)) (dqf.read (dqfIx seg t (rom.band[n]).val)))

/-- `DqBlk(blk, t, s)`: QCOEF[blk] scaled into COEF[blk] (42_dq R192). -/
def dqBlk (rom : Config.Rom) (qcoef dqf : Memory 16) (blk t seg : Nat) (coef : Memory 32) : Memory 32 :=
  coef.writeAll ((List.finRange 16).map (dqEntry rom qcoef dqf blk t seg))

/-- DQ_BLK blk, type, seg (42_dq R193). -/
def execDqBlk (blk : BitVec 5) (type seg : BitVec 2) (s : State) : Host.Outcome State Fault Refusal :=
  guardLegal (.dqBlk blk type seg) s
    (completed { s with coef := dqBlk rom s.qcoef s.dqf blk.toNat type.toNat seg.toNat s.coef })

end Sys2Proof.Machine
end

