-- ==== Sys2Proof/Machine/LF.lean ====
section
/-! DEFINITION. The in-loop deblocking filter unit: Limits, the pixel arithmetic, Seg, and the commands LF_SETLVL, LF_ADJLVL, LF_SETX, LF_SETY, LF_SEG, LF_EDGE, LF_MB (43_lf R200 to R219). -/

namespace Sys2Proof.Machine

/-! ## Thresholds -/

/-- The four thresholds of `Limits()` (43_lf R203). -/
structure Limits where
  interior : Nat
  hevt     : Nat
  emb      : Nat
  esub     : Nat
  deriving DecidableEq, Repr

/-- I, the interior limit, before it is used (43_lf R203). -/
def interiorLimit (lvl sharp : Nat) : Nat :=
  let i := if sharp = 0 then lvl else min (lvl / (if 4 < sharp then 4 else 2)) (9 - sharp)
  if i = 0 then 1 else i

/-- `Limits()` (43_lf R203). -/
def limits (lvl sharp : Nat) : Limits :=
  let i := interiorLimit lvl sharp
  { interior := i
    hevt := if 40 ≤ lvl then 2 else if 15 ≤ lvl then 1 else 0
    emb := (lvl + 2) * 2 + i
    esub := lvl * 2 + i }

/-! ## Pixel arithmetic -/

/-- `u2s`: a pixel as a signed number (43_lf R204). -/
def u2s (v : Byte) : Int := (v.toNat : Int) - 128

/-- `c`: saturation to -128..127 (43_lf R204). -/
def sat (v : Int) : Int := if v < -128 then -128 else if 127 < v then 127 else v

/-- `s2u`: a signed number as a pixel, saturated (43_lf R204). -/
def s2u (v : Int) : Byte := BitVec.ofInt 8 (sat v + 128)

/-- The absolute difference of two pixels (43_lf R207, R208). -/
def absDiff (a b : Byte) : Nat := ((a.toNat : Int) - (b.toNat : Int)).natAbs

/-- The pixels of a segment (43_lf R205); the simple kinds read and use P1 to Q1 only. -/
structure Line where
  p3 : Byte
  p2 : Byte
  p1 : Byte
  p0 : Byte
  q0 : Byte
  q1 : Byte
  q2 : Byte
  q3 : Byte
  deriving DecidableEq, Repr

/-- The edge test of the simple and the normal filter (43_lf R207, R208). -/
def edgeTest (e : Nat) (l : Line) : Bool := decide (absDiff l.p0 l.q0 * 2 + absDiff l.p1 l.q1 / 2 ≤ e)

/-- `FilterYes(I, E)` (43_lf R208). -/
def filterYes (i e : Nat) (l : Line) : Bool :=
  edgeTest e l
    && decide (absDiff l.p3 l.p2 ≤ i) && decide (absDiff l.p2 l.p1 ≤ i) && decide (absDiff l.p1 l.p0 ≤ i)
    && decide (absDiff l.q3 l.q2 ≤ i) && decide (absDiff l.q2 l.q1 ≤ i) && decide (absDiff l.q1 l.q0 ≤ i)

/-- `Hev(HEVT)` (43_lf R208). -/
def hev (t : Nat) (l : Line) : Bool := decide (t < absDiff l.p1 l.p0) || decide (t < absDiff l.q1 l.q0)

/-- `a` of CommonAdjust before the two roundings (43_lf R209). -/
def adjustBase (outer : Bool) (l : Line) : Int :=
  sat ((if outer then sat (u2s l.p1 - u2s l.q1) else 0) + 3 * (u2s l.q0 - u2s l.p0))

/-- `a` of CommonAdjust on return: `c(a + 4) >> 3` (43_lf R209). -/
def adjustA (outer : Bool) (l : Line) : Int := sat (adjustBase outer l + 4) / 8

/-- `b` of CommonAdjust: `c(a + 3) >> 3` (43_lf R209). -/
def adjustB (outer : Bool) (l : Line) : Int := sat (adjustBase outer l + 3) / 8

/-- The new P0 and Q0 of CommonAdjust, as writes in the order P0, Q0 (43_lf R209). -/
def commonAdjust (outer : Bool) (l : Line) : List (Px × Byte) :=
  [(.p0, s2u (u2s l.p0 + adjustB outer l)), (.q0, s2u (u2s l.q0 - adjustA outer l))]

/-- `Simple(E)` (43_lf R207). -/
def simpleFilter (e : Nat) (l : Line) : List (Px × Byte) := if edgeTest e l then commonAdjust true l else []

/-- `NormalSub(I, HEVT, E)` (43_lf R210). -/
def normalSub (i t e : Nat) (l : Line) : List (Px × Byte) :=
  if filterYes i e l then
    let hv := hev t l
    let a := (adjustA hv l + 1) / 2
    commonAdjust hv l ++ (if hv then [] else [(.q1, s2u (u2s l.q1 - a)), (.p1, s2u (u2s l.p1 + a))])
  else []

/-- `w` of NormalMb (43_lf R210). -/
def mbWeight (l : Line) : Int := sat (sat (u2s l.p1 - u2s l.q1) + 3 * (u2s l.q0 - u2s l.p0))

/-- `a = c((taps * w + 63) >> 7)` of NormalMb (43_lf R210). -/
def mbTap (taps : Int) (l : Line) : Int := sat ((taps * mbWeight l + 63) / 128)

/-- `NormalMb(I, HEVT, E)` (43_lf R210). -/
def normalMb (i t e : Nat) (l : Line) : List (Px × Byte) :=
  if filterYes i e l then
    if hev t l then commonAdjust true l
    else
      [(.q0, s2u (u2s l.q0 - mbTap 27 l)), (.p0, s2u (u2s l.p0 + mbTap 27 l)),
       (.q1, s2u (u2s l.q1 - mbTap 18 l)), (.p1, s2u (u2s l.p1 + mbTap 18 l)),
       (.q2, s2u (u2s l.q2 - mbTap 9 l)), (.p2, s2u (u2s l.p2 + mbTap 9 l))]
  else []

/-- The writes the filter of a kind decides on, in the order the rules list them (43_lf R206). -/
def filterWrites (lim : Limits) (kind : Kind) (l : Line) : List (Px × Byte) :=
  match kind with
  | .smb => simpleFilter lim.emb l
  | .ssub => simpleFilter lim.esub l
  | .nmb => normalMb lim.interior lim.hevt lim.emb l
  | .nsub => normalSub lim.interior lim.hevt lim.esub l

/-! ## The 1D edge operation -/

/-- The pixels a kind reads, in address order from the P side to the Q side (43_lf R205, R206). -/
def kindPixels : Kind → List Px
  | .smb => [.p1, .p0, .q0, .q1]
  | .ssub => [.p1, .p0, .q0, .q1]
  | .nmb => [.p3, .p2, .p1, .p0, .q0, .q1, .q2, .q3]
  | .nsub => [.p3, .p2, .p1, .p0, .q0, .q1, .q2, .q3]

/-- The pixels a kind may write (43_lf R217 b). -/
def kindMayWrite : Kind → List Px
  | .smb => [.p0, .q0]
  | .ssub => [.p0, .q0]
  | .nmb => [.p2, .p1, .p0, .q0, .q1, .q2]
  | .nsub => [.p1, .p0, .q0, .q1]

/-- The first failing address of the listed pixels, if one fails (43_lf R206). -/
def State.checkPixels (s : State) (op : SegOp) : List Px → Except Trap Unit
  | [] => .ok ()
  | p :: ps =>
    match s.pxAddr op.pl op.dir op.x op.y p with
    | .error t => .error t
    | .ok _ => s.checkPixels op ps

/-- The address of a pixel, for pixels whose address has been checked. -/
def State.pxPlace (s : State) (op : SegOp) (p : Px) : Nat :=
  match s.pxAddr op.pl op.dir op.x op.y p with
  | .error _ => 0
  | .ok a => a

/-- One pixel of the segment, read from PIX (43_lf R206). -/
def State.pxRead (s : State) (pix : Memory 8) (op : SegOp) (p : Px) : Byte := pix.read (s.pxPlace op p)

/-- The pixels of the segment, as they are before any write (43_lf R206); P3, P2, Q2, Q3 are used by the normal kinds only. -/
def State.lineAt (s : State) (pix : Memory 8) (op : SegOp) : Line :=
  { p3 := s.pxRead pix op .p3, p2 := s.pxRead pix op .p2, p1 := s.pxRead pix op .p1, p0 := s.pxRead pix op .p0
    q0 := s.pxRead pix op .q0, q1 := s.pxRead pix op .q1, q2 := s.pxRead pix op .q2, q3 := s.pxRead pix op .q3 }

/-- The thresholds at a state's LFLVL and LFCFG.SHARP (43_lf R203). -/
def State.limits (s : State) : Limits := Machine.limits s.lflvl.toNat s.sharp.toNat

/-- `Seg(pl, dir, kind, x, y)` on the pixel memory `pix`: all addresses first, then all reads, then the writes the filter
decided on (43_lf R206). -/
def State.seg (s : State) (op : SegOp) (pix : Memory 8) : Except Trap (Memory 8) :=
  match s.checkPixels op (kindPixels op.kind) with
  | .error t => .error t
  | .ok _ =>
    .ok (pix.writeAll ((filterWrites s.limits op.kind (s.lineAt pix op)).map fun pv => (s.pxPlace op pv.1, pv.2)))

/-- Segs in order, until one faults (43_lf R214, R215). -/
def State.segs (s : State) : List SegOp → Memory 8 → Except Trap (Memory 8)
  | [], pix => .ok pix
  | op :: ops, pix =>
    match s.seg op pix with
    | .error t => .error t
    | .ok pix' => s.segs ops pix'

/-- The bytes of PIX that exist and that a Seg may write (43_lf R217 b). -/
def State.segMayWrite (s : State) (op : SegOp) : List Nat :=
  (kindMayWrite op.kind).filterMap fun p => (s.pxAddr op.pl op.dir op.x op.y p).toOption

/-- The bytes of PIX that exist and that any of the Segs may write (43_lf R217 b, f). -/
def State.segsMayWrite (s : State) (ops : List SegOp) : List Nat := ops.flatMap s.segMayWrite

/-- The write set of LF_EDGE and LF_MB: the bytes any Seg of the command may write (60_exceptions R257; log 7). -/
def State.scramblePix (s : State) (ops : List SegOp) : State :=
  { s with
    pix := s.pix.scramble s.freeIx (s.segsMayWrite ops)
    freeIx := s.freeIx + (s.segsMayWrite ops).length }

/-- A 2D operation: its Segs in order (43_lf R214, R215). A PIX_RANGE fault leaves the write set unspecified
(60_exceptions R257). -/
def runSegs (i : Instr) (s : State) (ops : List SegOp) : Host.Outcome State Fault Refusal :=
  match s.segs ops s.pix with
  | .error t => faulted i (s.scramblePix ops) t
  | .ok pix => completed { s with pix := pix }

/-! ## The commands -/

/-- LF_SETLVL lvl (43_lf R201). -/
def execLfSetlvl (lvl : BitVec 6) (s : State) : Host.Outcome State Fault Refusal := completed { s with lflvl := lvl }

/-- The sum of the level and a delta, in the integers, then clamped to 0..63 (43_lf R202). -/
def adjustLevel (lvl : BitVec 6) (delta : BitVec 7) : BitVec 6 :=
  let sum := (lvl.toNat : Int) + delta.toInt
  BitVec.ofInt 6 (if sum < 0 then 0 else if 63 < sum then 63 else sum)

/-- LF_ADJLVL delta (43_lf R202). -/
def execLfAdjlvl (delta : BitVec 7) (s : State) : Host.Outcome State Fault Refusal :=
  completed { s with lflvl := adjustLevel s.lflvl delta }

/-- LF_SETX x (43_lf R212). -/
def execLfSetx (coord : BitVec 14) (s : State) : Host.Outcome State Fault Refusal := completed { s with lfx := coord }

/-- LF_SETY y (43_lf R213). -/
def execLfSety (coord : BitVec 14) (s : State) : Host.Outcome State Fault Refusal := completed { s with lfy := coord }

/-- The Seg of LF_SEG: the position is LFX, LFY (43_lf R211). -/
def State.segAtXY (s : State) (plane : BitVec 2) (dir : Dir) (kind : Kind) : SegOp :=
  { pl := plane.toNat, dir := dir, kind := kind, x := s.lfx.toNat, y := s.lfy.toNat }

/-- LF_SEG plane, dir, kind: one Seg; a PIX_RANGE fault leaves PIX as it was (43_lf R211; 60_exceptions R257). -/
def execLfSeg (plane : BitVec 2) (dir : Dir) (kind : Kind) (s : State) : Host.Outcome State Fault Refusal :=
  let i := Instr.lfSeg plane dir kind
  guardLegal i s
    (match s.seg (s.segAtXY plane dir kind) s.pix with
    | .error t => faulted i s t
    | .ok pix => completed { s with pix := pix })

/-- LF_EDGE plane, dir, kind, len: one edge of LENM1 + 1 positions from LFX, LFY on (43_lf R214). -/
def execLfEdge (plane : BitVec 2) (dir : Dir) (kind : Kind) (lenm1 : BitVec 4) (s : State) :
    Host.Outcome State Fault Refusal :=
  let i := Instr.lfEdge plane dir kind lenm1
  guardLegal i s (runSegs i s (edgeOps plane.toNat dir kind s.lfx.toNat s.lfy.toNat (lenm1.toNat + 1)))

/-- LF_MB mbx, mby, noinner: all edges of one macroblock, unless the frame's base level or the macroblock's level is 0
(43_lf R215, R216). -/
def execLfMb (mbx mby : BitVec 10) (noinner : Bool) (s : State) : Host.Outcome State Fault Refusal :=
  if s.baselvl = 0 ∨ s.lflvl = 0 then completed s
  else runSegs (.lfMb mbx mby noinner) s (macroblockOps s.simple mbx.toNat mby.toNat noinner)

end Sys2Proof.Machine
end

