-- ==== Sys2Proof/Machine/System.lean ====
section
/-! DEFINITION. The system command NOP (44_system R240). -/

namespace Sys2Proof.Machine

/-- NOP: nothing but CMDCNT (44_system R240). -/
def execNop (s : State) : Host.Outcome State Fault Refusal := completed s

end Sys2Proof.Machine
end

