-- ==== Sys2Proof/Machine/TD.lean ====
section
/-! DEFINITION. The token decoder unit: TdBlk and the commands TD_RST, TD_NEWROW, TD_BLK, TD_MB (41_td R161 to R179). -/

namespace Sys2Proof.Machine

/-! ## One token -/

/-- The child of a token-tree node on a bit (41_td R163). -/
def romChild (rom : Config.Rom) (k : Fin 11) (b : Bool) : Config.Child :=
  if b then rom.ctree[k].onOne else rom.ctree[k].onZero

/-- One token: the walk down CTREE from node `k`, each decision read with the node's probability (41_td R163, R170). Eleven
decisions are more than any walk makes: the default tree has depth 7 (R176; log 13). -/
def walkToken (rom : Config.Rom) (stream : Memory 8) (prob : Nat → Byte) :
    Nat → Fin 11 → Ctx → Except Trap (Config.Token × Ctx)
  | 0, _, c => .ok (.eob, c)
  | fuel + 1, k, c =>
    match readBool stream (prob k.val) c with
    | .error t => .error t
    | .ok (b, c') =>
      match romChild rom k b with
      | .leaf tok => .ok (tok, c')
      | .inner k' => walkToken rom stream prob fuel k' c'

/-- The magnitude of a token that is not EOB; the extra bits of a category are read here (41_td R166, R170). -/
def tokenMag (rom : Config.Rom) (stream : Memory 8) (tok : Config.Token) (c : Ctx) : Except Trap (Nat × Ctx) :=
  match tok with
  | .eob => .ok (0, c)
  | .dct m => .ok (m.val, c)
  | .cat j =>
    match readBits stream rom.cats[j].probs 0 c with
    | .error t => .error t
    | .ok (ex, c') => .ok (rom.cats[j].base + ex, c')

/-- The level of a token that is not EOB: 0 for DCT_0, else the magnitude with the sign bit that follows it (41_td R170). -/
def tokenLevel (rom : Config.Rom) (stream : Memory 8) (tok : Config.Token) (c : Ctx) : Except Trap (Int × Ctx) :=
  if tok = .dct 0 then .ok (0, c)
  else
    match tokenMag rom stream tok c with
    | .error t => .error t
    | .ok (mag, c1) =>
      match readBool stream 128#8 c1 with
      | .error t => .error t
      | .ok (neg, c2) => .ok (if neg then -(mag : Int) else mag, c2)

/-- The context for the token after this one: 0, 1 or 2 (41_td R172). -/
def nextCtx (tok : Config.Token) : Nat := if tok = .dct 0 then 0 else if tok = .dct 1 then 1 else 2

/-- The node the token after this one starts at: node 1 after DCT_0, else node 0 (41_td R172). -/
def nextEntry (tok : Config.Token) : Fin 11 := if tok = .dct 0 then 1 else 0

/-! ## One block -/

/-- The levels from scan position `16 - left` on, until EOB or position 16 (41_td R170). -/
def tokens (rom : Config.Rom) (stream cprob : Memory 8) (t : Nat) :
    Nat → Nat → Fin 11 → Ctx → Except Trap (List (BitVec 16) × Ctx)
  | 0, _, _, c => .ok ([], c)
  | left + 1, ctx, entry, c =>
    let b := (rom.band[Fin.ofNat 16 (15 - left)]).val
    match walkToken rom stream (fun k => cprob.read (cprobIx t b ctx k)) 11 entry c with
    | .error e => .error e
    | .ok (tok, c1) =>
      if tok = .eob then .ok ([], c1)
      else
        match tokenLevel rom stream tok c1 with
        | .error e => .error e
        | .ok (v, c2) =>
          match tokens rom stream cprob t left (nextCtx tok) (nextEntry tok) c2 with
          | .error e => .error e
          | .ok (vs, c3) => .ok (BitVec.ofInt 16 v :: vs, c3)

/-- The sixteen entries of QCOEF[blk]: 0 before the first position, the levels, 0 after them (41_td R170). -/
def blockLevels (first : Nat) (levels : List (BitVec 16)) : List (BitVec 16) :=
  List.replicate first 0 ++ levels ++ List.replicate (16 - first - levels.length) 0

/-- What the token decoder works on inside one command: BD[CUR], LNZ, ANZ[col], QCOEF, COEF. -/
structure Work where
  ctx   : Ctx
  lnz   : BitVec 9
  anz   : BitVec 9
  qcoef : Memory 16
  coef  : Memory 32
  deriving DecidableEq, Repr

/-- `TdBlk(blk, t, col)`: the tokens of one block into QCOEF[blk], the neighbour flags; answers (n, nz) (41_td R170). -/
def tdBlk (rom : Config.Rom) (stream cprob : Memory 8) (blk t : Nat) (a : Work) : Except Trap (Nat × Bool × Work) :=
  match tokens rom stream cprob t (16 - firstPos t) (firstCtx a.lnz a.anz blk) 0 a.ctx with
  | .error e => .error e
  | .ok (levels, c) =>
    let nz := decide (0 < levels.length)
    .ok (firstPos t + levels.length, nz,
      { a with
        ctx := c
        lnz := withFlag a.lnz (lBit blk) nz
        anz := withFlag a.anz (aBit blk) nz
        qcoef := a.qcoef.writeSeq (coefIx blk 0) (blockLevels (firstPos t) levels) })

/-! ## One macroblock -/

/-- TdBlk then DqBlk for each listed block, in order, with the OR of the non-zero flags (41_td R177). -/
def tdBlocks (rom : Config.Rom) (stream cprob : Memory 8) (dqf : Memory 16) (seg : Nat) :
    List (Nat × Nat) → Bool → Work → Except Trap (Bool × Work)
  | [], any, a => .ok (any, a)
  | (blk, t) :: rest, any, a =>
    match tdBlk rom stream cprob blk t a with
    | .error e => .error e
    | .ok (_, nz, a') =>
      tdBlocks rom stream cprob dqf seg rest (any || nz) { a' with coef := dqBlk rom a'.qcoef dqf blk t seg a'.coef }

/-- Block 24 of a macroblock without Y2: its levels and coefficients are 0 (41_td R177). -/
def clearY2 (a : Work) : Work :=
  { a with qcoef := a.qcoef.clear (coefIx 24 0) 16, coef := a.coef.clear (coefIx 24 0) 16 }

/-! ## State of the token decoder -/

/-- The working set of a token command at column `col`. -/
def State.work (s : State) (col : Nat) : Work :=
  { ctx := s.curCtx, lnz := s.lnz, anz := s.anz.read col, qcoef := s.qcoef, coef := s.coef }

/-- The working set back in its places. -/
def State.putWork (s : State) (col : Nat) (a : Work) : State :=
  { s.setCtx s.cur a.ctx with lnz := a.lnz, anz := s.anz.write col a.anz, qcoef := a.qcoef, coef := a.coef }

/-- The write set of TD_BLK: RESULT, BD[CUR], QCOEF[BLK], one bit of LNZ and one of ANZ[COL] (60_exceptions R257). -/
def State.scrambleTdBlk (s : State) (blk col : Nat) : State :=
  let n := s.freeIx
  { s.setCtx s.cur (s.curCtx.scramble n) with
    result := freeBits 32 (n + 4)
    lnz := withFlag s.lnz (lBit blk) (freeBits 1 (n + 5) = 1#1)
    anz := s.anz.write col (withFlag (s.anz.read col) (aBit blk) (freeBits 1 (n + 6) = 1#1))
    qcoef := s.qcoef.scramble (n + 7) (List.range' (coefIx blk 0) 16)
    freeIx := n + 23 }

/-- The write set of TD_MB: RESULT, BD[CUR], all of QCOEF and COEF, LNZ, ANZ[COL] (60_exceptions R257). -/
def State.scrambleTdMb (s : State) (col : Nat) : State :=
  let n := s.freeIx
  { s.setCtx s.cur (s.curCtx.scramble n) with
    result := freeBits 32 (n + 4)
    lnz := freeBits 9 (n + 5)
    anz := s.anz.write col (freeBits 9 (n + 6))
    qcoef := s.qcoef.scramble (n + 7) (List.range 400)
    coef := s.coef.scramble (n + 407) (List.range 400)
    freeIx := n + 807 }

/-! ## The commands -/

/-- TD_RST: LNZ and all 1024 entries of ANZ are 0 (41_td R167). -/
def execTdRst (s : State) : Host.Outcome State Fault Refusal :=
  completed { s with lnz := 0, anz := s.anz.clear 0 1024 }

/-- TD_NEWROW: LNZ is 0, ANZ stays (41_td R168). -/
def execTdNewrow (s : State) : Host.Outcome State Fault Refusal := completed { s with lnz := 0 }

/-- TD_BLK blk, type, col: the tokens of one block; RESULT is the index one past the last token's position (41_td R171). -/
def execTdBlk (blk : BitVec 5) (type : BitVec 2) (col : BitVec 10) (s : State) : Host.Outcome State Fault Refusal :=
  let i := Instr.tdBlk blk type col
  guardLegal i s
    (if s.curCtx.init then
      match tdBlk rom s.stream s.cprob blk.toNat type.toNat (s.work col.toNat) with
      | .error t => faulted i (s.scrambleTdBlk blk.toNat col.toNat) t
      | .ok (n, _, a) => completed { s.putWork col.toNat a with result := BitVec.ofNat 32 n }
    else faulted i s ⟨.bdUninit, BitVec.ofNat 32 s.cur.val⟩)

/-- TD_MB with SKIP = 1: all coefficients 0, the neighbour flags cleared, RESULT 0; no stream byte is read (41_td R177). -/
def skipMacroblock (col : Nat) (hasy2 : Bool) (s : State) : State :=
  { s with
    qcoef := s.qcoef.clear 0 400
    coef := s.coef.clear 0 400
    lnz := s.lnz &&& ~~~(skipMask hasy2)
    anz := s.anz.write col (s.anz.read col &&& ~~~(skipMask hasy2))
    result := 0 }

/-- TD_MB seg, col, hasy2, skip: one macroblock (41_td R177). -/
def execTdMb (seg : BitVec 2) (col : BitVec 10) (hasy2 skip : Bool) (s : State) : Host.Outcome State Fault Refusal :=
  let i := Instr.tdMb seg col hasy2 skip
  if skip then completed (skipMacroblock col.toNat hasy2 s)
  else if s.curCtx.init then
    let a := s.work col.toNat
    match tdBlocks rom s.stream s.cprob s.dqf seg.toNat (macroblockBlocks hasy2) false
        (if hasy2 then a else clearY2 a) with
    | .error t => faulted i (s.scrambleTdMb col.toNat) t
    | .ok (any, a') => completed { s.putWork col.toNat a' with result := BitVec.ofNat 32 any.toNat }
  else faulted i s ⟨.bdUninit, BitVec.ofNat 32 s.cur.val⟩

end Sys2Proof.Machine
end

