-- ==== Sys2Proof/Machine/Dispatch.lean ====
section
/-! DEFINITION. One arm per command: the effect of a command on the state, CMDCNT and the fault registers included (30_encoding R104). -/

namespace Sys2Proof.Machine

def exec (i : Instr) (s : State) : Host.Outcome State Fault Refusal :=
  match i with
  | .nop => Sys2Proof.Machine.execNop s
  | .bdSel ctx => Sys2Proof.Machine.execBdSel ctx s
  | .bdSeek ctx => Sys2Proof.Machine.execBdSeek ctx s
  | .bdBit => Sys2Proof.Machine.execBdBit s
  | .bdBool prob => Sys2Proof.Machine.execBdBool prob s
  | .bdLit n => Sys2Proof.Machine.execBdLit n s
  | .bdTree start => Sys2Proof.Machine.execBdTree start s
  | .tdRst => Sys2Proof.Machine.execTdRst s
  | .tdNewrow => Sys2Proof.Machine.execTdNewrow s
  | .tdBlk blk type col => Sys2Proof.Machine.execTdBlk blk type col s
  | .dqBlk blk type seg => Sys2Proof.Machine.execDqBlk blk type seg s
  | .tdMb seg col hasy2 skip => Sys2Proof.Machine.execTdMb seg col hasy2 skip s
  | .lfSetlvl lvl => Sys2Proof.Machine.execLfSetlvl lvl s
  | .lfAdjlvl delta => Sys2Proof.Machine.execLfAdjlvl delta s
  | .lfSetx coord => Sys2Proof.Machine.execLfSetx coord s
  | .lfSety coord => Sys2Proof.Machine.execLfSety coord s
  | .lfSeg plane dir kind => Sys2Proof.Machine.execLfSeg plane dir kind s
  | .lfEdge plane dir kind lenm1 => Sys2Proof.Machine.execLfEdge plane dir kind lenm1 s
  | .lfMb mbx mby noinner => Sys2Proof.Machine.execLfMb mbx mby noinner s

end Sys2Proof.Machine
end

