-- ==== Sys2Proof/Machine/Port.lean ====
section
/-! DEFINITION. The register port: the address map, host reads, and host writes to registers and internal memories (10_state R25 to R40; 44_system R241). Writes to CMD and CTRL are in Host.lean. -/

namespace Sys2Proof.Machine

/-- What a word address of the port names (10_state R25, R40). -/
inductive PortLoc where
  | id | ctrl | status | cmd | result | cmdcnt | fcmd | finfo
  | lfcfg | lflvl | lfx | lfy | ybase | ubase | vbase | ystride | uvstride | tdlnz
  | bdstart (k : Fin 9) | bdend (k : Fin 9) | bdpos (k : Fin 9) | bdstate (k : Fin 9)
  | tree (i : Nat) | tprob (i : Nat) | dqf (i : Nat) | cprob (i : Nat)
  | qcoef (i : Nat) | coef (i : Nat) | anz (i : Nat)
  | unmapped
  deriving DecidableEq, Repr

/-- The registers at 0x0000 to 0x0011, in address order (10_state R25). -/
def namedRegs : List PortLoc :=
  [.id, .ctrl, .status, .cmd, .result, .cmdcnt, .fcmd, .finfo, .lfcfg, .lflvl, .lfx, .lfy, .ybase, .ubase, .vbase,
   .ystride, .uvstride, .tdlnz]

/-- The registers of the contexts and the internal memories (10_state R25, R40). -/
def indexedLoc (a : Nat) : PortLoc :=
  if 0x20 ≤ a ∧ a < 0x32 then
    (if a % 2 = 0 then .bdstart (Fin.ofNat 9 ((a - 0x20) / 2)) else .bdend (Fin.ofNat 9 ((a - 0x20) / 2)))
  else if 0x40 ≤ a ∧ a < 0x49 then .bdpos (Fin.ofNat 9 (a - 0x40))
  else if 0x50 ≤ a ∧ a < 0x59 then .bdstate (Fin.ofNat 9 (a - 0x50))
  else if 0x100 ≤ a ∧ a < 0x140 then .tree (a - 0x100)
  else if 0x140 ≤ a ∧ a < 0x160 then .tprob (a - 0x140)
  else if 0x200 ≤ a ∧ a < 0x280 then .dqf (a - 0x200)
  else if 0x400 ≤ a ∧ a < 0x820 then .cprob (a - 0x400)
  else if 0x1000 ≤ a ∧ a < 0x1190 then .qcoef (a - 0x1000)
  else if 0x1200 ≤ a ∧ a < 0x1390 then .coef (a - 0x1200)
  else if 0x1400 ≤ a ∧ a < 0x1800 then .anz (a - 0x1400)
  else .unmapped

/-- The address map of the port (10_state R25, R40). -/
def portLoc (addr : BitVec 13) : PortLoc :=
  match namedRegs[addr.toNat]? with
  | some loc => loc
  | none => indexedLoc addr.toNat

/-- The word address of CMD (10_state R29). -/
def cmdAddr : BitVec 13 := 0x0003#13

/-- The word address of CTRL (10_state R27). -/
def ctrlAddr : BitVec 13 := 0x0001#13

/-- What a read of a location returns: zero-extended, sign-extended for signed entries, 0 for write-only and unmapped ones
(10_state R26, R40). -/
def State.readLoc (s : State) : PortLoc → Word
  | .id => Config.idValue
  | .ctrl => 0
  | .status => s.status
  | .cmd => 0
  | .result => s.result
  | .cmdcnt => s.cmdcnt
  | .fcmd => s.fcmd
  | .finfo => s.finfo
  | .lfcfg => s.lfcfg.setWidth 32
  | .lflvl => s.lflvl.setWidth 32
  | .lfx => s.lfx.setWidth 32
  | .lfy => s.lfy.setWidth 32
  | .ybase => s.ybase
  | .ubase => s.ubase
  | .vbase => s.vbase
  | .ystride => s.ystride.setWidth 32
  | .uvstride => s.uvstride.setWidth 32
  | .tdlnz => s.lnz.setWidth 32
  | .bdstart k => (s.ctx k).startAddr
  | .bdend k => (s.ctx k).endAddr
  | .bdpos k => (s.ctx k).pos
  | .bdstate k => (s.ctx k).stateWord
  | .tree i => (s.tree.read i).signExtend 32
  | .tprob i => (s.tprob.read i).setWidth 32
  | .dqf i => (s.dqf.read i).setWidth 32
  | .cprob i => (s.cprob.read i).setWidth 32
  | .qcoef i => (s.qcoef.read i).signExtend 32
  | .coef i => s.coef.read i
  | .anz i => (s.anz.read i).setWidth 32
  | .unmapped => 0

/-- `HostRead(addr)` (44_system R241): no side effect (10_state R26). -/
def State.hostRead (s : State) (addr : BitVec 13) : Word := s.readLoc (portLoc addr)

/-- A host write to a register or memory entry that has no side effect beyond storing, but for BDSTART and BDEND, which clear
INIT: the low bits stored, writes to read-only and unmapped locations ignored (10_state R26, R37, R40). -/
def State.storeLoc (s : State) (data : Word) : PortLoc → State
  | .id => s
  | .ctrl => s
  | .status => s
  | .cmd => s
  | .result => s
  | .cmdcnt => s
  | .fcmd => s
  | .finfo => s
  | .lfcfg => { s with lfcfg := data.setWidth 10 }
  | .lflvl => { s with lflvl := data.setWidth 6 }
  | .lfx => { s with lfx := data.setWidth 14 }
  | .lfy => { s with lfy := data.setWidth 14 }
  | .ybase => { s with ybase := data }
  | .ubase => { s with ubase := data }
  | .vbase => { s with vbase := data }
  | .ystride => { s with ystride := data.setWidth 16 }
  | .uvstride => { s with uvstride := data.setWidth 16 }
  | .tdlnz => { s with lnz := data.setWidth 9 }
  | .bdstart k => s.setCtx k { s.ctx k with startAddr := data, init := false }
  | .bdend k => s.setCtx k { s.ctx k with endAddr := data, init := false }
  | .bdpos _ => s
  | .bdstate _ => s
  | .tree i => { s with tree := s.tree.write i (data.setWidth 8) }
  | .tprob i => { s with tprob := s.tprob.write i (data.setWidth 8) }
  | .dqf i => { s with dqf := s.dqf.write i (data.setWidth 16) }
  | .cprob i => { s with cprob := s.cprob.write i (data.setWidth 8) }
  | .qcoef i => { s with qcoef := s.qcoef.write i (data.setWidth 16) }
  | .coef i => { s with coef := s.coef.write i data }
  | .anz i => { s with anz := s.anz.write i (data.setWidth 9) }
  | .unmapped => s

end Sys2Proof.Machine
end

