-- ==== Sys2Proof/Machine/Host.lean ====
section
/-! DEFINITION. The events of the outside world: host writes with their effect (a write to CMD executes a command), the resets, and the platform's accesses to STREAM and PIX (44_system R241; 10_state R26 to R29; 20_memory R84). -/

namespace Sys2Proof.Machine

/-- A command word written to CMD while no fault is recorded: decoded, then executed; a word that does not decode raises its
fault before anything changes (30_encoding R104). -/
def runCommand (w : Word) (s : State) : Host.Outcome State Fault Refusal :=
  match decode w with
  | .error e => .next (s.raise w (decodeTrap e))
  | .ok i => exec i s

/-- `HostWrite(addr, data)` (44_system R241): CTRL bit 0 is the soft reset, obeyed in the fault state too; every other write is
ignored in the fault state; CMD executes a command (10_state R26, R27, R29; 60_exceptions R259). -/
def hostWrite (addr : BitVec 13) (data : Word) (s : State) : Host.Outcome State Fault Refusal :=
  if addr = ctrlAddr then .next (if data.getLsbD 0 then s.softReset else s)
  else if s.fault then .next s
  else if addr = cmdAddr then runCommand data s
  else .next (s.storeLoc data (portLoc addr))

/-! ## The reset input during a command (70_reset R282) -/

/-- A command abandoned in the middle: the entries of the internal memories and the PIX bytes of its write set hold free values, all
other memory is kept (70_reset R282; the table of 60_exceptions R257, and for TD_RST, DQ_BLK and LF_SEG R282 itself). The registers
are left to the reset that follows. -/
def State.abandon (i : Instr) (s : State) : State :=
  match i with
  | .nop => s
  | .bdSel _ => s
  | .bdSeek _ => s
  | .bdBit => s
  | .bdBool _ => s
  | .bdLit _ => s
  | .bdTree _ => s
  | .tdRst => { s with anz := s.anz.scramble s.freeIx (List.range 1024), freeIx := s.freeIx + 1024 }
  | .tdNewrow => s
  | .tdBlk blk _ col => s.scrambleTdBlk blk.toNat col.toNat
  | .dqBlk blk _ _ =>
    { s with coef := s.coef.scramble s.freeIx (List.range' (coefIx blk.toNat 0) 16), freeIx := s.freeIx + 16 }
  | .tdMb _ col _ _ => s.scrambleTdMb col.toNat
  | .lfSetlvl _ => s
  | .lfAdjlvl _ => s
  | .lfSetx _ => s
  | .lfSety _ => s
  | .lfSeg plane dir kind => s.scramblePix [s.segAtXY plane dir kind]
  | .lfEdge plane dir kind lenm1 =>
    s.scramblePix (edgeOps plane.toNat dir kind s.lfx.toNat s.lfy.toNat (lenm1.toNat + 1))
  | .lfMb mbx mby noinner =>
    if s.baselvl = 0 ∨ s.lflvl = 0 then s
    else s.scramblePix (macroblockOps s.simple mbx.toNat mby.toNat noinner)

/-- The reset input during the command that a write of `w` to CMD gives (70_reset R282). A word that does not decode has changed no
memory (30_encoding R104; 60_exceptions R257 b), so all memory is kept. In the fault state the word is discarded, no command is
interrupted, and it is the reset between two commands (70_reset R280; 60_exceptions R259; log 11). -/
def State.resetDuring (w : Word) (s : State) : State :=
  if s.fault then s.powerOn
  else
    match decode w with
    | .error _ => s.resetRegs
    | .ok i => (s.abandon i).resetRegs

/-- One event taken whole (44_system R241). The platform's accesses to a byte that does not exist stop the machine
(log 10). -/
def handle (e : HostEvent) (s : State) : Host.Outcome State Fault Refusal :=
  match e with
  | .read addr => .next { s with rdata := s.hostRead addr }
  | .write addr data => hostWrite addr data s
  | .powerOn => .next s.powerOn
  | .resetDuring data => .next (s.resetDuring data)
  | .streamRead addr =>
    if addr < s.params.streamSize then .next { s with rdata := (s.stream.read addr).setWidth 32 } else .fault .noStreamByte
  | .streamWrite addr data =>
    if addr < s.params.streamSize then .next { s with stream := s.stream.write addr data } else .fault .noStreamByte
  | .pixRead addr =>
    if addr < s.params.pixSize then .next { s with rdata := (s.pix.read addr).setWidth 32 } else .fault .noPixByte
  | .pixWrite addr data =>
    if addr < s.params.pixSize then .next { s with pix := s.pix.write addr data } else .fault .noPixByte

end Sys2Proof.Machine
end

