-- ==== Sys2Proof/Machine/Step.lean ====
section
/-! DEFINITION. One step: the oldest pending host event, taken whole; with none pending the block idles (44_system R241; 60_exceptions R275). -/

namespace Sys2Proof.Machine

/-- One step of the machine. The block starts nothing by itself: with no event pending it keeps its state
(60_exceptions R275). -/
def step (s : State) : Host.Outcome State Fault Refusal :=
  match s.inbox with
  | [] => .next s
  | e :: rest => handle e { s with inbox := rest }

/-- The state whose very next step takes the host write of the word `w` to CMD (log 18): a command is fetched from nowhere, it
arrives at the CMD register (10_state R23, R29). Bits above `nbits` are 0. -/
def State.withFetchWord (s : State) (nbits w : Nat) : State :=
  { s with inbox := .write cmdAddr (BitVec.ofNat 32 (w % 2 ^ nbits)) :: s.inbox }

end Sys2Proof.Machine
end

