-- ==== Sys2Proof/Safety.lean ====
section
/-! DEFINITION. What a good state is, in the terms the claims use: the invariant of a context (10_state R39), canonical memories, a consistent fault record (60_exceptions R251), and a run without a fault. -/

namespace Sys2Proof.Machine

/-- The invariant of a context with INIT = 1 (10_state R39), with the bound on END that BD_SEEK checked (20_memory R80) and the
zeros that BITCNT shifts have brought into VALUE (40_bd R133). -/
abbrev Ctx.ok (streamSize : Nat) (c : Ctx) : Prop :=
  c.init = true →
    c.startAddr.toNat + 2 ≤ c.pos.toNat ∧ c.pos.toNat ≤ c.endAddr.toNat ∧ c.endAddr.toNat ≤ streamSize ∧
      128 ≤ c.range.toNat ∧ c.value.toNat % 2 ^ c.bitcnt.toNat = 0

/-- Every memory is in its canonical form, with entries inside the memory only (10_state R40, R48). -/
structure State.MemOk (s : State) : Prop where
  tree   : Memory.wf 64 s.tree
  tprob  : Memory.wf 32 s.tprob
  dqf    : Memory.wf 128 s.dqf
  cprob  : Memory.wf 1056 s.cprob
  qcoef  : Memory.wf 400 s.qcoef
  coef   : Memory.wf 400 s.coef
  anz    : Memory.wf 1024 s.anz
  stream : Memory.wf s.params.streamSize s.stream
  pix    : Memory.wf s.params.pixSize s.pix

/-- The sizes are among those the spec allows (00_scope R7). -/
abbrev State.paramsOk (s : State) : Prop := s.params.streamSize ≤ 2 ^ 32 ∧ s.params.pixSize ≤ 2 ^ 32

/-- With no fault recorded the fault fields are 0; with one recorded, FCODE is the code of a fault of R250 and FCLASS its class
(10_state R28; 60_exceptions R251). -/
abbrev State.faultOk (s : State) : Prop :=
  (s.fault = false → s.fcode = 0 ∧ s.fclass = 0 ∧ s.fcmd = 0 ∧ s.finfo = 0) ∧
    (s.fault = true → ∃ f : FaultName, s.fcode = f.code ∧ s.fclass = f.cls)

/-- With no fault recorded every context meets its invariant (10_state R39, which speaks of completed commands). -/
abbrev State.ctxsOk (s : State) : Prop := s.fault = false → ∀ k : Fin 9, (s.ctx k).ok s.params.streamSize

/-- The invariant of the machine. -/
structure State.Inv (s : State) : Prop where
  mem    : s.MemOk
  params : s.paramsOk
  fault  : s.faultOk
  ctxs   : s.ctxsOk

/-- A sequence of commands, each from the state the one before it left; it stops at a fault recorded in STATUS, as the block
does (60_exceptions R259). -/
def execSeq : List Instr → State → Host.Outcome State Fault Refusal
  | [], s => .next s
  | i :: is, s =>
    if s.fault then .next s
    else
      match exec i s with
      | .next t => execSeq is t
      | .fault r => .fault r
      | .refused r => .refused r

end Sys2Proof.Machine
end

