-- ==== Sys2Proof/Certificates/Slice0/Obligations.lean ====
section
/-! DEFINITION. The statements for the provers, from the numbered rules of the spec. The helpers under `Sys2Proof.Spec` are written from the spec's text, not from the machine. -/

namespace Sys2Proof.Spec

open Sys2Proof.Machine

/-- A row of the opcode table (30_encoding R102, R105; opcode_table.json): the command, `match`, `mask`, and the legal range of
its lowest field as (bits of the field, greatest value). -/
structure Row where
  op    : Opcode
  mtch  : Word
  mask  : Word
  limit : Option (Nat × Nat)

/-- The nineteen rows, in the table's order. -/
def rows : List Row :=
  [⟨.nop, 0x00000000, 0xFFFFFFFF, none⟩,
   ⟨.bdSel, 0x01000000, 0xFFFFFFF0, some (4, 8)⟩,
   ⟨.bdSeek, 0x02000000, 0xFFFFFFF0, some (4, 8)⟩,
   ⟨.bdBit, 0x03000000, 0xFFFFFFFF, none⟩,
   ⟨.bdBool, 0x04000000, 0xFFFFFF00, none⟩,
   ⟨.bdLit, 0x05000000, 0xFFFFFFE0, none⟩,
   ⟨.bdTree, 0x06000000, 0xFFFFFFC0, none⟩,
   ⟨.tdRst, 0x10000000, 0xFFFFFFFF, none⟩,
   ⟨.tdNewrow, 0x11000000, 0xFFFFFFFF, none⟩,
   ⟨.tdBlk, 0x12000000, 0xFFF00380, some (5, 24)⟩,
   ⟨.dqBlk, 0x13000000, 0xFFFFFE00, some (5, 24)⟩,
   ⟨.tdMb, 0x14000000, 0xFFC0027F, none⟩,
   ⟨.lfSetlvl, 0x20000000, 0xFFFFFFC0, none⟩,
   ⟨.lfAdjlvl, 0x21000000, 0xFFFFFF80, none⟩,
   ⟨.lfSetx, 0x22000000, 0xFFFFC000, none⟩,
   ⟨.lfSety, 0x23000000, 0xFFFFC000, none⟩,
   ⟨.lfSeg, 0x24000000, 0xFFFFFFE0, some (2, 2)⟩,
   ⟨.lfEdge, 0x25000000, 0xFFFFF0E0, some (2, 2)⟩,
   ⟨.lfMb, 0x26000000, 0xFFE00000, none⟩]

/-- The operand of a word is inside the row's legal range. -/
def Row.legal (r : Row) (w : Word) : Bool :=
  match r.limit with
  | none => true
  | some (n, m) => decide (w.toNat % 2 ^ n ≤ m)

/-- A state with every register of the port map at its reset value, the contexts included (10_state R51). -/
def regsCleared (s : State) : State :=
  { s with
    result := 0, cur := 0, cmdcnt := 0, fault := false, fclass := 0, fcode := 0, fcmd := 0, finfo := 0
    lfcfg := 0, lflvl := 0, lfx := 0, lfy := 0, ybase := 0, ubase := 0, vbase := 0, ystride := 0, uvstride := 0, lnz := 0
    bd := Vector.replicate 9
      { startAddr := 0, endAddr := 0, pos := 0, value := 0, range := 0, bitcnt := 0, init := false } }

/-- The fault fields after a fault of the given code and class (60_exceptions R257). -/
def faultFields (s : State) (code : BitVec 4) (cls : BitVec 2) (w info : Word) : State :=
  { s with fault := true, fcode := code, fclass := cls, fcmd := w, finfo := info }

/-- The readable-and-writable locations of the port: width and whether a read sign-extends (10_state R25, R40). -/
def writable (a : Nat) : Option (Nat × Bool) :=
  if a = 0x08 then some (10, false)
  else if a = 0x09 then some (6, false)
  else if a = 0x0A ∨ a = 0x0B then some (14, false)
  else if a = 0x0C ∨ a = 0x0D ∨ a = 0x0E then some (32, false)
  else if a = 0x0F ∨ a = 0x10 then some (16, false)
  else if a = 0x11 then some (9, false)
  else if 0x20 ≤ a ∧ a ≤ 0x31 then some (32, false)
  else if 0x100 ≤ a ∧ a ≤ 0x13F then some (8, true)
  else if 0x140 ≤ a ∧ a ≤ 0x15F then some (8, false)
  else if 0x200 ≤ a ∧ a ≤ 0x27F then some (16, false)
  else if 0x400 ≤ a ∧ a ≤ 0x81F then some (8, false)
  else if 0x1000 ≤ a ∧ a ≤ 0x118F then some (16, true)
  else if 0x1200 ≤ a ∧ a ≤ 0x138F then some (32, true)
  else if 0x1400 ≤ a ∧ a ≤ 0x17FF then some (9, false)
  else none

/-- The low `width` bits of the data, zero- or sign-extended to 32 bits (10_state R26, R40). -/
def narrowed (width : Nat) (signed : Bool) (data : Word) : Word :=
  if signed then BitVec.ofInt 32 (Int.bmod data.toNat (2 ^ width)) else BitVec.ofNat 32 (data.toNat % 2 ^ width)

/-- The context a command works on (40_bd R142): CTX of BD_SEEK, CUR for the reading commands, none for the others. -/
def touched (i : Instr) (s : State) : Option (Fin 9) :=
  match i with
  | .bdSeek ctx => some (Fin.ofNat 9 ctx.toNat)
  | .bdBit => some s.cur
  | .bdBool _ => some s.cur
  | .bdLit _ => some s.cur
  | .bdTree _ => some s.cur
  | .tdBlk _ _ _ => some s.cur
  | .tdMb _ _ _ _ => some s.cur
  | _ => none

/-- The fault codes a command can raise (60_exceptions R250, R255), the decode faults left out. -/
def faultsOf (i : Instr) : List (BitVec 4) :=
  match i with
  | .bdSeek _ => [4, 5]
  | .bdBit => [3, 5]
  | .bdBool _ => [3, 5]
  | .bdLit _ => [3, 5]
  | .bdTree _ => [3, 5, 6]
  | .tdBlk _ _ _ => [3, 5]
  | .tdMb _ _ _ skip => if skip then [] else [3, 5]
  | .lfSeg _ _ _ => [7]
  | .lfEdge _ _ _ _ => [7]
  | .lfMb _ _ _ => [7]
  | _ => []

/-- The bit of ANZ[col] of a block (10_state R47). -/
def anzBit (blk : Nat) : Nat :=
  if blk ≤ 15 then blk % 4
  else if blk ≤ 19 then 4 + (blk - 16) % 2
  else if blk ≤ 23 then 6 + (blk - 20) % 2
  else 8

/-- The entries of QCOEF in a command's write set (60_exceptions R257; 70_reset R282). -/
def inQcoefSet (i : Instr) (a : Nat) : Prop :=
  match i with
  | .tdBlk blk _ _ => blk.toNat * 16 ≤ a ∧ a < blk.toNat * 16 + 16
  | .tdMb _ _ _ _ => True
  | _ => False

/-- The entries of COEF in a command's write set (60_exceptions R257; 70_reset R282). -/
def inCoefSet (i : Instr) (a : Nat) : Prop :=
  match i with
  | .dqBlk blk _ _ => blk.toNat * 16 ≤ a ∧ a < blk.toNat * 16 + 16
  | .tdMb _ _ _ _ => True
  | _ => False

/-- The bits of ANZ in a command's write set (60_exceptions R257; 70_reset R282; the bit a(BLK): 10_state R47). -/
def inAnzSet (i : Instr) (x j : Nat) : Prop :=
  match i with
  | .tdRst => True
  | .tdBlk blk _ col =>
    x = col.toNat ∧ j = anzBit blk.toNat
  | .tdMb _ col _ _ => x = col.toNat
  | _ => False

/-- The bytes of PIX in a command's write set, computed by the address the machine gives each pixel a Seg may write (43_lf R217 b;
60_exceptions R257; 70_reset R282). -/
def pixSet (i : Instr) (s : State) : List Nat :=
  match i with
  | .lfSeg plane dir kind => s.segMayWrite (s.segAtXY plane dir kind)
  | .lfEdge plane dir kind lenm1 =>
    s.segsMayWrite (edgeOps plane.toNat dir kind s.lfx.toNat s.lfy.toNat (lenm1.toNat + 1))
  | .lfMb mbx mby noinner =>
    if s.lfcfg.toNat / 16 = 0 ∨ s.lflvl = 0 then []
    else s.segsMayWrite (macroblockOps s.simple mbx.toNat mby.toNat noinner)
  | _ => []

/-- ZIGZAG (41_td R164). -/
def zigzag : List Nat := [0, 1, 4, 8, 5, 2, 3, 6, 9, 12, 13, 10, 7, 11, 14, 15]

/-- BAND (41_td R165). -/
def band : List Nat := [0, 1, 2, 3, 6, 4, 5, 6, 6, 6, 6, 6, 6, 6, 6, 7]

/-- The bit of LNZ of a block (10_state R47). -/
def lnzBit (blk : Nat) : Nat :=
  if blk ≤ 15 then blk / 4
  else if blk ≤ 19 then 4 + (blk - 16) / 2
  else if blk ≤ 23 then 6 + (blk - 20) / 2
  else 8

/-- The commands TD_MB is built from, after the host has cleared block 24 of a macroblock without Y2 (41_td R178). -/
def macroblockCommands (seg : BitVec 2) (col : BitVec 10) (hasy2 : Bool) : List Instr :=
  (if hasy2 then [Instr.tdBlk 24 1 col, Instr.dqBlk 24 1 seg] else [])
    ++ (List.range 16).flatMap (fun b =>
      [Instr.tdBlk (BitVec.ofNat 5 b) (if hasy2 then 0 else 3) col,
       Instr.dqBlk (BitVec.ofNat 5 b) (if hasy2 then 0 else 3) seg])
    ++ (List.range 8).flatMap (fun b =>
      [Instr.tdBlk (BitVec.ofNat 5 (16 + b)) 2 col, Instr.dqBlk (BitVec.ofNat 5 (16 + b)) 2 seg])

/-- One bit with probability `p`, read as a host would read it: by the command BD_BOOL. -/
def bitOf (p : Byte) (s : State) : Option (Nat × State) :=
  match exec (.bdBool p) s with
  | .next t => if t.fault then none else some (t.result.toNat, t)
  | .fault _ => none
  | .refused _ => none

/-- Bits with the listed probabilities, `ex = (ex << 1) | bit` (41_td R170). -/
def bitsOf : List Byte → Nat → State → Option (Nat × State)
  | [], ex, s => some (ex, s)
  | p :: ps, ex, s => (bitOf p s).bind fun r => bitsOf ps (ex * 2 + r.1) r.2

/-- CTREE as rows (on 0, on 1): an inner node by its number, a leaf as 100 plus its token number (41_td R163). -/
def ctree : List (Nat × Nat) :=
  [(111, 1), (100, 2), (101, 3), (4, 6), (102, 5), (103, 104), (7, 8), (105, 106), (9, 10), (107, 108), (109, 110)]

/-- The walk from a node to a token; no walk is longer than 7 decisions (41_td R170, R176). -/
def tokenOf (prob : Nat → Byte) : Nat → Nat → State → Option (Nat × State)
  | 0, _, _ => none
  | fuel + 1, k, s =>
    (bitOf (prob k) s).bind fun r =>
      let row := ctree.getD k (0, 0)
      let child := if r.1 = 0 then row.1 else row.2
      if 100 ≤ child then some (child - 100, r.2) else tokenOf prob fuel child r.2

/-- PCAT of the tokens CAT1 to CAT6 (41_td R166). -/
def pcat : List (List Byte) :=
  [[159], [165, 145], [173, 148, 140], [176, 155, 140, 135], [180, 157, 141, 134, 130],
   [254, 254, 243, 230, 196, 177, 153, 140, 133, 130, 129]]

/-- CATBASE of the tokens CAT1 to CAT6 (41_td R166). -/
def catbase : List Nat := [5, 7, 11, 19, 35, 67]

/-- The level of a token that is not EOB (41_td R170). -/
def levelOf (tok : Nat) (s : State) : Option (Int × State) :=
  if tok = 0 then some (0, s)
  else
    (if tok ≤ 4 then some (tok, s)
      else (bitsOf (pcat.getD (tok - 5) []) 0 s).map fun r => (catbase.getD (tok - 5) 0 + r.1, r.2)).bind fun m =>
      (bitOf 128 m.2).map fun r => (if r.1 = 1 then -(m.1 : Int) else m.1, r.2)

/-- The levels of a block of type `t` from position 16 - `left` on, with the context `c` and the entry node of the next token
(41_td R170, R172). -/
def levelsOf (t : Nat) : Nat → Nat → Nat → State → Option (List Int × State)
  | 0, _, _, s => some ([], s)
  | left + 1, c, node, s =>
    (tokenOf (fun k => s.cprob.read (((t * 8 + band.getD (15 - left) 0) * 3 + c) * 11 + k)) 7 node s).bind fun r =>
      if r.1 = 11 then some ([], r.2)
      else
        (levelOf r.1 r.2).bind fun v =>
          (levelsOf t left (if r.1 = 0 then 0 else if r.1 = 1 then 1 else 2) (if r.1 = 0 then 1 else 0) v.2).map
            fun vs => (v.1 :: vs.1, vs.2)

/-- Some TD_BLK of a sequence of commands leaves a RESULT above the first position of its type: it decoded a token other than
EOB (41_td R171, R173). -/
def tokenSeen : List Instr → State → Bool
  | [], _ => false
  | i :: is, s =>
    match exec i s with
    | .next t =>
      (match i with
        | .tdBlk _ type _ => decide ((if type = 0 then 1 else 0) < t.result.toNat)
        | _ => false) || tokenSeen is t
    | .fault _ => false
    | .refused _ => false

/-- How many reads a tree walk completes before it ends in a leaf, in TREE_RANGE or in BD_OVERRUN; none where `fuel` passes do
not bring it to its end (40_bd R137, R139). -/
def walkReads (stream tree tprob : Memory 8) : Nat → Nat → Ctx → Option Nat
  | 0, _, _ => none
  | fuel + 1, i, c =>
    if 62 < i then some 0
    else
      match readBool stream (tprob.read (i / 2)) c with
      | .error _ => some 0
      | .ok (b, c') =>
        let e := (tree.read (i + b.toNat)).toInt
        if e < 0 then some 1 else (walkReads stream tree tprob fuel e.toNat c').map (· + 1)

/-- `n` BD_BIT commands in a row, their results gathered most significant bit first (40_bd R135). -/
def bitsRead : Nat → Nat → State → Option (Nat × State)
  | 0, acc, s => some (acc, s)
  | n + 1, acc, s =>
    match exec .bdBit s with
    | .next t => if t.fault then none else bitsRead n (acc * 2 + t.result.toNat) t
    | .fault _ => none
    | .refused _ => none

/-- `clamp(x, lo, hi)` (00_scope R8). -/
def clamp (x lo hi : Int) : Int := max lo (min hi x)

/-- The byte address of pixel (x, y) of a plane, as a number, before any check (20_memory R81). -/
def pixelAddr (s : State) (pl : Nat) (x y : Int) : Int :=
  match pl with
  | 0 => s.ybase.toNat + y * s.ystride.toNat + x
  | 1 => s.ubase.toNat + y * s.uvstride.toNat + x
  | _ => s.vbase.toNat + y * s.uvstride.toNat + x

/-- The byte address of the pixel at place `k` of the segment whose Q0 is (x, y): P_j at -1 - j, Q_j at j (43_lf R205,
R206). -/
def placeAddr (s : State) (pl : Nat) (dir : Dir) (x y k : Int) : Int :=
  match dir with
  | .v => pixelAddr s pl (x + k) y
  | .h => pixelAddr s pl x (y + k)

/-- How far a kind reaches to each side of the edge (43_lf R206). -/
def reach : Kind → Int
  | .smb => 2
  | .ssub => 2
  | .nmb => 4
  | .nsub => 4

/-- How far a kind may write to each side of the edge (43_lf R217 b). -/
def writeReach : Kind → Int
  | .smb => 1
  | .ssub => 1
  | .nmb => 3
  | .nsub => 2

/-- The coordinate across the edge (43_lf R205). -/
def across (dir : Dir) (x y : Int) : Int :=
  match dir with
  | .v => x
  | .h => y

/-- Every pixel a kind reads at (x, y) exists (20_memory R81). -/
def segInRange (s : State) (pl : Nat) (dir : Dir) (kind : Kind) (x y : Int) : Prop :=
  reach kind ≤ across dir x y ∧
    ∀ k : Int, -reach kind ≤ k → k < reach kind → placeAddr s pl dir x y k < s.params.pixSize

/-- A Seg at (x, y) with both coordinates at least 0 fails, with the FINFO `info`: 0xFFFFFFFF where it reaches below 0 across the
edge, else the first address in order from the P side that does not exist, modulo 2^32 (20_memory R81; 43_lf R206). -/
def segFails (s : State) (pl : Nat) (dir : Dir) (kind : Kind) (x y : Int) (info : Word) : Prop :=
  (across dir x y < reach kind ∧ info = 0xFFFFFFFF#32) ∨
    (reach kind ≤ across dir x y ∧
      ∃ k : Int, -reach kind ≤ k ∧ k < reach kind ∧
        (∀ j : Int, -reach kind ≤ j → j < k → placeAddr s pl dir x y j < s.params.pixSize) ∧
        s.params.pixSize ≤ placeAddr s pl dir x y k ∧ info = BitVec.ofInt 32 (placeAddr s pl dir x y k))

/-- One Seg of a 2D operation: the plane, the direction, the kind and the position of Q0 (43_lf R206). -/
structure SegAt where
  pl   : Nat
  dir  : Dir
  kind : Kind
  x    : Nat
  y    : Nat
  deriving DecidableEq, Repr

/-- The Seg's pixels all exist. -/
def SegAt.inRange (g : SegAt) (s : State) : Prop := segInRange s g.pl g.dir g.kind g.x g.y

/-- The Seg fails with this FINFO. -/
def SegAt.fails (g : SegAt) (s : State) (info : Word) : Prop := segFails s g.pl g.dir g.kind g.x g.y info

/-- The Segs of an edge of `len` positions: down a vertical edge, to the right along a horizontal one (43_lf R214). -/
def edgeSegs (pl : Nat) (dir : Dir) (kind : Kind) (x y len : Nat) : List SegAt :=
  (List.range len).map fun k =>
    match dir with
    | .v => ⟨pl, .v, kind, x, y + k⟩
    | .h => ⟨pl, .h, kind, x + k, y⟩

/-- The new value of the pixel at place `k` of a segment, from the values `px` before the Seg, with the limits I, HEVT, E of
the command (43_lf R204, R207 to R210). -/
def filtered (kind : Kind) (lim hevt e : Int) (px : Int → Int) (k : Int) : Int :=
  let c (v : Int) : Int := clamp v (-128) 127
  let edge : Prop := |px (-1) - px 0| * 2 + |px (-2) - px 1| / 2 ≤ e
  let flat : Prop :=
    |px (-4) - px (-3)| ≤ lim ∧ |px (-3) - px (-2)| ≤ lim ∧ |px (-2) - px (-1)| ≤ lim ∧
      |px 3 - px 2| ≤ lim ∧ |px 2 - px 1| ≤ lim ∧ |px 1 - px 0| ≤ lim
  let hv : Prop := hevt < |px (-2) - px (-1)| ∨ hevt < |px 1 - px 0|
  let s2u (v : Int) : Int := c v + 128
  let u (j : Int) : Int := px j - 128
  let base (outer : Prop) [Decidable outer] : Int :=
    c ((if outer then c (u (-2) - u 1) else 0) + 3 * (u 0 - u (-1)))
  let a (outer : Prop) [Decidable outer] : Int := c (base outer + 4) / 8
  let b (outer : Prop) [Decidable outer] : Int := c (base outer + 3) / 8
  let common (outer : Prop) [Decidable outer] : Int :=
    if k = -1 then s2u (u (-1) + b outer) else if k = 0 then s2u (u 0 - a outer) else px k
  let w : Int := c (c (u (-2) - u 1) + 3 * (u 0 - u (-1)))
  let tap (n : Int) : Int := c ((n * w + 63) / 128)
  match kind with
  | .smb => if edge then common True else px k
  | .ssub => if edge then common True else px k
  | .nsub =>
    if edge ∧ flat then
      if hv then common True
      else if k = 1 then s2u (u 1 - (a False + 1) / 2)
      else if k = -2 then s2u (u (-2) + (a False + 1) / 2)
      else common False
    else px k
  | .nmb =>
    if edge ∧ flat then
      if hv then common True
      else if k = 0 then s2u (u 0 - tap 27)
      else if k = -1 then s2u (u (-1) + tap 27)
      else if k = 1 then s2u (u 1 - tap 18)
      else if k = -2 then s2u (u (-2) + tap 18)
      else if k = 2 then s2u (u 2 - tap 9)
      else if k = -3 then s2u (u (-3) + tap 9)
      else px k
    else px k

/-- The limit I (43_lf R203). -/
def interior (lvl sharp : Int) : Int :=
  let i := if sharp = 0 then lvl
    else if sharp > 4 then min (lvl / 4) (9 - sharp) else min (lvl / 2) (9 - sharp)
  if i = 0 then 1 else i

/-- The threshold HEVT (43_lf R203). -/
def hevThreshold (lvl : Int) : Int := if lvl ≥ 40 then 2 else if lvl ≥ 15 then 1 else 0

/-- The edge limit of a kind: EMB or ESUB (43_lf R203, R205). -/
def edgeLimit (kind : Kind) (lvl sharp : Int) : Int :=
  match kind with
  | .smb => (lvl + 2) * 2 + interior lvl sharp
  | .nmb => (lvl + 2) * 2 + interior lvl sharp
  | .ssub => lvl * 2 + interior lvl sharp
  | .nsub => lvl * 2 + interior lvl sharp

/-- The edges of a macroblock in one plane, in order, each as (direction, kind, x, y) (43_lf R215). -/
def planeEdges (size : Nat) (km ks : Kind) (mbx mby : Nat) (noinner : Bool) : List (Dir × Kind × Nat × Nat) :=
  let x := size * mbx
  let y := size * mby
  let inner : List Nat := if noinner then [] else if size = 16 then [4, 8, 12] else [4]
  (if mbx = 0 then [] else [(.v, km, x, y)])
    ++ inner.map (fun e => (.v, ks, x + e, y))
    ++ (if mby = 0 then [] else [(.h, km, x, y)])
    ++ inner.map (fun e => (.h, ks, x, y + e))

/-- The commands for a plane's edges: the position, then LF_EDGE with `size` positions (43_lf R212 to R214). -/
def edgeCommands (plane : BitVec 2) (size : Nat) (edges : List (Dir × Kind × Nat × Nat)) : List Instr :=
  edges.flatMap fun e =>
    [Instr.lfSetx (BitVec.ofNat 14 e.2.2.1), Instr.lfSety (BitVec.ofNat 14 e.2.2.2),
     Instr.lfEdge plane e.1 e.2.1 (BitVec.ofNat 4 (size - 1))]

/-- The commands LF_MB is built from: luma only for the simple filter, the three planes for the normal one (43_lf R215). -/
def macroblockEdges (simple : Bool) (mbx mby : Nat) (noinner : Bool) : List Instr :=
  if simple then edgeCommands 0 16 (planeEdges 16 .smb .ssub mbx mby noinner)
  else
    edgeCommands 0 16 (planeEdges 16 .nmb .nsub mbx mby noinner)
      ++ edgeCommands 1 8 (planeEdges 8 .nmb .nsub mbx mby noinner)
      ++ edgeCommands 2 8 (planeEdges 8 .nmb .nsub mbx mby noinner)

/-- What one Seg over pixels that exist makes of PIX: every pixel of the segment takes the value of the filter of its kind, and every
byte it may not write stays (43_lf R206 to R210, R217 b). -/
def SegAt.effect (g : SegAt) (s : State) (pix pix' : Memory 8) : Prop :=
  let addr (k : Int) : Int := placeAddr s g.pl g.dir g.x g.y k
  let lvl : Int := s.lflvl.toNat
  let sharp : Int := (s.lfcfg.toNat / 2 % 8 : Nat)
  (∀ a : Nat, (∀ k : Int, -writeReach g.kind ≤ k → k < writeReach g.kind → (a : Int) ≠ addr k) →
    pix'.read a = pix.read a) ∧
  (∀ k : Int, -reach g.kind ≤ k → k < reach g.kind →
    ((pix'.read (addr k).toNat).toNat : Int) =
      filtered g.kind (interior lvl sharp) (hevThreshold lvl) (edgeLimit g.kind lvl sharp)
        (fun j => ((pix.read (addr j).toNat).toNat : Int)) k)

/-- The effects of Segs one after the other. -/
def segsEffect (s : State) : List SegAt → Memory 8 → Memory 8 → Prop
  | [], pix, pix' => pix' = pix
  | g :: gs, pix, pix' => ∃ mid, g.effect s pix mid ∧ segsEffect s gs mid pix'

/-- The Segs of a plane's edges, in order (43_lf R214, R215). -/
def planeSegs (pl size : Nat) (km ks : Kind) (mbx mby : Nat) (noinner : Bool) : List SegAt :=
  (planeEdges size km ks mbx mby noinner).flatMap fun e => edgeSegs pl e.1 e.2.1 e.2.2.1 e.2.2.2 size

/-- The Segs of LF_MB, in order (43_lf R215). -/
def macroblockSegs (simple : Bool) (mbx mby : Nat) (noinner : Bool) : List SegAt :=
  if simple then planeSegs 0 16 .smb .ssub mbx mby noinner
  else
    planeSegs 0 16 .nmb .nsub mbx mby noinner
      ++ planeSegs 1 8 .nmb .nsub mbx mby noinner
      ++ planeSegs 2 8 .nmb .nsub mbx mby noinner

end Sys2Proof.Spec

open Sys2Proof Sys2Proof.Machine

/-! ## Encoding and decoding -/

/-- Decode and encode agree: decoding the encoding of a well-formed command gives it back, with every operand at every value
(30_encoding R100 to R104). -/
def Obligations.DecodeOfEncodeReturnsTheCommand : Prop := ∀ i : Instr, i.wf = true → decode (encode i) = .ok i

/-- The other direction: a word that decodes is the encoding of the command it decodes to, and that command is well formed; no
bit of a word is dropped (30_encoding R100 to R104; log 15). -/
def Obligations.EncodeOfDecodeReturnsTheWord : Prop :=
  ∀ (w : Word) (i : Instr), decode w = .ok i → encode i = w ∧ i.wf = true

/-- R105: with `match` and `mask` of the table, a word selects the command when `w & mask = match`; then the operand range
decides; a word whose opcode is in the table but which fails the test has a reserved bit set. -/
def Obligations.DecodeFollowsMatchAndMask : Prop :=
  ∀ r ∈ Spec.rows, ∀ w : Word,
    (w &&& r.mask = r.mtch → r.legal w = true → ∃ i, decode w = .ok i ∧ i.opcode = r.op) ∧
      (w &&& r.mask = r.mtch → r.legal w = false → decode w = .error .operandRange) ∧
      (w &&& 0xFF000000#32 = r.mtch → w &&& r.mask ≠ r.mtch → decode w = .error .reservedBit)

/-- The 237 values of OP that are no opcode raise ILLEGAL_CMD with the opcode byte (30_encoding R104, R106). -/
def Obligations.OpcodesOutsideTheTableAreIllegal : Prop :=
  ∀ w : Word,
    let op := w.extractLsb' 24 8
    (7 ≤ op.toNat ∧ op.toNat ≤ 0x0F) ∨ (0x15 ≤ op.toNat ∧ op.toNat ≤ 0x1F) ∨ 0x27 ≤ op.toNat →
      decode w = .error (.illegalCmd op)

/-- Words written out in 30_encoding R110 decode to the commands it names, and the words that fault there fault. -/
def Obligations.WorkedEncodingsDecode : Prop :=
  decode 0x01000001#32 = .ok (.bdSel 1) ∧ decode 0x040000C8#32 = .ok (.bdBool 200) ∧
    decode 0x12001466#32 = .ok (.tdBlk 6 3 5) ∧ decode 0x13000166#32 = .ok (.dqBlk 6 3 2) ∧
    decode 0x14200480#32 = .ok (.tdMb 1 1 false true) ∧ decode 0x21000076#32 = .ok (.lfAdjlvl (-10)) ∧
    decode 0x25000715#32 = .ok (.lfEdge 1 .h .nmb 7) ∧ decode 0x26100401#32 = .ok (.lfMb 1 1 true) ∧
    decode 0x07000000#32 = .error (.illegalCmd 7) ∧ decode 0x03000001#32 = .error .reservedBit ∧
    decode 0x01000009#32 = .error .operandRange ∧ decode 0x24000118#32 = .error .reservedBit

/-! ## The step -/

/-- A step runs the decoded command: a host write of `w` to CMD (0x0003) while no fault is recorded executes the command `w`
decodes to, on the state with that event taken (10_state R29; 44_system R241). -/
def Obligations.StepExecutesTheDecodedCommand : Prop :=
  ∀ (s : State) (w : Word) (i : Instr) (rest : List HostEvent),
    s.inbox = .write 0x0003#13 w :: rest → s.fault = false → decode w = .ok i → step s = exec i { s with inbox := rest }

/-- A word that does not decode changes nothing but the five fault fields (30_encoding R104; 60_exceptions R250, R251,
R257 b). -/
def Obligations.DecodeFaultsChangeOnlyTheFaultFields : Prop :=
  ∀ (s : State) (w : Word) (rest : List HostEvent),
    s.inbox = .write 0x0003#13 w :: rest → s.fault = false →
      (∀ op, decode w = .error (.illegalCmd op) →
        step s = .next (Spec.faultFields { s with inbox := rest } 1 1 w (BitVec.ofNat 32 op.toNat))) ∧
      (decode w = .error .reservedBit → step s = .next (Spec.faultFields { s with inbox := rest } 2 3 w 0)) ∧
      (decode w = .error .operandRange → step s = .next (Spec.faultFields { s with inbox := rest } 2 3 w 1))

/-- In the fault state a write to CMD is discarded whatever the word, a write anywhere but CTRL (0x0001) is ignored, and reads return
the state as it is (60_exceptions R259). A host read returns the value and has no side effect in the normal state as well (10_state R26;
44_system R241). That the data stand in the field `rdata` is the model's choice (log 9). -/
def Obligations.FaultStateIgnoresEverythingButCtrl : Prop :=
  ∀ (s : State) (rest : List HostEvent),
    (s.fault = true → ∀ (a : BitVec 13) (d : Word), a ≠ 0x0001#13 → s.inbox = .write a d :: rest →
      step s = .next { s with inbox := rest }) ∧
    (∀ a : BitVec 13, s.inbox = .read a :: rest → step s = .next { s with inbox := rest, rdata := s.hostRead a })

/-- R281 and R27: a write to CTRL with bit 0 set gives every register its reset value, in the fault state or not, and keeps the
memories and everything else; with bit 0 clear it does nothing. -/
def Obligations.SoftResetClearsTheRegistersOnly : Prop :=
  ∀ (s : State) (d : Word) (rest : List HostEvent), s.inbox = .write 0x0001#13 d :: rest →
    (d.getLsbD 0 = true → step s = .next (Spec.regsCleared { s with inbox := rest })) ∧
      (d.getLsbD 0 = false → step s = .next { s with inbox := rest })

/-- R280: the reset input gives every register its reset value and leaves STREAM and PIX alone; the contents of the seven internal
memories after it are not stated (they are free values, logs 3 and 4). It is so too where a fault is recorded and the
write to CMD, during which the input is asserted, is discarded (log 11). R282: during a command the registers take their reset values as
well, and all of the memories is kept but the entries and the PIX bytes of the command's write set; a command that fails decoding keeps
them all (60_exceptions R257 b). -/
def Obligations.PowerOnResetClearsTheRegisters : Prop :=
  ∀ (s : State) (rest : List HostEvent),
    (s.inbox = .powerOn :: rest ∨
        (∃ w, s.inbox = .resetDuring w :: rest ∧ s.fault = true) →
      ∃ tree tprob dqf cprob qcoef coef anz n,
        step s = .next { Spec.regsCleared { s with inbox := rest } with
          tree := tree, tprob := tprob, dqf := dqf, cprob := cprob, qcoef := qcoef, coef := coef, anz := anz, freeIx := n }) ∧
    (∀ (w : Word) (e : DecodeError), s.inbox = .resetDuring w :: rest → s.fault = false → decode w = .error e →
      step s = .next (Spec.regsCleared { s with inbox := rest })) ∧
    (∀ (w : Word) (i : Instr), s.inbox = .resetDuring w :: rest → s.fault = false → decode w = .ok i →
      ∃ (qcoef : Memory 16) (coef : Memory 32) (anz : Memory 9) (pix : Memory 8) (n : Nat),
        step s = .next { Spec.regsCleared { s with inbox := rest } with
          qcoef := qcoef, coef := coef, anz := anz, pix := pix, freeIx := n } ∧
        (∀ a, ¬Spec.inQcoefSet i a → qcoef.read a = s.qcoef.read a) ∧
        (∀ a, ¬Spec.inCoefSet i a → coef.read a = s.coef.read a) ∧
        (∀ x j, ¬Spec.inAnzSet i x j → (anz.read x).getLsbD j = (s.anz.read x).getLsbD j) ∧
        (∀ a, a ∉ Spec.pixSet i s → pix.read a = s.pix.read a))

/-- The registers of 10_state R25 read their reset values after reset, through the port (10_state R25, R31, R51). -/
def Obligations.ResetRegistersReadTheirResetValues : Prop :=
  State.reset.hostRead 0 = 0x56503801#32 ∧
    ∀ a : BitVec 13, 0 < a.toNat → a.toNat < 0x100 → State.reset.hostRead a = 0

/-- The invariant holds right after reset. -/
def Obligations.InvariantHoldsAtReset : Prop := State.reset.Inv

/-- Every step keeps the invariant: memories canonical and in bounds, sizes legal, the fault record consistent, and with no fault
recorded every context as 10_state R39 says. -/
def Obligations.EveryStepKeepsTheInvariant : Prop := ∀ s t : State, s.Inv → step s = .next t → t.Inv

/-! ## The register port -/

/-- R26, R40: a host write to a writable location stores the low bits of the data, and a read returns them, zero- or
sign-extended. -/
def Obligations.WritableLocationsReadBack : Prop :=
  ∀ (s : State) (a : BitVec 13) (d : Word) (rest : List HostEvent) (width : Nat) (signed : Bool),
    s.inbox = .write a d :: rest → s.fault = false → Spec.writable a.toNat = some (width, signed) →
      ∃ t, step s = .next t ∧ t.hostRead a = Spec.narrowed width signed d

/-- A host write to a writable location leaves every other location as it read before, but for BDSTATE[k] (0x50 + k) after a
write to BDSTART[k] or BDEND[k] (0x20 + 2k, 0x21 + 2k) (10_state R26, R37). -/
def Obligations.HostWriteLeavesOtherLocations : Prop :=
  ∀ (s t : State) (a b : BitVec 13) (d : Word) (rest : List HostEvent),
    s.inbox = .write a d :: rest → s.fault = false → (Spec.writable a.toNat).isSome = true → step s = .next t → b ≠ a →
      ¬(0x20 ≤ a.toNat ∧ a.toNat ≤ 0x31 ∧ b.toNat = 0x50 + (a.toNat - 0x20) / 2) →
        t.hostRead b = s.hostRead b

/-- A host write to a read-only or unmapped location changes nothing (10_state R26). CMD (0x0003) and CTRL (0x0001) are the
write-only locations. -/
def Obligations.WritesToReadOnlyLocationsAreIgnored : Prop :=
  ∀ (s : State) (a : BitVec 13) (d : Word) (rest : List HostEvent),
    s.inbox = .write a d :: rest → Spec.writable a.toNat = none → a ≠ 0x0001#13 → a ≠ 0x0003#13 →
      step s = .next { s with inbox := rest }

/-- A host write to BDSTART[k] or BDEND[k] stores the value, clears INIT and changes nothing else (10_state R37; 70_reset R295). -/
def Obligations.RangeWritesClearInit : Prop :=
  ∀ (s : State) (a : BitVec 13) (d : Word) (rest : List HostEvent) (k : Fin 9),
    s.inbox = .write a d :: rest → s.fault = false →
      (a.toNat = 0x20 + 2 * k.val →
        step s = .next { s with inbox := rest, bd := s.bd.set k { s.ctx k with startAddr := d, init := false } }) ∧
      (a.toNat = 0x21 + 2 * k.val →
        step s = .next { s with inbox := rest, bd := s.bd.set k { s.ctx k with endAddr := d, init := false } })

/-- The fields of STATUS (10_state R28), of BDPOS[k] and BDSTATE[k] (R38), as the host reads them, and the other registers and
the memories that commands write: RESULT, CMDCNT, FCMD, FINFO, LFLVL, LFX, LFY and TDLNZ, ANZ zero-extended, QCOEF and COEF
sign-extended (10_state R25, R26, R40). -/
def Obligations.StatusAndBdstateShowTheirFields : Prop :=
  ∀ (s : State) (k : Fin 9) (p q : BitVec 13), p.toNat = 0x40 + k.val → q.toNat = 0x50 + k.val →
    ((s.hostRead 2).getLsbD 0 = s.fault ∧ (s.hostRead 2).extractLsb' 1 2 = s.fclass ∧
      (s.hostRead 2).getLsbD 3 = false ∧ (s.hostRead 2).extractLsb' 4 4 = s.fcode ∧
      ((s.hostRead 2).extractLsb' 8 4).toNat = s.cur.val ∧ (s.hostRead 2).extractLsb' 12 20 = 0#20) ∧
    (s.hostRead p = (s.ctx k).pos ∧
      (s.hostRead q).extractLsb' 0 16 = (s.ctx k).value ∧ (s.hostRead q).extractLsb' 16 8 = (s.ctx k).range ∧
      (s.hostRead q).extractLsb' 24 3 = (s.ctx k).bitcnt ∧ (s.hostRead q).extractLsb' 27 4 = 0#4 ∧
      (s.hostRead q).getLsbD 31 = (s.ctx k).init) ∧
    (s.hostRead 4 = s.result ∧ s.hostRead 5 = s.cmdcnt ∧ s.hostRead 6 = s.fcmd ∧ s.hostRead 7 = s.finfo ∧
      (s.hostRead 9).toNat = s.lflvl.toNat ∧ (s.hostRead 10).toNat = s.lfx.toNat ∧ (s.hostRead 11).toNat = s.lfy.toNat ∧
      (s.hostRead 0x11).toNat = s.lnz.toNat) ∧
    (∀ (i : Nat) (a : BitVec 13),
      (i < 400 → a.toNat = 0x1000 + i → (s.hostRead a).toInt = (s.qcoef.read i).toInt) ∧
      (i < 400 → a.toNat = 0x1200 + i → (s.hostRead a).toInt = (s.coef.read i).toInt) ∧
      (i < 1024 → a.toNat = 0x1400 + i → (s.hostRead a).toNat = (s.anz.read i).toNat))

/-! ## Whole-machine rules -/

/-- A command either completes, advancing CMDCNT and leaving the fault fields, or faults, leaving CMDCNT and recording its own word
in FCMD with a code and its class (10_state R23; 30_encoding R104; 60_exceptions R250, R251, R257). -/
def Obligations.CommandCompletesOrFaults : Prop :=
  ∀ (i : Instr) (s : State), ∃ t, exec i s = .next t ∧
    ((t.cmdcnt = s.cmdcnt + 1 ∧ t.fault = s.fault ∧ t.fcode = s.fcode ∧ t.fclass = s.fclass ∧ t.fcmd = s.fcmd ∧
        t.finfo = s.finfo) ∨
      (t.cmdcnt = s.cmdcnt ∧ t.fault = true ∧ t.fcmd = encode i ∧
        (t.fcode, t.fclass) ∈ ([(2, 3), (3, 3), (4, 3), (5, 2), (6, 3), (7, 3)] : List (BitVec 4 × BitVec 2))))

/-- R255: which command can raise which fault in execution. -/
def Obligations.FaultsEachCommandCanRaise : Prop :=
  ∀ (i : Instr) (s t : State), i.wf = true → s.fault = false → exec i s = .next t → t.fault = true →
    t.fcode ∈ Spec.faultsOf i

/-- Which command may write which register or memory, completed or faulted: RESULT six commands (10_state R21), CUR only BD_SEL
(R22), START and END none and INIT only BD_SEEK (R37), the host-written registers and tables none (R32, R35, R40), STREAM none
(R48), PIX the LF commands, and so on. -/
def Obligations.CommandsWriteOnlyTheirRegisters : Prop :=
  ∀ (i : Instr) (s t : State), exec i s = .next t →
    (t.lfcfg = s.lfcfg ∧ t.ybase = s.ybase ∧ t.ubase = s.ubase ∧ t.vbase = s.vbase ∧ t.ystride = s.ystride ∧
      t.uvstride = s.uvstride ∧ t.tree = s.tree ∧ t.tprob = s.tprob ∧ t.dqf = s.dqf ∧ t.cprob = s.cprob ∧
      t.stream = s.stream ∧ t.params = s.params ∧ t.inbox = s.inbox ∧ t.rdata = s.rdata) ∧
    (∀ k, (t.ctx k).startAddr = (s.ctx k).startAddr ∧ (t.ctx k).endAddr = (s.ctx k).endAddr) ∧
    (i.opcode ∉ [.bdBit, .bdBool, .bdLit, .bdTree, .tdBlk, .tdMb] → t.result = s.result) ∧
    (i.opcode ≠ .bdSel → t.cur = s.cur) ∧
    (i.opcode ≠ .bdSeek → ∀ k, (t.ctx k).init = (s.ctx k).init) ∧
    (i.opcode ∉ [.bdSeek, .bdBit, .bdBool, .bdLit, .bdTree, .tdBlk, .tdMb] → t.bd = s.bd) ∧
    (i.opcode ∉ [.lfSetlvl, .lfAdjlvl] → t.lflvl = s.lflvl) ∧
    (i.opcode ≠ .lfSetx → t.lfx = s.lfx) ∧
    (i.opcode ≠ .lfSety → t.lfy = s.lfy) ∧
    (i.opcode ∉ [.tdRst, .tdNewrow, .tdBlk, .tdMb] → t.lnz = s.lnz) ∧
    (i.opcode ∉ [.tdRst, .tdBlk, .tdMb] → t.anz = s.anz) ∧
    (i.opcode ∉ [.tdBlk, .tdMb] → t.qcoef = s.qcoef) ∧
    (i.opcode ∉ [.dqBlk, .tdMb] → t.coef = s.coef) ∧
    (i.opcode ∉ [.lfSeg, .lfEdge, .lfMb] → t.pix = s.pix)

/-- Contexts are independent (40_bd R142). A command leaves every context but the one it works on as it was, and what it does to the
rest of the machine does not depend on what stands in another context. After a fault in execution the two runs hold the same free values
in the write set: there the statement rests on the model's numbering (log 4). -/
def Obligations.ContextsAreIndependent : Prop :=
  ∀ (i : Instr) (s t : State) (j : Fin 9), some j ≠ Spec.touched i s → exec i s = .next t →
    t.ctx j = s.ctx j ∧
      ∀ c : Ctx, exec i { s with bd := s.bd.set j c } = .next { t with bd := t.bd.set j c }

/-- The stream outside a context's range is never read (20_memory R80): a byte of STREAM outside [START, END) of the context the
command works on has no influence on anything the command does. After a fault in execution the two runs hold the same free values in the
write set: there the statement rests on the model's numbering (log 4). -/
def Obligations.StreamOutsideTheRangeIsNotRead : Prop :=
  ∀ (i : Instr) (s t : State) (a : Nat) (v : Byte), s.Inv → s.fault = false →
    (∀ k, Spec.touched i s = some k → a < (s.ctx k).startAddr.toNat ∨ (s.ctx k).endAddr.toNat ≤ a) →
      exec i s = .next t →
        exec i { s with stream := s.stream.write a v } = .next { t with stream := t.stream.write a v }

/-- For BD_OVERRUN, FINFO equals the END of the context that was reading (60_exceptions R256). -/
def Obligations.OverrunInfoIsTheEndOfTheRange : Prop :=
  ∀ (i : Instr) (s t : State) (k : Fin 9), s.Inv → s.fault = false → Spec.touched i s = some k → exec i s = .next t →
    t.fault = true → t.fcode = 5 → t.finfo = (s.ctx k).endAddr

/-! ## System and registers -/

/-- R240: NOP writes nothing but CMDCNT. -/
def Obligations.NopAdvancesOnlyCmdcnt : Prop := ∀ s : State, exec .nop s = .next { s with cmdcnt := s.cmdcnt + 1 }

/-- BD_SEL (40_bd R130), TD_NEWROW (41_td R168), LF_SETLVL, LF_SETX, LF_SETY (43_lf R201, R212, R213): each completes and writes its
one register. -/
def Obligations.RegisterCommandsWriteOneRegister : Prop :=
  ∀ s : State,
    (∀ (ctx : BitVec 4) (k : Fin 9), ctx.toNat = k.val →
      exec (.bdSel ctx) s = .next { s with cur := k, cmdcnt := s.cmdcnt + 1 }) ∧
    exec .tdNewrow s = .next { s with lnz := 0, cmdcnt := s.cmdcnt + 1 } ∧
    (∀ lvl, exec (.lfSetlvl lvl) s = .next { s with lflvl := lvl, cmdcnt := s.cmdcnt + 1 }) ∧
    (∀ x, exec (.lfSetx x) s = .next { s with lfx := x, cmdcnt := s.cmdcnt + 1 }) ∧
    (∀ y, exec (.lfSety y) s = .next { s with lfy := y, cmdcnt := s.cmdcnt + 1 })

/-- R202: LF_ADJLVL clamps the integer sum to 0..63, never wraps, and writes nothing but LFLVL. -/
def Obligations.LfAdjlvlClampsTheSum : Prop :=
  ∀ (s : State) (delta : BitVec 7), ∃ lvl : BitVec 6,
    exec (.lfAdjlvl delta) s = .next { s with lflvl := lvl, cmdcnt := s.cmdcnt + 1 } ∧
      (lvl.toNat : Int) = Spec.clamp (s.lflvl.toNat + delta.toInt) 0 63

/-- R167: TD_RST clears LNZ and all 1024 entries of ANZ and writes nothing else. -/
def Obligations.TdRstClearsTheNeighbourFlags : Prop :=
  ∀ s : State, ∃ anz : Memory 9,
    exec .tdRst s = .next { s with lnz := 0, anz := anz, cmdcnt := s.cmdcnt + 1 } ∧
      ∀ col < 1024, anz.read col = 0

/-! ## The Boolean decoder -/

/-- R131: BD_SEEK over a range of two bytes or more; the range check; the two ways to overrun, after which POS, VALUE, RANGE and
BITCNT are unspecified and INIT is 0 (60_exceptions R257). -/
def Obligations.BdSeekStartsTheRange : Prop :=
  ∀ (s : State) (ctx : BitVec 4) (k : Fin 9), ctx.toNat = k.val →
    let c := s.ctx k
    (c.startAddr.toNat + 2 ≤ c.endAddr.toNat → c.endAddr.toNat ≤ s.params.streamSize →
      exec (.bdSeek ctx) s = .next { s with
        bd := s.bd.set k { c with
          pos := BitVec.ofNat 32 (c.startAddr.toNat + 2)
          value := BitVec.ofNat 16
            ((s.stream.read c.startAddr.toNat).toNat * 256 + (s.stream.read (c.startAddr.toNat + 1)).toNat)
          range := 255, bitcnt := 0, init := true }
        cmdcnt := s.cmdcnt + 1 }) ∧
    (¬(c.startAddr.toNat ≤ c.endAddr.toNat ∧ c.endAddr.toNat ≤ s.params.streamSize) →
      exec (.bdSeek ctx) s = .next (Spec.faultFields s 4 3 (encode (.bdSeek ctx)) (BitVec.ofNat 32 k.val))) ∧
    (c.startAddr.toNat ≤ c.endAddr.toNat → c.endAddr.toNat < c.startAddr.toNat + 2 →
      c.endAddr.toNat ≤ s.params.streamSize →
        ∃ pos value range bitcnt n, exec (.bdSeek ctx) s = .next (Spec.faultFields
          { s with
            bd := s.bd.set k { c with pos := pos, value := value, range := range, bitcnt := bitcnt, init := false }
            freeIx := n }
          5 2 (encode (.bdSeek ctx)) c.endAddr))

/-- The commands that read the stream raise BD_UNINIT(CUR) when BD[CUR].INIT = 0, before any state changes; TD_MB only with SKIP = 0
(40_bd R145; 41_td R171, R177; 60_exceptions R254). -/
def Obligations.ReadsOfAnUninitialisedContextFault : Prop :=
  ∀ (s : State) (i : Instr), i.wf = true →
    ((∃ p, i = .bdBool p) ∨ i = .bdBit ∨ (∃ n, i = .bdLit n) ∨ (∃ st, i = .bdTree st) ∨
      (∃ b t c, i = .tdBlk b t c) ∨ ∃ sg c h, i = .tdMb sg c h false) →
    (s.ctx s.cur).init = false →
      exec i s = .next (Spec.faultFields s 3 3 (encode i) (BitVec.ofNat 32 s.cur.val))

/-- R133 and R134 in closed form: BD_BOOL decides the bit against `split`, keeps the chosen part of the interval, and normalises by the one
number `k` of shifts that brings RANGE to 128..255; at the eighth shift since the last merge the byte at POS enters VALUE. -/
def Obligations.BdBoolReadsOneBit : Prop :=
  ∀ (s : State) (prob : BitVec 8) (k : Nat),
    let c := s.ctx s.cur
    let sp := 1 + ((c.range.toNat - 1) * prob.toNat) / 256
    let bit := decide (sp * 256 ≤ c.value.toNat)
    let r := if bit then c.range.toNat - sp else sp
    let v := if bit then c.value.toNat - sp * 256 else c.value.toNat
    c.init = true → 128 ≤ c.range.toNat → 128 ≤ r * 2 ^ k → r * 2 ^ k ≤ 255 →
      (c.bitcnt.toNat + k ≤ 7 →
        exec (.bdBool prob) s = .next { s with
          result := if bit then 1 else 0
          bd := s.bd.set s.cur { c with
            range := BitVec.ofNat 8 (r * 2 ^ k), value := BitVec.ofNat 16 (v * 2 ^ k)
            bitcnt := BitVec.ofNat 3 (c.bitcnt.toNat + k) }
          cmdcnt := s.cmdcnt + 1 }) ∧
      (8 ≤ c.bitcnt.toNat + k → c.pos.toNat < c.endAddr.toNat →
        exec (.bdBool prob) s = .next { s with
          result := if bit then 1 else 0
          bd := s.bd.set s.cur { c with
            pos := BitVec.ofNat 32 (c.pos.toNat + 1)
            range := BitVec.ofNat 8 (r * 2 ^ k)
            value := BitVec.ofNat 16 (v * 2 ^ k) |||
              BitVec.ofNat 16 ((s.stream.read c.pos.toNat).toNat * 2 ^ (c.bitcnt.toNat + k - 8))
            bitcnt := BitVec.ofNat 3 (c.bitcnt.toNat + k - 8) }
          cmdcnt := s.cmdcnt + 1 }) ∧
      (8 ≤ c.bitcnt.toNat + k → c.endAddr.toNat ≤ c.pos.toNat →
        ∃ t, exec (.bdBool prob) s = .next t ∧ t.fault = true ∧ t.fcode = 5 ∧ t.fclass = 2 ∧ t.finfo = c.pos ∧
          t.cmdcnt = s.cmdcnt)

/-- The effect of BD_BIT on every piece of state is that of BD_BOOL 128 and that of BD_LIT 1 (40_bd R140); after a fault FCMD holds the
word of the command itself. After BD_OVERRUN the runs hold the same free values in the write set: there the statement rests on the model's
numbering (log 4). -/
def Obligations.BdBitEqualsBool128AndLit1 : Prop :=
  ∀ s t : State, exec .bdBit s = .next t →
    (exec (.bdBool 128) s = .next (if t.fault ∧ t.cmdcnt = s.cmdcnt then { t with fcmd := encode (.bdBool 128) } else t)) ∧
      (exec (.bdLit 1) s = .next (if t.fault ∧ t.cmdcnt = s.cmdcnt then { t with fcmd := encode (.bdLit 1) } else t))

/-- BD_BIT completes with RESULT 0 or 1 while a shift is left in the range, and fetches at most one byte (40_bd R135, R140). -/
def Obligations.BdBitCompletes : Prop :=
  ∀ s : State, (s.ctx s.cur).init = true → 128 ≤ (s.ctx s.cur).range.toNat →
    (s.ctx s.cur).bitcnt.toNat < 7 ∨ (s.ctx s.cur).pos.toNat < (s.ctx s.cur).endAddr.toNat →
      ∃ (b : Bool) (c : Ctx), exec .bdBit s = .next { s with
          result := if b then 1 else 0, bd := s.bd.set s.cur c, cmdcnt := s.cmdcnt + 1 } ∧
        c.pos.toNat ≤ (s.ctx s.cur).pos.toNat + 1 ∧ 128 ≤ c.range.toNat ∧ c.init = true

/-- BD_LIT n completes when the range has ceil(n / 8) bytes left, fetches at most that many, and its value is below 2^n; N = 0 reads
nothing and leaves the context unchanged (40_bd R135). -/
def Obligations.BdLitCompletes : Prop :=
  ∀ (s : State) (n : BitVec 5), (s.ctx s.cur).init = true → 128 ≤ (s.ctx s.cur).range.toNat →
    (s.ctx s.cur).pos.toNat + (n.toNat + 7) / 8 ≤ (s.ctx s.cur).endAddr.toNat →
      ∃ (v : Word) (c : Ctx), exec (.bdLit n) s = .next { s with
          result := v, bd := s.bd.set s.cur c, cmdcnt := s.cmdcnt + 1 } ∧
        v.toNat < 2 ^ n.toNat ∧ c.pos.toNat ≤ (s.ctx s.cur).pos.toNat + (n.toNat + 7) / 8 ∧
        (n = 0 → v = 0 ∧ c = s.ctx s.cur)

/-- R135: a literal is built from n sequential reads at probability 128, most significant bit first: where n BD_BIT commands
complete, BD_LIT n completes with their value and leaves the contexts as they do, and nothing else changes; where they do not, BD_LIT n
raises BD_OVERRUN. -/
def Obligations.BdLitIsBitsMostSignificantFirst : Prop :=
  ∀ (s : State) (n : BitVec 5), s.fault = false → (s.ctx s.cur).init = true →
    (∀ v u, Spec.bitsRead n.toNat 0 s = some (v, u) →
      v < 2 ^ n.toNat ∧
        exec (.bdLit n) s = .next { s with result := BitVec.ofNat 32 v, bd := u.bd, cmdcnt := s.cmdcnt + 1 }) ∧
    (Spec.bitsRead n.toNat 0 s = none →
      ∃ t, exec (.bdLit n) s = .next t ∧ t.fault = true ∧ t.fcode = 5 ∧ t.fclass = 2 ∧ t.cmdcnt = s.cmdcnt)

/-- BD_TREE completes over a tree whose entries lead forward: from START on every entry is a leaf or a larger index up to 62, and 56
bytes are left (at most 63 reads of at most 7 shifts). RESULT is a leaf symbol, 1 to 128 (40_bd R137, R139). -/
def Obligations.BdTreeCompletesOnForwardTrees : Prop :=
  ∀ (s : State) (start : BitVec 6), (s.ctx s.cur).init = true → 128 ≤ (s.ctx s.cur).range.toNat → start.toNat ≤ 62 →
    (∀ j, start.toNat ≤ j → j ≤ 63 → (s.tree.read j).toInt < 0 ∨
      ((j : Int) < (s.tree.read j).toInt ∧ (s.tree.read j).toInt ≤ 62)) →
    (s.ctx s.cur).pos.toNat + 56 ≤ (s.ctx s.cur).endAddr.toNat →
      ∃ (v : Word) (c : Ctx), exec (.bdTree start) s = .next { s with
          result := v, bd := s.bd.set s.cur c, cmdcnt := s.cmdcnt + 1 } ∧
        1 ≤ v.toNat ∧ v.toNat ≤ 128

/-- R137, one step of the walk in terms of commands: BD_TREE from START reads what BD_BOOL with TPROB[START >> 1] reads, and raises
BD_OVERRUN where that read does; a negative TREE[START + b] is the leaf; an index up to 62 goes on as BD_TREE from there does, which then
completes or faults as that command does; a larger one faults TREE_RANGE with the index. Of a fault only the fault fields and CMDCNT are
stated: the write set after it is unspecified (60_exceptions R257). -/
def Obligations.BdTreeWalksOneNodeAtATime : Prop :=
  ∀ (s u : State) (start : BitVec 6), s.Inv → s.fault = false → (s.ctx s.cur).init = true → start.toNat ≤ 62 →
    exec (.bdBool (s.tprob.read (start.toNat / 2))) s = .next u →
      let e := (s.tree.read (start.toNat + u.result.toNat)).toInt
      (u.fault = true → ∃ t, exec (.bdTree start) s = .next t ∧ t.fault = true ∧ t.fcode = 5 ∧ t.fclass = 2 ∧
        t.finfo = u.finfo ∧ t.fcmd = encode (.bdTree start) ∧ t.cmdcnt = s.cmdcnt) ∧
      (u.fault = false → e < 0 → exec (.bdTree start) s = .next { u with result := BitVec.ofInt 32 (-e) }) ∧
      (u.fault = false → 0 ≤ e → e ≤ 62 → ∀ t, exec (.bdTree (BitVec.ofInt 6 e)) u = .next t →
        (t.fault = false → exec (.bdTree start) s = .next { t with cmdcnt := s.cmdcnt + 1 }) ∧
        (t.fault = true → ∃ t', exec (.bdTree start) s = .next t' ∧ t'.fault = true ∧ t'.fcode = t.fcode ∧
          t'.fclass = t.fclass ∧ t'.finfo = t.finfo ∧ t'.fcmd = encode (.bdTree start) ∧ t'.cmdcnt = s.cmdcnt)) ∧
      (u.fault = false → 63 ≤ e → ∃ t, exec (.bdTree start) s = .next t ∧ t.fault = true ∧ t.fcode = 6 ∧ t.fclass = 3 ∧
        t.finfo = BitVec.ofInt 32 e ∧ t.fcmd = encode (.bdTree start) ∧ t.cmdcnt = s.cmdcnt)

/-- BD_TREE 63 faults TREE_RANGE before any read and changes nothing but the fault fields (40_bd R137; 60_exceptions R254, R257; the
last point is log 6). -/
def Obligations.BdTree63FaultsBeforeAnyRead : Prop :=
  ∀ s : State, (s.ctx s.cur).init = true →
    exec (.bdTree 63) s = .next (Spec.faultFields s 6 3 (encode (.bdTree 63)) 63)

/-- R139: a context completes at most 128 * 8 * (END - POS + 1) reads, whatever their probabilities, counted in BD_BOOL commands;
so a walk of BD_TREE, whatever TREE and TPROB hold, ends within that many reads, in a leaf, TREE_RANGE or BD_OVERRUN: the model's walk
with that fuel never runs out (log 14), and more fuel changes nothing. -/
def Obligations.BdTreeEndsWithinTheBound : Prop :=
  (∀ (s u : State) (ps : List Byte) (v : Nat), (s.ctx s.cur).init = true → 128 ≤ (s.ctx s.cur).range.toNat →
    (s.ctx s.cur).pos.toNat ≤ (s.ctx s.cur).endAddr.toNat → Spec.bitsOf ps 0 s = some (v, u) →
      ps.length ≤ 128 * 8 * ((s.ctx s.cur).endAddr.toNat - (s.ctx s.cur).pos.toNat + 1)) ∧
  (∀ (stream tree tprob : Memory 8) (i m : Nat) (c : Ctx), 128 ≤ c.range.toNat → c.pos.toNat ≤ c.endAddr.toNat →
    (∃ n, Spec.walkReads stream tree tprob (128 * 8 * (c.endAddr.toNat - c.pos.toNat + 1)) i c = some n ∧
      n ≤ 128 * 8 * (c.endAddr.toNat - c.pos.toNat + 1)) ∧
    treeWalk stream tree tprob (128 * 8 * (c.endAddr.toNat - c.pos.toNat + 1) + m) i c =
      treeWalk stream tree tprob (128 * 8 * (c.endAddr.toNat - c.pos.toNat + 1)) i c)

/-- The window relation VALUE < RANGE * 256 holds after BD_SEEK when the first byte is not 0xFF, fails when it is, and is kept by every
ReadBool (40_bd R138); the BITCNT low bits of VALUE are 0, as they are in every reachable state (the invariant). -/
def Obligations.WindowRelationIsKept : Prop :=
  (∀ (s t : State) (ctx : BitVec 4) (k : Fin 9), ctx.toNat = k.val → exec (.bdSeek ctx) s = .next t →
    (t.ctx k).init = true → s.fault = false → t.fault = false →
      ((t.ctx k).value.toNat < (t.ctx k).range.toNat * 256 ↔ s.stream.read (s.ctx k).startAddr.toNat ≠ 0xFF#8)) ∧
  (∀ (stream : Memory 8) (p : BitVec 8) (c c' : Ctx) (b : Bool), 128 ≤ c.range.toNat →
    c.value.toNat % 2 ^ c.bitcnt.toNat = 0 → c.value.toNat < c.range.toNat * 256 → readBool stream p c = .ok (b, c') →
      c'.value.toNat < c'.range.toNat * 256)

/-! ## The token decoder -/

/-- TD_BLK, completed or faulted, touches only its own entries: QCOEF outside block BLK, the flags of LNZ but bit l(BLK), the columns of
ANZ but COL and there all but bit a(BLK) stay (41_td R170, R171; 60_exceptions R257). -/
def Obligations.TdBlkLeavesOtherBlocksAndFlags : Prop :=
  ∀ (s t : State) (blk : BitVec 5) (type : BitVec 2) (col : BitVec 10), exec (.tdBlk blk type col) s = .next t →
    (∀ a, a < blk.toNat * 16 ∨ blk.toNat * 16 + 16 ≤ a → t.qcoef.read a = s.qcoef.read a) ∧
      (∀ j, j ≠ Spec.lnzBit blk.toNat → t.lnz.getLsbD j = s.lnz.getLsbD j) ∧
      (∀ x, x ≠ col.toNat → t.anz.read x = s.anz.read x) ∧
      (∀ j, j ≠ Spec.anzBit blk.toNat → (t.anz.read col.toNat).getLsbD j = (s.anz.read col.toNat).getLsbD j)

/-- TD_BLK completes when 266 bytes are left (R175): RESULT is between the first position and 16, the positions before the first and from
RESULT on are 0, every level is between -2114 and 2114 (R174), and both flags say whether a token was decoded (R173). -/
def Obligations.TdBlkCompletes : Prop :=
  ∀ (s : State) (blk : BitVec 5) (type : BitVec 2) (col : BitVec 10), blk.toNat ≤ 24 →
    (s.ctx s.cur).init = true → 128 ≤ (s.ctx s.cur).range.toNat →
    (s.ctx s.cur).pos.toNat + 266 ≤ (s.ctx s.cur).endAddr.toNat →
      let first := if type = 0 then 1 else 0
      ∃ (t : State) (n : Nat), exec (.tdBlk blk type col) s = .next t ∧
        t.fault = s.fault ∧ t.cmdcnt = s.cmdcnt + 1 ∧ t.result.toNat = n ∧ first ≤ n ∧ n ≤ 16 ∧
        (t.ctx s.cur).pos.toNat ≤ (s.ctx s.cur).pos.toNat + 266 ∧
        (∀ j < 16, -2114 ≤ (t.qcoef.read (blk.toNat * 16 + j)).toInt ∧
          (t.qcoef.read (blk.toNat * 16 + j)).toInt ≤ 2114 ∧
          (j < first ∨ n ≤ j → t.qcoef.read (blk.toNat * 16 + j) = 0)) ∧
        t.lnz.getLsbD (Spec.lnzBit blk.toNat) = decide (first < n) ∧
        (t.anz.read col.toNat).getLsbD (Spec.anzBit blk.toNat) = decide (first < n)

/-- R170 to R172: TD_BLK reads what the token loop reads when each ReadBool is the command BD_BOOL. Where that loop completes, TD_BLK
completes with the same contexts, the levels in QCOEF[blk] from the first position on with 0 before and after, RESULT one past the last, and
both flags saying whether there was a token; where it does not, TD_BLK raises BD_OVERRUN. -/
def Obligations.TdBlkDecodesItsTokens : Prop :=
  ∀ (s : State) (blk : BitVec 5) (type : BitVec 2) (col : BitVec 10), blk.toNat ≤ 24 → s.fault = false →
    (s.ctx s.cur).init = true →
      let first := if type = 0 then 1 else 0
      let c0 := (s.lnz.getLsbD (Spec.lnzBit blk.toNat)).toNat +
        ((s.anz.read col.toNat).getLsbD (Spec.anzBit blk.toNat)).toNat
      (∀ (vs : List Int) (u : State), Spec.levelsOf type.toNat (16 - first) c0 0 s = some (vs, u) →
        ∃ (lnz : BitVec 9) (anz : Memory 9) (qcoef : Memory 16),
          exec (.tdBlk blk type col) s = .next { s with
            result := BitVec.ofNat 32 (first + vs.length), bd := u.bd, lnz := lnz, anz := anz, qcoef := qcoef
            cmdcnt := s.cmdcnt + 1 } ∧
          (∀ j < 16, (qcoef.read (blk.toNat * 16 + j)).toInt = if first ≤ j then vs.getD (j - first) 0 else 0) ∧
          lnz.getLsbD (Spec.lnzBit blk.toNat) = decide (vs ≠ []) ∧
          (anz.read col.toNat).getLsbD (Spec.anzBit blk.toNat) = decide (vs ≠ [])) ∧
      (Spec.levelsOf type.toNat (16 - first) c0 0 s = none →
        ∃ t, exec (.tdBlk blk type col) s = .next t ∧ t.fault = true ∧ t.fcode = 5 ∧ t.fclass = 2 ∧ t.cmdcnt = s.cmdcnt)

/-- TD_BLK whose first decision, read with CPROB[t][BAND[first]][c0][0] where c0 is the sum of the two neighbour flags, is 0: EOB, so
RESULT is the first position, the block is 0 and both flags are cleared (41_td R162, R169, R170, R173). -/
def Obligations.TdBlkEndsAtAnImmediateEob : Prop :=
  ∀ (s : State) (blk : BitVec 5) (type : BitVec 2) (col : BitVec 10) (u : State), blk.toNat ≤ 24 →
    (s.ctx s.cur).init = true →
    let first := if type = 0 then 1 else 0
    let c0 := (s.lnz.getLsbD (Spec.lnzBit blk.toNat)).toNat +
      ((s.anz.read col.toNat).getLsbD (Spec.anzBit blk.toNat)).toNat
    s.fault = false → exec (.bdBool (s.cprob.read (((type.toNat * 8 + first) * 3 + c0) * 11))) s = .next u →
      u.fault = false → u.result = 0 →
        ∃ t, exec (.tdBlk blk type col) s = .next t ∧ t.fault = false ∧ t.cmdcnt = s.cmdcnt + 1 ∧
          t.result = BitVec.ofNat 32 first ∧ t.bd = u.bd ∧ (∀ j < 16, t.qcoef.read (blk.toNat * 16 + j) = 0) ∧
          t.lnz.getLsbD (Spec.lnzBit blk.toNat) = false ∧
          (t.anz.read col.toNat).getLsbD (Spec.anzBit blk.toNat) = false

/-- TD_MB with SKIP = 1 (41_td R177): all coefficients 0, the flags 7:0 cleared and the Y2 flag too when HASY2 = 1, RESULT 0; no context
is needed or changed. -/
def Obligations.TdMbSkipClearsTheMacroblock : Prop :=
  ∀ (s : State) (seg : BitVec 2) (col : BitVec 10) (hasy2 : Bool), ∃ (q : Memory 16) (c : Memory 32) (lnz : BitVec 9)
    (anz : Memory 9),
    exec (.tdMb seg col hasy2 true) s = .next { s with
      result := 0, qcoef := q, coef := c, lnz := lnz, anz := anz, cmdcnt := s.cmdcnt + 1 } ∧
    (∀ a < 400, q.read a = 0 ∧ c.read a = 0) ∧
    (∀ j < 9, lnz.getLsbD j = (decide (j = 8) && !hasy2 && s.lnz.getLsbD j) ∧
      (anz.read col.toNat).getLsbD j = (decide (j = 8) && !hasy2 && (s.anz.read col.toNat).getLsbD j)) ∧
    (∀ x, x ≠ col.toNat → anz.read x = s.anz.read x)

/-- TD_MB with SKIP = 0 completes when 25 * 266 bytes are left: RESULT is 0 or 1, every level is between -2114 and 2114, other columns of ANZ
stay, and without a Y2 block the Y2 flags stay and block 24 is 0 (41_td R174, R175, R177). -/
def Obligations.TdMbCompletes : Prop :=
  ∀ (s : State) (seg : BitVec 2) (col : BitVec 10) (hasy2 : Bool),
    (s.ctx s.cur).init = true → 128 ≤ (s.ctx s.cur).range.toNat →
    (s.ctx s.cur).pos.toNat + 25 * 266 ≤ (s.ctx s.cur).endAddr.toNat →
      ∃ t, exec (.tdMb seg col hasy2 false) s = .next t ∧ t.fault = s.fault ∧ t.cmdcnt = s.cmdcnt + 1 ∧
        (t.result = 0 ∨ t.result = 1) ∧
        (∀ a < 400, -2114 ≤ (t.qcoef.read a).toInt ∧ (t.qcoef.read a).toInt ≤ 2114) ∧
        (∀ x, x ≠ col.toNat → t.anz.read x = s.anz.read x) ∧
        (hasy2 = false → t.lnz.getLsbD 8 = s.lnz.getLsbD 8 ∧
          (t.anz.read col.toNat).getLsbD 8 = (s.anz.read col.toNat).getLsbD 8 ∧
          ∀ j < 16, t.qcoef.read (24 * 16 + j) = 0 ∧ t.coef.read (24 * 16 + j) = 0)

/-- R178: TD_MB with SKIP = 0 is the sequence of TD_BLK and DQ_BLK it is built from, without a Y2 block after the host has cleared the
sixteen entries of QCOEF[24] and COEF[24]: it faults when and as that sequence does; completed, it leaves QCOEF, COEF, LNZ, ANZ and the
contexts as the sequence does, and RESULT is 1 when some block of the sequence decoded a token other than EOB, else 0 (R177). -/
def Obligations.TdMbIsTheSequenceOfItsBlocks : Prop :=
  ∀ (s : State) (seg : BitVec 2) (col : BitVec 10) (hasy2 : Bool), s.fault = false →
    let s0 : State :=
      if hasy2 then s
      else { s with
        qcoef := s.qcoef.writeSeq (24 * 16) (List.replicate 16 0)
        coef := s.coef.writeSeq (24 * 16) (List.replicate 16 0) }
    let cmds := Spec.macroblockCommands seg col hasy2
    ∃ t u, exec (.tdMb seg col hasy2 false) s = .next t ∧ execSeq cmds s0 = .next u ∧
      t.fault = u.fault ∧ t.fcode = u.fcode ∧ t.fclass = u.fclass ∧ t.finfo = u.finfo ∧
      (t.fault = false →
        (∀ a, t.qcoef.read a = u.qcoef.read a) ∧ (∀ a, t.coef.read a = u.coef.read a) ∧ t.lnz = u.lnz ∧
        (∀ x, t.anz.read x = u.anz.read x) ∧ t.bd = u.bd ∧ t.result = if Spec.tokenSeen cmds s0 then 1 else 0)

/-! ## The dequantizer -/

/-- R192 and R194: DQ_BLK writes COEF[blk][ZIGZAG[n]] with the exact product of the level and DQF[s][t][BAND[n]], for all sixteen n, and
nothing else. -/
def Obligations.DqBlkScalesExactly : Prop :=
  ∀ (s : State) (blk : BitVec 5) (type seg : BitVec 2), blk.toNat ≤ 24 → ∃ coef : Memory 32,
    exec (.dqBlk blk type seg) s = .next { s with coef := coef, cmdcnt := s.cmdcnt + 1 } ∧
      (∀ n < 16, (coef.read (blk.toNat * 16 + Spec.zigzag.getD n 0)).toInt =
        (s.qcoef.read (blk.toNat * 16 + n)).toInt *
          (s.dqf.read ((seg.toNat * 4 + type.toNat) * 8 + Spec.band.getD n 0)).toNat) ∧
      (∀ a, a < blk.toNat * 16 ∨ blk.toNat * 16 + 16 ≤ a → coef.read a = s.coef.read a)

/-! ## The loop filter -/

/-- LF_SEG over pixels that all exist completes; every byte of PIX it may not write and all other state stay; and every pixel of the
segment takes the value of the filter of its kind, also where a stride of 0 puts them all at one address (43_lf R203 to R211). -/
def Obligations.LfSegFiltersTheSegment : Prop :=
  ∀ (s : State) (plane : BitVec 2) (dir : Dir) (kind : Kind), plane.toNat ≤ 2 →
    let x : Int := s.lfx.toNat
    let y : Int := s.lfy.toNat
    let addr (k : Int) : Int := Spec.placeAddr s plane.toNat dir x y k
    let lvl : Int := s.lflvl.toNat
    let sharp : Int := (s.lfcfg.toNat / 2 % 8 : Nat)
    Spec.segInRange s plane.toNat dir kind x y →
      ∃ pix : Memory 8, exec (.lfSeg plane dir kind) s = .next { s with pix := pix, cmdcnt := s.cmdcnt + 1 } ∧
        (∀ a : Nat, (∀ k : Int, -Spec.writeReach kind ≤ k → k < Spec.writeReach kind → (a : Int) ≠ addr k) →
          pix.read a = s.pix.read a) ∧
        (∀ k : Int, -Spec.reach kind ≤ k → k < Spec.reach kind →
          ((pix.read (addr k).toNat).toNat : Int) =
            Spec.filtered kind (Spec.interior lvl sharp) (Spec.hevThreshold lvl) (Spec.edgeLimit kind lvl sharp)
              (fun j => ((s.pix.read (addr j).toNat).toNat : Int)) k)

/-- The LF commands over a pixel that does not exist fault PIX_RANGE: 0xFFFFFFFF for a negative position, else the first failing address in
order from the P side (43_lf R206; 20_memory R81). LF_SEG changes nothing but the fault fields (R211; 60_exceptions R257 b); LF_EDGE and
an LF_MB that is not gated fault with the FINFO of the first of their Segs that fails (43_lf R214, R215) and change nothing else but
PIX, whose bytes in the write set are free values (60_exceptions R257; log 7). -/
def Obligations.LfSegFaultsOutsidePix : Prop :=
  ∀ (s : State) (info : Word),
    (∀ (plane : BitVec 2) (dir : Dir) (kind : Kind), plane.toNat ≤ 2 →
      Spec.segFails s plane.toNat dir kind s.lfx.toNat s.lfy.toNat info →
        exec (.lfSeg plane dir kind) s = .next (Spec.faultFields s 7 3 (encode (.lfSeg plane dir kind)) info)) ∧
    (∀ (plane : BitVec 2) (dir : Dir) (kind : Kind) (lenm1 : BitVec 4) (before after : List Spec.SegAt) (g : Spec.SegAt),
      plane.toNat ≤ 2 →
      Spec.edgeSegs plane.toNat dir kind s.lfx.toNat s.lfy.toNat (lenm1.toNat + 1) = before ++ g :: after →
      (∀ b ∈ before, b.inRange s) → g.fails s info →
        ∃ pix n, exec (.lfEdge plane dir kind lenm1) s = .next (Spec.faultFields { s with pix := pix, freeIx := n }
          7 3 (encode (.lfEdge plane dir kind lenm1)) info)) ∧
    (∀ (mbx mby : BitVec 10) (noinner : Bool) (before after : List Spec.SegAt) (g : Spec.SegAt),
      s.lfcfg.toNat / 16 ≠ 0 → s.lflvl ≠ 0 →
      Spec.macroblockSegs (s.lfcfg.getLsbD 0) mbx.toNat mby.toNat noinner = before ++ g :: after →
      (∀ b ∈ before, b.inRange s) → g.fails s info →
        ∃ pix n, exec (.lfMb mbx mby noinner) s = .next (Spec.faultFields { s with pix := pix, freeIx := n }
          7 3 (encode (.lfMb mbx mby noinner)) info))

/-- LF_SEG, LF_EDGE and LF_MB, completed or faulted, leave every byte of PIX that no Seg of the command may write: the bytes are computed
by the address the machine gives each pixel a Seg may write (43_lf R217 b, f; 60_exceptions R257). -/
def Obligations.LfCommandsWriteOnlyTheirPixels : Prop :=
  ∀ (s t : State) (a : Nat),
    (∀ plane dir kind, exec (.lfSeg plane dir kind) s = .next t →
      a ∉ s.segMayWrite (s.segAtXY plane dir kind) → t.pix.read a = s.pix.read a) ∧
    (∀ plane dir kind lenm1, exec (.lfEdge plane dir kind lenm1) s = .next t →
      a ∉ s.segsMayWrite (edgeOps plane.toNat dir kind s.lfx.toNat s.lfy.toNat (lenm1.toNat + 1)) →
        t.pix.read a = s.pix.read a) ∧
    (∀ mbx mby noinner, exec (.lfMb mbx mby noinner) s = .next t →
      a ∉ s.segsMayWrite (macroblockOps s.simple mbx.toNat mby.toNat noinner) → t.pix.read a = s.pix.read a)

/-- The bytes a Seg may write, in the spec's terms: those of the pixels at places -r to r - 1 that exist, r being 1 for the simple kinds,
2 for kind 3 and 3 for kind 2 (43_lf R217 b). -/
def Obligations.SegMayWriteOnlyNearTheEdge : Prop :=
  ∀ (s : State) (op : SegOp) (a : Nat), op.pl ≤ 2 → a ∈ s.segMayWrite op →
    ∃ k : Int, -Spec.writeReach op.kind ≤ k ∧ k < Spec.writeReach op.kind ∧ 0 ≤ Spec.across op.dir op.x op.y + k ∧
      (a : Int) = Spec.placeAddr s op.pl op.dir op.x op.y k ∧ a < s.params.pixSize

/-- R217 c: when the pixels read are all equal, LF_SEG changes no byte. -/
def Obligations.LfSegLeavesEqualPixels : Prop :=
  ∀ (s t : State) (plane : BitVec 2) (dir : Dir) (kind : Kind) (v : Byte), plane.toNat ≤ 2 →
    (∀ k : Int, -Spec.reach kind ≤ k → k < Spec.reach kind →
      s.pix.read (Spec.placeAddr s plane.toNat dir s.lfx.toNat s.lfy.toNat k).toNat = v) →
    exec (.lfSeg plane dir kind) s = .next t → ∀ a, t.pix.read a = s.pix.read a

/-- R217 d: when the edge test fails, LF_SEG completes and writes nothing. -/
def Obligations.LfSegLeavesSharpEdges : Prop :=
  ∀ (s : State) (plane : BitVec 2) (dir : Dir) (kind : Kind), plane.toNat ≤ 2 →
    let px (k : Int) : Int := ((s.pix.read (Spec.placeAddr s plane.toNat dir s.lfx.toNat s.lfy.toNat k).toNat).toNat : Int)
    Spec.segInRange s plane.toNat dir kind s.lfx.toNat s.lfy.toNat →
    Spec.edgeLimit kind s.lflvl.toNat (s.lfcfg.toNat / 2 % 8 : Nat) < |px (-1) - px 0| * 2 + |px (-2) - px 1| / 2 →
      exec (.lfSeg plane dir kind) s = .next { s with cmdcnt := s.cmdcnt + 1 }

/-- LF_EDGE completes when every pixel of every position exists, and changes PIX and CMDCNT only (43_lf R214). -/
def Obligations.LfEdgeCompletes : Prop :=
  ∀ (s : State) (plane : BitVec 2) (dir : Dir) (kind : Kind) (lenm1 : BitVec 4), plane.toNat ≤ 2 →
    (∀ k : Nat, k ≤ lenm1.toNat →
      match dir with
      | .v => Spec.segInRange s plane.toNat .v kind s.lfx.toNat ((s.lfy.toNat + k : Nat) : Int)
      | .h => Spec.segInRange s plane.toNat .h kind ((s.lfx.toNat + k : Nat) : Int) s.lfy.toNat) →
    ∃ pix, exec (.lfEdge plane dir kind lenm1) s = .next { s with pix := pix, cmdcnt := s.cmdcnt + 1 }

/-- R214: LF_EDGE that completes has the effect of its Segs one after the other, at the positions LFX, LFY on, integers not wrapped to 14
bits. As long as the position stays inside the 14-bit register that is moving LFX or LFY by one and giving LF_SEG at each position, which
leaves the same PIX. -/
def Obligations.LfEdgeIsTheSequenceOfItsSegs : Prop :=
  ∀ (s t : State) (plane : BitVec 2) (dir : Dir) (kind : Kind) (lenm1 : BitVec 4), plane.toNat ≤ 2 → s.fault = false →
    exec (.lfEdge plane dir kind lenm1) s = .next t → t.fault = false →
      Spec.segsEffect s (Spec.edgeSegs plane.toNat dir kind s.lfx.toNat s.lfy.toNat (lenm1.toNat + 1)) s.pix t.pix ∧
      ((match dir with | .v => s.lfy.toNat | .h => s.lfx.toNat) + lenm1.toNat < 2 ^ 14 →
        ∃ u, execSeq ((List.range (lenm1.toNat + 1)).flatMap fun k =>
            [match dir with
              | .v => Instr.lfSety (s.lfy + BitVec.ofNat 14 k)
              | .h => Instr.lfSetx (s.lfx + BitVec.ofNat 14 k),
             Instr.lfSeg plane dir kind]) s = .next u ∧ t.pix = u.pix ∧ u.fault = false)

/-- R216: LF_MB does nothing but count when LFCFG.BASELVL = 0 or LFLVL.LVL = 0. -/
def Obligations.LfMbIsGatedByTheLevels : Prop :=
  ∀ (s : State) (mbx mby : BitVec 10) (noinner : Bool), s.lfcfg.toNat / 16 = 0 ∨ s.lflvl = 0 →
    exec (.lfMb mbx mby noinner) s = .next { s with cmdcnt := s.cmdcnt + 1 }

/-- LF_MB completes when every pixel of every Seg it makes exists (43_lf R215), and so when the macroblock lies inside PIX in the planes
it uses: its last pixel (the largest address) exists, in the luma plane and, for the normal filter, in both chroma planes. It changes PIX
and CMDCNT only. -/
def Obligations.LfMbCompletes : Prop :=
  ∀ (s : State) (mbx mby : BitVec 10) (noinner : Bool),
    (∀ g ∈ Spec.macroblockSegs (s.lfcfg.getLsbD 0) mbx.toNat mby.toNat noinner, g.inRange s) ∨
      (Spec.pixelAddr s 0 (16 * mbx.toNat + 15) (16 * mby.toNat + 15) < s.params.pixSize ∧
        (s.lfcfg.getLsbD 0 = false →
          Spec.pixelAddr s 1 (8 * mbx.toNat + 7) (8 * mby.toNat + 7) < s.params.pixSize ∧
            Spec.pixelAddr s 2 (8 * mbx.toNat + 7) (8 * mby.toNat + 7) < s.params.pixSize)) →
    ∃ pix, exec (.lfMb mbx mby noinner) s = .next { s with pix := pix, cmdcnt := s.cmdcnt + 1 }

/-- R215: LF_MB that is not gated is the sequence of its edges: placing LFX and LFY and giving LF_EDGE for each edge, in the order left,
inner vertical, top, inner horizontal, plane after plane, leaves the same PIX. -/
def Obligations.LfMbIsTheSequenceOfItsEdges : Prop :=
  ∀ (s t : State) (mbx mby : BitVec 10) (noinner : Bool), s.fault = false → s.lfcfg.toNat / 16 ≠ 0 → s.lflvl ≠ 0 →
    exec (.lfMb mbx mby noinner) s = .next t → t.fault = false →
      ∃ u, execSeq (Spec.macroblockEdges (s.lfcfg.getLsbD 0) mbx.toNat mby.toNat noinner) s = .next u ∧ t.pix = u.pix ∧
        u.fault = false

/-- CommonAdjust returns `a` and `b` between -16 and 15 for every line of pixels (43_lf R209). -/
def Obligations.CommonAdjustIsBounded : Prop :=
  ∀ (outer : Bool) (l : Line), -16 ≤ adjustA outer l ∧ adjustA outer l ≤ 15 ∧ -16 ≤ adjustB outer l ∧ adjustB outer l ≤ 15
end

