-- ==== Sys2Proof/Laws/State.lean ====
section
/-! SUPPORT. What each field of the state is after each shared update: one lemma per field per update, true by rfl; and what a context is after one context is replaced. -/

namespace Sys2Proof.Machine

/-! ### complete -/

@[simp] theorem State.complete_result (s : State) : (s.complete).result = s.result := rfl
@[simp] theorem State.complete_cur (s : State) : (s.complete).cur = s.cur := rfl
@[simp] theorem State.complete_cmdcnt (s : State) : (s.complete).cmdcnt = s.cmdcnt + 1 := rfl
@[simp] theorem State.complete_fault (s : State) : (s.complete).fault = s.fault := rfl
@[simp] theorem State.complete_fclass (s : State) : (s.complete).fclass = s.fclass := rfl
@[simp] theorem State.complete_fcode (s : State) : (s.complete).fcode = s.fcode := rfl
@[simp] theorem State.complete_fcmd (s : State) : (s.complete).fcmd = s.fcmd := rfl
@[simp] theorem State.complete_finfo (s : State) : (s.complete).finfo = s.finfo := rfl
@[simp] theorem State.complete_lfcfg (s : State) : (s.complete).lfcfg = s.lfcfg := rfl
@[simp] theorem State.complete_lflvl (s : State) : (s.complete).lflvl = s.lflvl := rfl
@[simp] theorem State.complete_lfx (s : State) : (s.complete).lfx = s.lfx := rfl
@[simp] theorem State.complete_lfy (s : State) : (s.complete).lfy = s.lfy := rfl
@[simp] theorem State.complete_ybase (s : State) : (s.complete).ybase = s.ybase := rfl
@[simp] theorem State.complete_ubase (s : State) : (s.complete).ubase = s.ubase := rfl
@[simp] theorem State.complete_vbase (s : State) : (s.complete).vbase = s.vbase := rfl
@[simp] theorem State.complete_ystride (s : State) : (s.complete).ystride = s.ystride := rfl
@[simp] theorem State.complete_uvstride (s : State) : (s.complete).uvstride = s.uvstride := rfl
@[simp] theorem State.complete_lnz (s : State) : (s.complete).lnz = s.lnz := rfl
@[simp] theorem State.complete_bd (s : State) : (s.complete).bd = s.bd := rfl
@[simp] theorem State.complete_tree (s : State) : (s.complete).tree = s.tree := rfl
@[simp] theorem State.complete_tprob (s : State) : (s.complete).tprob = s.tprob := rfl
@[simp] theorem State.complete_dqf (s : State) : (s.complete).dqf = s.dqf := rfl
@[simp] theorem State.complete_cprob (s : State) : (s.complete).cprob = s.cprob := rfl
@[simp] theorem State.complete_qcoef (s : State) : (s.complete).qcoef = s.qcoef := rfl
@[simp] theorem State.complete_coef (s : State) : (s.complete).coef = s.coef := rfl
@[simp] theorem State.complete_anz (s : State) : (s.complete).anz = s.anz := rfl
@[simp] theorem State.complete_stream (s : State) : (s.complete).stream = s.stream := rfl
@[simp] theorem State.complete_pix (s : State) : (s.complete).pix = s.pix := rfl
@[simp] theorem State.complete_params (s : State) : (s.complete).params = s.params := rfl
@[simp] theorem State.complete_inbox (s : State) : (s.complete).inbox = s.inbox := rfl
@[simp] theorem State.complete_rdata (s : State) : (s.complete).rdata = s.rdata := rfl
@[simp] theorem State.complete_freeIx (s : State) : (s.complete).freeIx = s.freeIx := rfl

/-! ### raise -/

@[simp] theorem State.raise_result (s : State) (w : Word) (t : Trap) : (s.raise w t).result = s.result := rfl
@[simp] theorem State.raise_cur (s : State) (w : Word) (t : Trap) : (s.raise w t).cur = s.cur := rfl
@[simp] theorem State.raise_cmdcnt (s : State) (w : Word) (t : Trap) : (s.raise w t).cmdcnt = s.cmdcnt := rfl
@[simp] theorem State.raise_fault (s : State) (w : Word) (t : Trap) : (s.raise w t).fault = true := rfl
@[simp] theorem State.raise_fclass (s : State) (w : Word) (t : Trap) : (s.raise w t).fclass = t.name.cls := rfl
@[simp] theorem State.raise_fcode (s : State) (w : Word) (t : Trap) : (s.raise w t).fcode = t.name.code := rfl
@[simp] theorem State.raise_fcmd (s : State) (w : Word) (t : Trap) : (s.raise w t).fcmd = w := rfl
@[simp] theorem State.raise_finfo (s : State) (w : Word) (t : Trap) : (s.raise w t).finfo = t.info := rfl
@[simp] theorem State.raise_lfcfg (s : State) (w : Word) (t : Trap) : (s.raise w t).lfcfg = s.lfcfg := rfl
@[simp] theorem State.raise_lflvl (s : State) (w : Word) (t : Trap) : (s.raise w t).lflvl = s.lflvl := rfl
@[simp] theorem State.raise_lfx (s : State) (w : Word) (t : Trap) : (s.raise w t).lfx = s.lfx := rfl
@[simp] theorem State.raise_lfy (s : State) (w : Word) (t : Trap) : (s.raise w t).lfy = s.lfy := rfl
@[simp] theorem State.raise_ybase (s : State) (w : Word) (t : Trap) : (s.raise w t).ybase = s.ybase := rfl
@[simp] theorem State.raise_ubase (s : State) (w : Word) (t : Trap) : (s.raise w t).ubase = s.ubase := rfl
@[simp] theorem State.raise_vbase (s : State) (w : Word) (t : Trap) : (s.raise w t).vbase = s.vbase := rfl
@[simp] theorem State.raise_ystride (s : State) (w : Word) (t : Trap) : (s.raise w t).ystride = s.ystride := rfl
@[simp] theorem State.raise_uvstride (s : State) (w : Word) (t : Trap) : (s.raise w t).uvstride = s.uvstride := rfl
@[simp] theorem State.raise_lnz (s : State) (w : Word) (t : Trap) : (s.raise w t).lnz = s.lnz := rfl
@[simp] theorem State.raise_bd (s : State) (w : Word) (t : Trap) : (s.raise w t).bd = s.bd := rfl
@[simp] theorem State.raise_tree (s : State) (w : Word) (t : Trap) : (s.raise w t).tree = s.tree := rfl
@[simp] theorem State.raise_tprob (s : State) (w : Word) (t : Trap) : (s.raise w t).tprob = s.tprob := rfl
@[simp] theorem State.raise_dqf (s : State) (w : Word) (t : Trap) : (s.raise w t).dqf = s.dqf := rfl
@[simp] theorem State.raise_cprob (s : State) (w : Word) (t : Trap) : (s.raise w t).cprob = s.cprob := rfl
@[simp] theorem State.raise_qcoef (s : State) (w : Word) (t : Trap) : (s.raise w t).qcoef = s.qcoef := rfl
@[simp] theorem State.raise_coef (s : State) (w : Word) (t : Trap) : (s.raise w t).coef = s.coef := rfl
@[simp] theorem State.raise_anz (s : State) (w : Word) (t : Trap) : (s.raise w t).anz = s.anz := rfl
@[simp] theorem State.raise_stream (s : State) (w : Word) (t : Trap) : (s.raise w t).stream = s.stream := rfl
@[simp] theorem State.raise_pix (s : State) (w : Word) (t : Trap) : (s.raise w t).pix = s.pix := rfl
@[simp] theorem State.raise_params (s : State) (w : Word) (t : Trap) : (s.raise w t).params = s.params := rfl
@[simp] theorem State.raise_inbox (s : State) (w : Word) (t : Trap) : (s.raise w t).inbox = s.inbox := rfl
@[simp] theorem State.raise_rdata (s : State) (w : Word) (t : Trap) : (s.raise w t).rdata = s.rdata := rfl
@[simp] theorem State.raise_freeIx (s : State) (w : Word) (t : Trap) : (s.raise w t).freeIx = s.freeIx := rfl

/-! ### setCtx -/

@[simp] theorem State.setCtx_result (s : State) (k : Fin 9) (c : Ctx) : (s.setCtx k c).result = s.result := rfl
@[simp] theorem State.setCtx_cur (s : State) (k : Fin 9) (c : Ctx) : (s.setCtx k c).cur = s.cur := rfl
@[simp] theorem State.setCtx_cmdcnt (s : State) (k : Fin 9) (c : Ctx) : (s.setCtx k c).cmdcnt = s.cmdcnt := rfl
@[simp] theorem State.setCtx_fault (s : State) (k : Fin 9) (c : Ctx) : (s.setCtx k c).fault = s.fault := rfl
@[simp] theorem State.setCtx_fclass (s : State) (k : Fin 9) (c : Ctx) : (s.setCtx k c).fclass = s.fclass := rfl
@[simp] theorem State.setCtx_fcode (s : State) (k : Fin 9) (c : Ctx) : (s.setCtx k c).fcode = s.fcode := rfl
@[simp] theorem State.setCtx_fcmd (s : State) (k : Fin 9) (c : Ctx) : (s.setCtx k c).fcmd = s.fcmd := rfl
@[simp] theorem State.setCtx_finfo (s : State) (k : Fin 9) (c : Ctx) : (s.setCtx k c).finfo = s.finfo := rfl
@[simp] theorem State.setCtx_lfcfg (s : State) (k : Fin 9) (c : Ctx) : (s.setCtx k c).lfcfg = s.lfcfg := rfl
@[simp] theorem State.setCtx_lflvl (s : State) (k : Fin 9) (c : Ctx) : (s.setCtx k c).lflvl = s.lflvl := rfl
@[simp] theorem State.setCtx_lfx (s : State) (k : Fin 9) (c : Ctx) : (s.setCtx k c).lfx = s.lfx := rfl
@[simp] theorem State.setCtx_lfy (s : State) (k : Fin 9) (c : Ctx) : (s.setCtx k c).lfy = s.lfy := rfl
@[simp] theorem State.setCtx_ybase (s : State) (k : Fin 9) (c : Ctx) : (s.setCtx k c).ybase = s.ybase := rfl
@[simp] theorem State.setCtx_ubase (s : State) (k : Fin 9) (c : Ctx) : (s.setCtx k c).ubase = s.ubase := rfl
@[simp] theorem State.setCtx_vbase (s : State) (k : Fin 9) (c : Ctx) : (s.setCtx k c).vbase = s.vbase := rfl
@[simp] theorem State.setCtx_ystride (s : State) (k : Fin 9) (c : Ctx) : (s.setCtx k c).ystride = s.ystride := rfl
@[simp] theorem State.setCtx_uvstride (s : State) (k : Fin 9) (c : Ctx) : (s.setCtx k c).uvstride = s.uvstride := rfl
@[simp] theorem State.setCtx_lnz (s : State) (k : Fin 9) (c : Ctx) : (s.setCtx k c).lnz = s.lnz := rfl
@[simp] theorem State.setCtx_bd (s : State) (k : Fin 9) (c : Ctx) : (s.setCtx k c).bd = s.bd.set k c := rfl
@[simp] theorem State.setCtx_tree (s : State) (k : Fin 9) (c : Ctx) : (s.setCtx k c).tree = s.tree := rfl
@[simp] theorem State.setCtx_tprob (s : State) (k : Fin 9) (c : Ctx) : (s.setCtx k c).tprob = s.tprob := rfl
@[simp] theorem State.setCtx_dqf (s : State) (k : Fin 9) (c : Ctx) : (s.setCtx k c).dqf = s.dqf := rfl
@[simp] theorem State.setCtx_cprob (s : State) (k : Fin 9) (c : Ctx) : (s.setCtx k c).cprob = s.cprob := rfl
@[simp] theorem State.setCtx_qcoef (s : State) (k : Fin 9) (c : Ctx) : (s.setCtx k c).qcoef = s.qcoef := rfl
@[simp] theorem State.setCtx_coef (s : State) (k : Fin 9) (c : Ctx) : (s.setCtx k c).coef = s.coef := rfl
@[simp] theorem State.setCtx_anz (s : State) (k : Fin 9) (c : Ctx) : (s.setCtx k c).anz = s.anz := rfl
@[simp] theorem State.setCtx_stream (s : State) (k : Fin 9) (c : Ctx) : (s.setCtx k c).stream = s.stream := rfl
@[simp] theorem State.setCtx_pix (s : State) (k : Fin 9) (c : Ctx) : (s.setCtx k c).pix = s.pix := rfl
@[simp] theorem State.setCtx_params (s : State) (k : Fin 9) (c : Ctx) : (s.setCtx k c).params = s.params := rfl
@[simp] theorem State.setCtx_inbox (s : State) (k : Fin 9) (c : Ctx) : (s.setCtx k c).inbox = s.inbox := rfl
@[simp] theorem State.setCtx_rdata (s : State) (k : Fin 9) (c : Ctx) : (s.setCtx k c).rdata = s.rdata := rfl
@[simp] theorem State.setCtx_freeIx (s : State) (k : Fin 9) (c : Ctx) : (s.setCtx k c).freeIx = s.freeIx := rfl

/-! ### scrambleSeek -/

@[simp] theorem State.scrambleSeek_result (s : State) (k : Fin 9) : (s.scrambleSeek k).result = s.result := rfl
@[simp] theorem State.scrambleSeek_cur (s : State) (k : Fin 9) : (s.scrambleSeek k).cur = s.cur := rfl
@[simp] theorem State.scrambleSeek_cmdcnt (s : State) (k : Fin 9) : (s.scrambleSeek k).cmdcnt = s.cmdcnt := rfl
@[simp] theorem State.scrambleSeek_fault (s : State) (k : Fin 9) : (s.scrambleSeek k).fault = s.fault := rfl
@[simp] theorem State.scrambleSeek_fclass (s : State) (k : Fin 9) : (s.scrambleSeek k).fclass = s.fclass := rfl
@[simp] theorem State.scrambleSeek_fcode (s : State) (k : Fin 9) : (s.scrambleSeek k).fcode = s.fcode := rfl
@[simp] theorem State.scrambleSeek_fcmd (s : State) (k : Fin 9) : (s.scrambleSeek k).fcmd = s.fcmd := rfl
@[simp] theorem State.scrambleSeek_finfo (s : State) (k : Fin 9) : (s.scrambleSeek k).finfo = s.finfo := rfl
@[simp] theorem State.scrambleSeek_lfcfg (s : State) (k : Fin 9) : (s.scrambleSeek k).lfcfg = s.lfcfg := rfl
@[simp] theorem State.scrambleSeek_lflvl (s : State) (k : Fin 9) : (s.scrambleSeek k).lflvl = s.lflvl := rfl
@[simp] theorem State.scrambleSeek_lfx (s : State) (k : Fin 9) : (s.scrambleSeek k).lfx = s.lfx := rfl
@[simp] theorem State.scrambleSeek_lfy (s : State) (k : Fin 9) : (s.scrambleSeek k).lfy = s.lfy := rfl
@[simp] theorem State.scrambleSeek_ybase (s : State) (k : Fin 9) : (s.scrambleSeek k).ybase = s.ybase := rfl
@[simp] theorem State.scrambleSeek_ubase (s : State) (k : Fin 9) : (s.scrambleSeek k).ubase = s.ubase := rfl
@[simp] theorem State.scrambleSeek_vbase (s : State) (k : Fin 9) : (s.scrambleSeek k).vbase = s.vbase := rfl
@[simp] theorem State.scrambleSeek_ystride (s : State) (k : Fin 9) : (s.scrambleSeek k).ystride = s.ystride := rfl
@[simp] theorem State.scrambleSeek_uvstride (s : State) (k : Fin 9) : (s.scrambleSeek k).uvstride = s.uvstride := rfl
@[simp] theorem State.scrambleSeek_lnz (s : State) (k : Fin 9) : (s.scrambleSeek k).lnz = s.lnz := rfl
@[simp] theorem State.scrambleSeek_bd (s : State) (k : Fin 9) : (s.scrambleSeek k).bd = s.bd.set k { (s.ctx k).scramble s.freeIx with init := false } := rfl
@[simp] theorem State.scrambleSeek_tree (s : State) (k : Fin 9) : (s.scrambleSeek k).tree = s.tree := rfl
@[simp] theorem State.scrambleSeek_tprob (s : State) (k : Fin 9) : (s.scrambleSeek k).tprob = s.tprob := rfl
@[simp] theorem State.scrambleSeek_dqf (s : State) (k : Fin 9) : (s.scrambleSeek k).dqf = s.dqf := rfl
@[simp] theorem State.scrambleSeek_cprob (s : State) (k : Fin 9) : (s.scrambleSeek k).cprob = s.cprob := rfl
@[simp] theorem State.scrambleSeek_qcoef (s : State) (k : Fin 9) : (s.scrambleSeek k).qcoef = s.qcoef := rfl
@[simp] theorem State.scrambleSeek_coef (s : State) (k : Fin 9) : (s.scrambleSeek k).coef = s.coef := rfl
@[simp] theorem State.scrambleSeek_anz (s : State) (k : Fin 9) : (s.scrambleSeek k).anz = s.anz := rfl
@[simp] theorem State.scrambleSeek_stream (s : State) (k : Fin 9) : (s.scrambleSeek k).stream = s.stream := rfl
@[simp] theorem State.scrambleSeek_pix (s : State) (k : Fin 9) : (s.scrambleSeek k).pix = s.pix := rfl
@[simp] theorem State.scrambleSeek_params (s : State) (k : Fin 9) : (s.scrambleSeek k).params = s.params := rfl
@[simp] theorem State.scrambleSeek_inbox (s : State) (k : Fin 9) : (s.scrambleSeek k).inbox = s.inbox := rfl
@[simp] theorem State.scrambleSeek_rdata (s : State) (k : Fin 9) : (s.scrambleSeek k).rdata = s.rdata := rfl
@[simp] theorem State.scrambleSeek_freeIx (s : State) (k : Fin 9) : (s.scrambleSeek k).freeIx = s.freeIx + 4 := rfl

/-! ### scrambleRead -/

@[simp] theorem State.scrambleRead_result (s : State) : (s.scrambleRead).result = freeBits 32 (s.freeIx + 4) := rfl
@[simp] theorem State.scrambleRead_cur (s : State) : (s.scrambleRead).cur = s.cur := rfl
@[simp] theorem State.scrambleRead_cmdcnt (s : State) : (s.scrambleRead).cmdcnt = s.cmdcnt := rfl
@[simp] theorem State.scrambleRead_fault (s : State) : (s.scrambleRead).fault = s.fault := rfl
@[simp] theorem State.scrambleRead_fclass (s : State) : (s.scrambleRead).fclass = s.fclass := rfl
@[simp] theorem State.scrambleRead_fcode (s : State) : (s.scrambleRead).fcode = s.fcode := rfl
@[simp] theorem State.scrambleRead_fcmd (s : State) : (s.scrambleRead).fcmd = s.fcmd := rfl
@[simp] theorem State.scrambleRead_finfo (s : State) : (s.scrambleRead).finfo = s.finfo := rfl
@[simp] theorem State.scrambleRead_lfcfg (s : State) : (s.scrambleRead).lfcfg = s.lfcfg := rfl
@[simp] theorem State.scrambleRead_lflvl (s : State) : (s.scrambleRead).lflvl = s.lflvl := rfl
@[simp] theorem State.scrambleRead_lfx (s : State) : (s.scrambleRead).lfx = s.lfx := rfl
@[simp] theorem State.scrambleRead_lfy (s : State) : (s.scrambleRead).lfy = s.lfy := rfl
@[simp] theorem State.scrambleRead_ybase (s : State) : (s.scrambleRead).ybase = s.ybase := rfl
@[simp] theorem State.scrambleRead_ubase (s : State) : (s.scrambleRead).ubase = s.ubase := rfl
@[simp] theorem State.scrambleRead_vbase (s : State) : (s.scrambleRead).vbase = s.vbase := rfl
@[simp] theorem State.scrambleRead_ystride (s : State) : (s.scrambleRead).ystride = s.ystride := rfl
@[simp] theorem State.scrambleRead_uvstride (s : State) : (s.scrambleRead).uvstride = s.uvstride := rfl
@[simp] theorem State.scrambleRead_lnz (s : State) : (s.scrambleRead).lnz = s.lnz := rfl
@[simp] theorem State.scrambleRead_bd (s : State) : (s.scrambleRead).bd = s.bd.set s.cur (s.curCtx.scramble s.freeIx) := rfl
@[simp] theorem State.scrambleRead_tree (s : State) : (s.scrambleRead).tree = s.tree := rfl
@[simp] theorem State.scrambleRead_tprob (s : State) : (s.scrambleRead).tprob = s.tprob := rfl
@[simp] theorem State.scrambleRead_dqf (s : State) : (s.scrambleRead).dqf = s.dqf := rfl
@[simp] theorem State.scrambleRead_cprob (s : State) : (s.scrambleRead).cprob = s.cprob := rfl
@[simp] theorem State.scrambleRead_qcoef (s : State) : (s.scrambleRead).qcoef = s.qcoef := rfl
@[simp] theorem State.scrambleRead_coef (s : State) : (s.scrambleRead).coef = s.coef := rfl
@[simp] theorem State.scrambleRead_anz (s : State) : (s.scrambleRead).anz = s.anz := rfl
@[simp] theorem State.scrambleRead_stream (s : State) : (s.scrambleRead).stream = s.stream := rfl
@[simp] theorem State.scrambleRead_pix (s : State) : (s.scrambleRead).pix = s.pix := rfl
@[simp] theorem State.scrambleRead_params (s : State) : (s.scrambleRead).params = s.params := rfl
@[simp] theorem State.scrambleRead_inbox (s : State) : (s.scrambleRead).inbox = s.inbox := rfl
@[simp] theorem State.scrambleRead_rdata (s : State) : (s.scrambleRead).rdata = s.rdata := rfl
@[simp] theorem State.scrambleRead_freeIx (s : State) : (s.scrambleRead).freeIx = s.freeIx + 5 := rfl

/-! ### resetRegs -/

@[simp] theorem State.resetRegs_result (s : State) : (s.resetRegs).result = State.reset.result := rfl
@[simp] theorem State.resetRegs_cur (s : State) : (s.resetRegs).cur = State.reset.cur := rfl
@[simp] theorem State.resetRegs_cmdcnt (s : State) : (s.resetRegs).cmdcnt = State.reset.cmdcnt := rfl
@[simp] theorem State.resetRegs_fault (s : State) : (s.resetRegs).fault = State.reset.fault := rfl
@[simp] theorem State.resetRegs_fclass (s : State) : (s.resetRegs).fclass = State.reset.fclass := rfl
@[simp] theorem State.resetRegs_fcode (s : State) : (s.resetRegs).fcode = State.reset.fcode := rfl
@[simp] theorem State.resetRegs_fcmd (s : State) : (s.resetRegs).fcmd = State.reset.fcmd := rfl
@[simp] theorem State.resetRegs_finfo (s : State) : (s.resetRegs).finfo = State.reset.finfo := rfl
@[simp] theorem State.resetRegs_lfcfg (s : State) : (s.resetRegs).lfcfg = State.reset.lfcfg := rfl
@[simp] theorem State.resetRegs_lflvl (s : State) : (s.resetRegs).lflvl = State.reset.lflvl := rfl
@[simp] theorem State.resetRegs_lfx (s : State) : (s.resetRegs).lfx = State.reset.lfx := rfl
@[simp] theorem State.resetRegs_lfy (s : State) : (s.resetRegs).lfy = State.reset.lfy := rfl
@[simp] theorem State.resetRegs_ybase (s : State) : (s.resetRegs).ybase = State.reset.ybase := rfl
@[simp] theorem State.resetRegs_ubase (s : State) : (s.resetRegs).ubase = State.reset.ubase := rfl
@[simp] theorem State.resetRegs_vbase (s : State) : (s.resetRegs).vbase = State.reset.vbase := rfl
@[simp] theorem State.resetRegs_ystride (s : State) : (s.resetRegs).ystride = State.reset.ystride := rfl
@[simp] theorem State.resetRegs_uvstride (s : State) : (s.resetRegs).uvstride = State.reset.uvstride := rfl
@[simp] theorem State.resetRegs_lnz (s : State) : (s.resetRegs).lnz = State.reset.lnz := rfl
@[simp] theorem State.resetRegs_bd (s : State) : (s.resetRegs).bd = State.reset.bd := rfl
@[simp] theorem State.resetRegs_tree (s : State) : (s.resetRegs).tree = s.tree := rfl
@[simp] theorem State.resetRegs_tprob (s : State) : (s.resetRegs).tprob = s.tprob := rfl
@[simp] theorem State.resetRegs_dqf (s : State) : (s.resetRegs).dqf = s.dqf := rfl
@[simp] theorem State.resetRegs_cprob (s : State) : (s.resetRegs).cprob = s.cprob := rfl
@[simp] theorem State.resetRegs_qcoef (s : State) : (s.resetRegs).qcoef = s.qcoef := rfl
@[simp] theorem State.resetRegs_coef (s : State) : (s.resetRegs).coef = s.coef := rfl
@[simp] theorem State.resetRegs_anz (s : State) : (s.resetRegs).anz = s.anz := rfl
@[simp] theorem State.resetRegs_stream (s : State) : (s.resetRegs).stream = s.stream := rfl
@[simp] theorem State.resetRegs_pix (s : State) : (s.resetRegs).pix = s.pix := rfl
@[simp] theorem State.resetRegs_params (s : State) : (s.resetRegs).params = s.params := rfl
@[simp] theorem State.resetRegs_inbox (s : State) : (s.resetRegs).inbox = s.inbox := rfl
@[simp] theorem State.resetRegs_rdata (s : State) : (s.resetRegs).rdata = s.rdata := rfl
@[simp] theorem State.resetRegs_freeIx (s : State) : (s.resetRegs).freeIx = s.freeIx := rfl

/-! ### Contexts -/

@[simp] theorem State.ctx_complete (s : State) (k : Fin 9) : s.complete.ctx k = s.ctx k := rfl

@[simp] theorem State.ctx_raise (s : State) (w : Word) (t : Trap) (k : Fin 9) : (s.raise w t).ctx k = s.ctx k := rfl

/-- The replaced context reads as what was put there. -/
@[simp] theorem State.ctx_setCtx_same (s : State) (k : Fin 9) (c : Ctx) : (s.setCtx k c).ctx k = c := by
  simp [State.ctx, State.setCtx]

/-- Every other context reads as before. -/
theorem State.ctx_setCtx_ne (s : State) {j k : Fin 9} (c : Ctx) (h : j ≠ k) : (s.setCtx k c).ctx j = s.ctx j := by
  have : k.val ≠ j.val := fun e => h (Fin.ext e.symm)
  simp [State.ctx, State.setCtx, Vector.getElem_set_ne, this]

/-- A context after one context is replaced. -/
theorem State.ctx_setCtx (s : State) (j k : Fin 9) (c : Ctx) :
    (s.setCtx k c).ctx j = if j = k then c else s.ctx j := by
  by_cases h : j = k
  · subst h; simp
  · simp [h, State.ctx_setCtx_ne]

/-- Contexts are read from `bd` alone. -/
theorem State.ctx_congr {s t : State} (h : t.bd = s.bd) (k : Fin 9) : t.ctx k = s.ctx k := by
  simp [State.ctx, h]

/-- Every context of the reset state has INIT = 0 (10_state R51). -/
@[simp] theorem State.ctx_reset (k : Fin 9) : State.reset.ctx k = Ctx.reset := by
  simp [State.ctx, State.reset]

@[simp] theorem State.ctx_resetRegs (s : State) (k : Fin 9) : s.resetRegs.ctx k = Ctx.reset := by
  rw [State.ctx_congr (s := State.reset) (t := s.resetRegs) rfl, State.ctx_reset]

end Sys2Proof.Machine
end

