-- ==== Sys2Proof/Laws/BD.lean ====
section
/-! SUPPORT. The laws of the Boolean decoder: what Fetch, one shift, the normalisation loop, ReadBool and the reads built on it can do to a context, when they succeed, and which fault they raise (40_bd R132 to R141). -/

namespace Sys2Proof.Machine

/-- How many shifts a context has made, counted in stream bits: eight for each byte below POS, and BITCNT. -/
def Ctx.shifted (c : Ctx) : Nat := 8 * c.pos.toNat + c.bitcnt.toNat

/-- `c'` is `c` after `n` shifts: range registers and INIT kept, the cursor inside the range. -/
structure Ctx.Adv (c c' : Ctx) (n : Nat) : Prop where
  startAddr : c'.startAddr = c.startAddr
  endAddr   : c'.endAddr = c.endAddr
  init      : c'.init = c.init
  shifted   : c'.shifted = c.shifted + n
  inRange   : c.pos.toNat ≤ c.endAddr.toNat → c'.pos.toNat ≤ c'.endAddr.toNat

theorem Ctx.Adv.refl (c : Ctx) : c.Adv c 0 := ⟨rfl, rfl, rfl, rfl, id⟩

theorem Ctx.Adv.trans {c c' c'' : Ctx} {m n : Nat} (h : c.Adv c' m) (h' : c'.Adv c'' n) : c.Adv c'' (m + n) :=
  ⟨h'.startAddr.trans h.startAddr, h'.endAddr.trans h.endAddr, h'.init.trans h.init,
    by rw [h'.shifted, h.shifted]; omega, fun hc => h'.inRange (h.inRange hc)⟩

theorem Ctx.Adv.pos_le {c c' : Ctx} {n : Nat} (h : c.Adv c' n) : c.pos.toNat ≤ c'.pos.toNat := by
  have := h.shifted
  have h1 := c.bitcnt.isLt
  have h2 := c'.bitcnt.isLt
  unfold Ctx.shifted at this
  omega

/-! ## Fetch -/

theorem fetch_of_lt {stream : Memory 8} {c : Ctx} (h : c.pos.toNat < c.endAddr.toNat) :
    fetch stream c = .ok (stream.read c.pos.toNat, { c with pos := c.pos + 1 }) := by
  unfold fetch
  rw [if_neg]
  rw [BitVec.le_def]; omega

theorem fetch_of_le {stream : Memory 8} {c : Ctx} (h : c.endAddr.toNat ≤ c.pos.toNat) :
    fetch stream c = .error ⟨.bdOverrun, c.pos⟩ := by
  unfold fetch
  rw [if_pos]
  rw [BitVec.le_def]; exact h

/-- The cursor does not wrap: POS < END <= 2^32 - 1 (40_bd R132). -/
theorem pos_succ {c : Ctx} (h : c.pos.toNat < c.endAddr.toNat) : (c.pos + 1).toNat = c.pos.toNat + 1 := by
  have := c.endAddr.isLt
  rw [BitVec.toNat_add, show (1 : BitVec 32).toNat = 1 from rfl]
  omega

/-! ## One shift -/

/-- The context one shift leaves when no byte is due. -/
theorem shiftOnce_of_ne {stream : Memory 8} {c : Ctx} (h : c.bitcnt ≠ 7#3) :
    shiftOnce stream c =
      .ok { c with value := c.value <<< 1, range := c.range <<< 1, bitcnt := c.bitcnt + 1#3 } := by
  simp [shiftOnce, h]

/-- The context the eighth shift leaves. -/
theorem shiftOnce_of_lt {stream : Memory 8} {c : Ctx} (h : c.bitcnt = 7#3) (hp : c.pos.toNat < c.endAddr.toNat) :
    shiftOnce stream c =
      .ok { c with
        pos := c.pos + 1
        value := c.value <<< 1 ||| (stream.read c.pos.toNat).setWidth 16
        range := c.range <<< 1
        bitcnt := 0#3 } := by
  simp [shiftOnce, h, fetch_of_lt hp]

/-- The eighth shift at the end of the range. -/
theorem shiftOnce_of_le {stream : Memory 8} {c : Ctx} (h : c.bitcnt = 7#3) (hp : c.endAddr.toNat ≤ c.pos.toNat) :
    shiftOnce stream c = .error ⟨.bdOverrun, c.pos⟩ := by
  simp [shiftOnce, h, fetch_of_le hp]

theorem bitcnt_succ {b : BitVec 3} (h : b ≠ 7#3) : (b + 1#3).toNat = b.toNat + 1 := by
  revert h; revert b; decide

/-- Everything one shift can do when it succeeds. -/
theorem shiftOnce_ok {stream : Memory 8} {c c' : Ctx} (h : shiftOnce stream c = .ok c') :
    c.Adv c' 1 ∧ c'.range = c.range <<< 1 ∧
      ((c.bitcnt ≠ 7#3 ∧ c'.pos = c.pos ∧ c'.value = c.value <<< 1 ∧ c'.bitcnt = c.bitcnt + 1#3) ∨
        (c.bitcnt = 7#3 ∧ c.pos.toNat < c.endAddr.toNat ∧ c'.pos = c.pos + 1 ∧ c'.bitcnt = 0#3 ∧
          c'.value = c.value <<< 1 ||| (stream.read c.pos.toNat).setWidth 16)) := by
  by_cases h7 : c.bitcnt = 7#3
  · by_cases hp : c.pos.toNat < c.endAddr.toNat
    · rw [shiftOnce_of_lt h7 hp] at h
      obtain rfl := Except.ok.inj h
      refine ⟨⟨rfl, rfl, rfl, ?_, fun _ => ?_⟩, rfl, .inr ⟨h7, hp, rfl, rfl, rfl⟩⟩
      · show 8 * (c.pos + 1).toNat + 0 = c.shifted + 1
        rw [pos_succ hp, Ctx.shifted, h7]; simp; omega
      · show (c.pos + 1).toNat ≤ c.endAddr.toNat
        rw [pos_succ hp]; omega
    · rw [shiftOnce_of_le h7 (by omega)] at h
      cases h
  · rw [shiftOnce_of_ne h7] at h
    obtain rfl := Except.ok.inj h
    refine ⟨⟨rfl, rfl, rfl, ?_, id⟩, rfl, .inl ⟨h7, rfl, rfl, rfl⟩⟩
    simp [Ctx.shifted, bitcnt_succ h7]; omega

/-- One shift faults only at the end of the range. -/
theorem shiftOnce_error {stream : Memory 8} {c : Ctx} {t : Trap} (h : shiftOnce stream c = .error t) :
    c.bitcnt = 7#3 ∧ c.endAddr.toNat ≤ c.pos.toNat ∧ t = ⟨.bdOverrun, c.pos⟩ := by
  by_cases h7 : c.bitcnt = 7#3
  · by_cases hp : c.pos.toNat < c.endAddr.toNat
    · rw [shiftOnce_of_lt h7 hp] at h; cases h
    · rw [shiftOnce_of_le h7 (by omega)] at h
      exact ⟨h7, by omega, (Except.error.inj h).symm⟩
  · rw [shiftOnce_of_ne h7] at h; cases h

/-- One shift succeeds while the range has a bit left: shift number `8 * END + 7` is the last (40_bd R136). -/
theorem shiftOnce_succeeds {stream : Memory 8} {c : Ctx} (h : c.shifted + 1 ≤ 8 * c.endAddr.toNat + 7) :
    ∃ c', shiftOnce stream c = .ok c' := by
  by_cases h7 : c.bitcnt = 7#3
  · refine ⟨_, shiftOnce_of_lt h7 ?_⟩
    simp [Ctx.shifted, h7] at h
    omega
  · exact ⟨_, shiftOnce_of_ne h7⟩

/-! ## The normalisation loop -/

theorem normalise_succ (stream : Memory 8) (fuel : Nat) (c : Ctx) :
    normalise stream (fuel + 1) c =
      if c.range < 128#8 then
        match shiftOnce stream c with
        | .error t => .error t
        | .ok c' => normalise stream fuel c'
      else .ok c := rfl

theorem normalise_adv {stream : Memory 8} {fuel : Nat} {c c' : Ctx} (h : normalise stream fuel c = .ok c') :
    ∃ n ≤ fuel, c.Adv c' n := by
  induction fuel generalizing c with
  | zero => obtain rfl := Except.ok.inj h; exact ⟨0, le_refl 0, .refl _⟩
  | succ fuel ih =>
    rw [normalise_succ] at h
    split at h
    · split at h
      · cases h
      · next c1 h1 =>
        obtain ⟨n, hn, ha⟩ := ih h
        exact ⟨1 + n, by omega, (shiftOnce_ok h1).1.trans ha⟩
    · obtain rfl := Except.ok.inj h; exact ⟨0, by omega, .refl _⟩

theorem normalise_error {stream : Memory 8} {fuel : Nat} {c : Ctx} {t : Trap}
    (h : normalise stream fuel c = .error t) (hp : c.pos.toNat ≤ c.endAddr.toNat) : t = ⟨.bdOverrun, c.endAddr⟩ := by
  induction fuel generalizing c with
  | zero => cases h
  | succ fuel ih =>
    rw [normalise_succ] at h
    split at h
    · split at h
      · next h1 =>
        obtain ⟨-, hle, rfl⟩ := shiftOnce_error h1
        obtain rfl := Except.error.inj h
        rw [BitVec.eq_of_toNat_eq (show c.pos.toNat = c.endAddr.toNat by omega)]
      · next c1 h1 =>
        have ha := (shiftOnce_ok h1).1
        rw [← ha.endAddr]
        exact ih h (ha.inRange hp)
    · cases h

theorem normalise_succeeds {stream : Memory 8} {fuel : Nat} {c : Ctx}
    (h : c.shifted + fuel ≤ 8 * c.endAddr.toNat + 7) : ∃ c', normalise stream fuel c = .ok c' := by
  induction fuel generalizing c with
  | zero => exact ⟨c, rfl⟩
  | succ fuel ih =>
    rw [normalise_succ]
    split
    · obtain ⟨c1, h1⟩ := shiftOnce_succeeds (stream := stream) (c := c) (by omega)
      rw [h1]
      have ha := (shiftOnce_ok h1).1
      exact ih (by rw [ha.shifted, ha.endAddr]; omega)
    · exact ⟨c, rfl⟩

/-- Doubling a RANGE below 128. -/
theorem range_double {r : BitVec 8} (h : r < 128#8) : (r <<< 1).toNat = 2 * r.toNat := by
  have : r.toNat < 128 := by simpa [BitVec.lt_def] using h
  rw [BitVec.toNat_shiftLeft, Nat.shiftLeft_eq]
  omega

/-- The loop ends with RANGE at 128 or above (40_bd R139). -/
theorem normalise_range {stream : Memory 8} {fuel : Nat} {c c' : Ctx} (h : normalise stream fuel c = .ok c')
    (hr : 128 ≤ c.range.toNat * 2 ^ fuel) : 128 ≤ c'.range.toNat := by
  induction fuel generalizing c with
  | zero => obtain rfl := Except.ok.inj h; simpa using hr
  | succ fuel ih =>
    rw [normalise_succ] at h
    split at h
    · next hlt =>
      split at h
      · cases h
      · next c1 h1 =>
        refine ih h ?_
        rw [(shiftOnce_ok h1).2.1, range_double hlt]
        rw [pow_succ] at hr
        nlinarith
    · next hlt =>
      obtain rfl := Except.ok.inj h
      simpa [BitVec.lt_def] using hlt

/-! ## The decision -/

/-- `split` lies strictly inside the interval (40_bd R141). -/
theorem split_bounds {r p : BitVec 8} (h : 128 ≤ r.toNat) : 1 ≤ split r p ∧ split r p + 1 ≤ r.toNat := by
  have hp := p.isLt
  have hr := r.isLt
  unfold split
  refine ⟨by omega, ?_⟩
  have h1 : (r.toNat - 1) * p.toNat ≤ (r.toNat - 1) * 255 := Nat.mul_le_mul_left _ (by omega)
  have h2 : (r.toNat - 1) * p.toNat / 256 ≤ (r.toNat - 1) * 255 / 256 := Nat.div_le_div_right h1
  omega

theorem decideBit_fields (p : BitVec 8) (c : Ctx) :
    (decideBit p c).2.startAddr = c.startAddr ∧ (decideBit p c).2.endAddr = c.endAddr ∧
      (decideBit p c).2.pos = c.pos ∧ (decideBit p c).2.bitcnt = c.bitcnt ∧ (decideBit p c).2.init = c.init := by
  unfold decideBit
  dsimp only
  split <;> exact ⟨rfl, rfl, rfl, rfl, rfl⟩

theorem decideBit_adv (p : BitVec 8) (c : Ctx) : c.Adv (decideBit p c).2 0 := by
  obtain ⟨h1, h2, h3, h4, h5⟩ := decideBit_fields p c
  exact ⟨h1, h2, h5, by simp [Ctx.shifted, h3, h4], by rw [h3, h2]; exact id⟩

/-- The chosen half of the interval, as numbers (40_bd R133). -/
theorem decideBit_spec {p : BitVec 8} {c : Ctx} (h : 128 ≤ c.range.toNat) :
    (split c.range p * 256 ≤ c.value.toNat ∧ (decideBit p c).1 = true ∧
        (decideBit p c).2.range.toNat = c.range.toNat - split c.range p ∧
        (decideBit p c).2.value.toNat = c.value.toNat - split c.range p * 256) ∨
      (c.value.toNat < split c.range p * 256 ∧ (decideBit p c).1 = false ∧
        (decideBit p c).2.range.toNat = split c.range p ∧ (decideBit p c).2.value = c.value) := by
  obtain ⟨h1, h2⟩ := split_bounds (p := p) h
  have hr := c.range.isLt
  have hv := c.value.isLt
  unfold decideBit
  dsimp only
  split
  · next hle =>
    refine .inl ⟨hle, rfl, ?_, ?_⟩
    · rw [BitVec.toNat_sub, BitVec.toNat_ofNat]; omega
    · rw [BitVec.toNat_sub, BitVec.toNat_ofNat]; omega
  · next hle =>
    refine .inr ⟨by omega, rfl, ?_, rfl⟩
    rw [BitVec.toNat_ofNat]; omega

/-- The chosen half is not empty and smaller than the interval (40_bd R139). -/
theorem decideBit_range {p : BitVec 8} {c : Ctx} (h : 128 ≤ c.range.toNat) :
    1 ≤ (decideBit p c).2.range.toNat ∧ (decideBit p c).2.range.toNat + 1 ≤ c.range.toNat := by
  obtain ⟨h1, h2⟩ := split_bounds (p := p) h
  rcases decideBit_spec (p := p) h with ⟨-, -, hr, -⟩ | ⟨-, -, hr, -⟩ <;> omega

/-! ## ReadBool -/

/-- What a successful ReadBool is made of. -/
theorem readBool_ok {stream : Memory 8} {p : BitVec 8} {c c' : Ctx} {b : Bool}
    (h : readBool stream p c = .ok (b, c')) :
    b = (decideBit p c).1 ∧ normalise stream 7 (decideBit p c).2 = .ok c' := by
  unfold readBool at h
  split at h
  · cases h
  · next c1 h1 =>
    obtain ⟨rfl, rfl⟩ := Prod.mk.inj (Except.ok.inj h)
    exact ⟨rfl, h1⟩

/-- ReadBool makes at most seven shifts and keeps the range registers and INIT (40_bd R133, R141). -/
theorem readBool_adv {stream : Memory 8} {p : BitVec 8} {c c' : Ctx} {b : Bool}
    (h : readBool stream p c = .ok (b, c')) : ∃ n ≤ 7, c.Adv c' n := by
  obtain ⟨n, hn, ha⟩ := normalise_adv (readBool_ok h).2
  exact ⟨0 + n, by omega, (decideBit_adv p c).trans ha⟩

/-- RANGE stays at 128 or above (40_bd R139). -/
theorem readBool_range {stream : Memory 8} {p : BitVec 8} {c c' : Ctx} {b : Bool}
    (h : readBool stream p c = .ok (b, c')) (hr : 128 ≤ c.range.toNat) : 128 ≤ c'.range.toNat := by
  refine normalise_range (readBool_ok h).2 ?_
  have := (decideBit_range (p := p) hr).1
  omega

/-- A ReadBool that makes no shift makes RANGE smaller (40_bd R139). -/
theorem readBool_no_shift {stream : Memory 8} {p : BitVec 8} {c c' : Ctx} {b : Bool}
    (h : readBool stream p c = .ok (b, c')) (hr : 128 ≤ c.range.toNat) (hs : c'.shifted = c.shifted) :
    c'.range.toNat + 1 ≤ c.range.toNat := by
  have hd := decideBit_range (p := p) hr
  have hn := (readBool_ok h).2
  rw [normalise_succ] at hn
  split at hn
  · split at hn
    · cases hn
    · next c1 h1 =>
      obtain ⟨n, -, ha⟩ := normalise_adv hn
      have h2 := ((decideBit_adv p c).trans ((shiftOnce_ok h1).1.trans ha)).shifted
      omega
  · obtain rfl := Except.ok.inj hn
    exact hd.2

/-- ReadBool faults only with BD_OVERRUN, with END as its information (60_exceptions R256). -/
theorem readBool_error {stream : Memory 8} {p : BitVec 8} {c : Ctx} {t : Trap}
    (h : readBool stream p c = .error t) (hp : c.pos.toNat ≤ c.endAddr.toNat) : t = ⟨.bdOverrun, c.endAddr⟩ := by
  have hf := decideBit_fields p c
  unfold readBool at h
  split at h
  · next h1 =>
    obtain rfl := Except.error.inj h
    have := normalise_error h1 (by rw [hf.2.2.1, hf.2.1]; exact hp)
    rw [this, hf.2.1]
  · cases h

/-- ReadBool succeeds while seven shifts are left. -/
theorem readBool_succeeds {stream : Memory 8} (p : BitVec 8) {c : Ctx} (h : c.shifted ≤ 8 * c.endAddr.toNat) :
    ∃ b c', readBool stream p c = .ok (b, c') := by
  have ha := decideBit_adv p c
  obtain ⟨c', h1⟩ := normalise_succeeds (stream := stream) (fuel := 7) (c := (decideBit p c).2)
    (by rw [ha.shifted, ha.endAddr]; omega)
  exact ⟨(decideBit p c).1, c', by simp [readBool, h1]⟩

/-- At probability 128 a read shifts at most once (40_bd R135). -/
theorem readBool_half_adv {stream : Memory 8} {c c' : Ctx} {b : Bool}
    (h : readBool stream 128#8 c = .ok (b, c')) (hr : 128 ≤ c.range.toNat) : ∃ n ≤ 1, c.Adv c' n := by
  have hd : 64 ≤ (decideBit 128#8 c).2.range.toNat := by
    have hlt := c.range.isLt
    have hs : split c.range 128#8 = 1 + (c.range.toNat - 1) / 2 := by
      unfold split
      have : (128#8).toNat = 128 := rfl
      rw [this]; omega
    rcases decideBit_spec (p := 128#8) hr with ⟨-, -, h1, -⟩ | ⟨-, -, h1, -⟩ <;> omega
  have hn := (readBool_ok h).2
  rw [normalise_succ] at hn
  split at hn
  · next hlt =>
    split at hn
    · cases hn
    · next c1 h1 =>
      have hge : ¬ c1.range < 128#8 := by
        have := range_double hlt
        rw [BitVec.lt_def, (shiftOnce_ok h1).2.1, this]
        simp; omega
      rw [normalise_succ, if_neg hge] at hn
      obtain rfl := Except.ok.inj hn
      exact ⟨1, le_refl 1, by simpa using (decideBit_adv 128#8 c).trans (shiftOnce_ok h1).1⟩
  · obtain rfl := Except.ok.inj hn
    exact ⟨0, by omega, decideBit_adv 128#8 c⟩

/-- At probability 128 one shift left is enough. -/
theorem readBool_half_succeeds {stream : Memory 8} {c : Ctx} (hr : 128 ≤ c.range.toNat)
    (h : c.shifted + 1 ≤ 8 * c.endAddr.toNat + 7) : ∃ b c', readBool stream 128#8 c = .ok (b, c') := by
  have ha := decideBit_adv 128#8 c
  have hd : 64 ≤ (decideBit 128#8 c).2.range.toNat := by
    have hlt := c.range.isLt
    have hs : split c.range 128#8 = 1 + (c.range.toNat - 1) / 2 := by
      unfold split
      have : (128#8).toNat = 128 := rfl
      rw [this]; omega
    rcases decideBit_spec (p := 128#8) hr with ⟨-, -, h1, -⟩ | ⟨-, -, h1, -⟩ <;> omega
  suffices ∃ c', normalise stream 7 (decideBit 128#8 c).2 = .ok c' by
    obtain ⟨c', h1⟩ := this
    exact ⟨(decideBit 128#8 c).1, c', by simp [readBool, h1]⟩
  rw [normalise_succ]
  split
  · next hlt =>
    obtain ⟨c1, h1⟩ := shiftOnce_succeeds (stream := stream) (c := (decideBit 128#8 c).2)
      (by rw [ha.shifted, ha.endAddr]; omega)
    have hge : ¬ c1.range < 128#8 := by
      have := range_double hlt
      rw [BitVec.lt_def, (shiftOnce_ok h1).2.1, this]
      simp; omega
    rw [h1]
    exact ⟨c1, by simp [normalise_succ, hge]⟩
  · exact ⟨_, rfl⟩

/-! ## The zeros in VALUE -/

/-- The low BITCNT bits of VALUE are 0, kept by one shift: the byte is merged without carrying (40_bd R133). -/
theorem shiftOnce_zeros {stream : Memory 8} {c c' : Ctx} (h : shiftOnce stream c = .ok c')
    (hz : c.value.toNat % 2 ^ c.bitcnt.toNat = 0) : c'.value.toNat % 2 ^ c'.bitcnt.toNat = 0 := by
  rcases (shiftOnce_ok h).2.2 with ⟨h7, -, hv, hb⟩ | ⟨-, -, -, hb, -⟩
  · rw [hv, hb, bitcnt_succ h7, BitVec.toNat_shiftLeft, Nat.shiftLeft_eq, pow_one]
    have hlt : c.bitcnt.toNat + 1 ≤ 16 := by have := c.bitcnt.isLt; omega
    rw [Nat.mod_mod_of_dvd _ (pow_dvd_pow 2 hlt)]
    obtain ⟨q, hq⟩ := Nat.dvd_of_mod_eq_zero hz
    rw [hq, pow_succ]
    exact Nat.mod_eq_zero_of_dvd ⟨q, by ring⟩
  · rw [hb]; simp [Nat.mod_one]

theorem normalise_zeros {stream : Memory 8} {fuel : Nat} {c c' : Ctx} (h : normalise stream fuel c = .ok c')
    (hz : c.value.toNat % 2 ^ c.bitcnt.toNat = 0) : c'.value.toNat % 2 ^ c'.bitcnt.toNat = 0 := by
  induction fuel generalizing c with
  | zero => obtain rfl := Except.ok.inj h; exact hz
  | succ fuel ih =>
    rw [normalise_succ] at h
    split at h
    · split at h
      · cases h
      · next c1 h1 => exact ih h (shiftOnce_zeros h1 hz)
    · obtain rfl := Except.ok.inj h; exact hz

theorem readBool_zeros {stream : Memory 8} {p : BitVec 8} {c c' : Ctx} {b : Bool}
    (h : readBool stream p c = .ok (b, c')) (hr : 128 ≤ c.range.toNat)
    (hz : c.value.toNat % 2 ^ c.bitcnt.toNat = 0) : c'.value.toNat % 2 ^ c'.bitcnt.toNat = 0 := by
  refine normalise_zeros (readBool_ok h).2 ?_
  rw [(decideBit_fields p c).2.2.2.1]
  rcases decideBit_spec (p := p) hr with ⟨hle, -, -, hv⟩ | ⟨-, -, -, hv⟩
  · rw [hv]
    have hd : 2 ^ c.bitcnt.toNat ∣ 256 := by
      have := c.bitcnt.isLt
      exact (pow_dvd_pow 2 (show c.bitcnt.toNat ≤ 8 by omega)).trans (by norm_num)
    exact Nat.mod_eq_zero_of_dvd
      (Nat.dvd_sub (Nat.dvd_of_mod_eq_zero hz) (hd.trans (Dvd.intro_left _ rfl)))
  · rw [hv]; exact hz

/-! ## Reads built on ReadBool -/

/-- What every read keeps of a context: the range registers, INIT, the cursor inside the range, RANGE and the zeros; at most
`n` shifts. -/
structure Ctx.Read (c c' : Ctx) (n : Nat) : Prop where
  adv   : ∃ m ≤ n, c.Adv c' m
  range : 128 ≤ c.range.toNat → 128 ≤ c'.range.toNat
  zeros : 128 ≤ c.range.toNat → c.value.toNat % 2 ^ c.bitcnt.toNat = 0 → c'.value.toNat % 2 ^ c'.bitcnt.toNat = 0

theorem Ctx.Read.refl (c : Ctx) : c.Read c 0 := ⟨⟨0, le_refl 0, .refl c⟩, id, fun _ => id⟩

theorem Ctx.Read.trans {c c' c'' : Ctx} {m n : Nat} (h : c.Read c' m) (h' : c'.Read c'' n) : c.Read c'' (m + n) := by
  obtain ⟨k, hk, ha⟩ := h.adv
  obtain ⟨k', hk', ha'⟩ := h'.adv
  exact ⟨⟨k + k', by omega, ha.trans ha'⟩, fun hr => h'.range (h.range hr),
    fun hr hz => h'.zeros (h.range hr) (h.zeros hr hz)⟩

theorem Ctx.Read.mono {c c' : Ctx} {m n : Nat} (h : c.Read c' m) (hmn : m ≤ n) : c.Read c' n := by
  obtain ⟨k, hk, ha⟩ := h.adv
  exact ⟨⟨k, by omega, ha⟩, h.range, h.zeros⟩

theorem readBool_read {stream : Memory 8} {p : BitVec 8} {c c' : Ctx} {b : Bool}
    (h : readBool stream p c = .ok (b, c')) : c.Read c' 7 :=
  ⟨readBool_adv h, readBool_range h, readBool_zeros h⟩

theorem readBits_cons (stream : Memory 8) (p : Byte) (ps : List Byte) (acc : Nat) (c : Ctx) :
    readBits stream (p :: ps) acc c =
      match readBool stream p c with
      | .error t => .error t
      | .ok (b, c') => readBits stream ps (acc * 2 + b.toNat) c' := rfl

theorem readBits_read {stream : Memory 8} {ps : List Byte} {acc v : Nat} {c c' : Ctx}
    (h : readBits stream ps acc c = .ok (v, c')) : c.Read c' (7 * ps.length) := by
  induction ps generalizing acc c with
  | nil =>
    obtain ⟨-, rfl⟩ := Prod.mk.inj (Except.ok.inj h)
    exact .refl _
  | cons p ps ih =>
    rw [readBits_cons] at h
    split at h
    · cases h
    · next h1 => exact ((readBool_read h1).trans (ih h)).mono (by simp; omega)

/-- The value of `n` bits read into `acc` (40_bd R135). -/
theorem readBits_bounds {stream : Memory 8} {ps : List Byte} {acc v : Nat} {c c' : Ctx}
    (h : readBits stream ps acc c = .ok (v, c')) :
    acc * 2 ^ ps.length ≤ v ∧ v < (acc + 1) * 2 ^ ps.length := by
  induction ps generalizing acc c with
  | nil => obtain ⟨rfl, -⟩ := Prod.mk.inj (Except.ok.inj h); simp
  | cons p ps ih =>
    rw [readBits_cons] at h
    split at h
    · cases h
    · next b c1 h1 =>
      have := ih h
      have hb : b.toNat ≤ 1 := by cases b <;> simp
      have hp : 0 < 2 ^ ps.length := by positivity
      rw [List.length_cons, pow_succ]
      constructor
      · nlinarith
      · nlinarith

theorem readBits_error {stream : Memory 8} {ps : List Byte} {acc : Nat} {c : Ctx} {t : Trap}
    (h : readBits stream ps acc c = .error t) (hp : c.pos.toNat ≤ c.endAddr.toNat) : t = ⟨.bdOverrun, c.endAddr⟩ := by
  induction ps generalizing acc c with
  | nil => cases h
  | cons p ps ih =>
    rw [readBits_cons] at h
    split at h
    · next h1 => obtain rfl := Except.error.inj h; exact readBool_error h1 hp
    · next h1 =>
      obtain ⟨n, -, ha⟩ := readBool_adv h1
      rw [← ha.endAddr]
      exact ih h (ha.inRange hp)

theorem readBits_succeeds {stream : Memory 8} (ps : List Byte) (acc : Nat) {c : Ctx}
    (h : c.shifted + 7 * ps.length ≤ 8 * c.endAddr.toNat + 7) :
    ∃ v c', readBits stream ps acc c = .ok (v, c') := by
  induction ps generalizing acc c with
  | nil => exact ⟨acc, c, rfl⟩
  | cons p ps ih =>
    simp only [List.length_cons] at h
    obtain ⟨b, c1, h1⟩ := readBool_succeeds (stream := stream) p (c := c) (by omega)
    obtain ⟨n, hn, ha⟩ := readBool_adv h1
    rw [readBits_cons, h1]
    exact ih _ (by rw [ha.shifted, ha.endAddr]; omega)

/-- `n` reads at probability 128 make at most `n` shifts (40_bd R135). -/
theorem readBits_half_adv {stream : Memory 8} {n acc v : Nat} {c c' : Ctx}
    (h : readBits stream (List.replicate n 128#8) acc c = .ok (v, c')) (hr : 128 ≤ c.range.toNat) :
    ∃ m ≤ n, c.Adv c' m := by
  induction n generalizing acc c with
  | zero =>
    obtain ⟨-, rfl⟩ := Prod.mk.inj (Except.ok.inj h)
    exact ⟨0, le_refl 0, .refl _⟩
  | succ n ih =>
    rw [List.replicate_succ, readBits_cons] at h
    split at h
    · cases h
    · next h1 =>
      obtain ⟨m, hm, ha⟩ := readBool_half_adv h1 hr
      obtain ⟨m', hm', ha'⟩ := ih h (readBool_range h1 hr)
      exact ⟨m + m', by omega, ha.trans ha'⟩

theorem readBits_half_succeeds {stream : Memory 8} (n acc : Nat) {c : Ctx} (hr : 128 ≤ c.range.toNat)
    (h : c.shifted + n ≤ 8 * c.endAddr.toNat + 7) :
    ∃ v c', readBits stream (List.replicate n 128#8) acc c = .ok (v, c') := by
  induction n generalizing acc c with
  | zero => exact ⟨acc, c, rfl⟩
  | succ n ih =>
    obtain ⟨b, c1, h1⟩ := readBool_half_succeeds (stream := stream) hr (by omega)
    obtain ⟨m, hm, ha⟩ := readBool_half_adv h1 hr
    rw [List.replicate_succ, readBits_cons, h1]
    exact ih _ (readBool_range h1 hr) (by rw [ha.shifted, ha.endAddr]; omega)

/-! ## The tree walk -/

theorem treeWalk_succ (stream tree tprob : Memory 8) (fuel i : Nat) (c : Ctx) :
    treeWalk stream tree tprob (fuel + 1) i c =
      if 62 < i then .error ⟨.treeRange, BitVec.ofNat 32 i⟩
      else
        match readBool stream (tprob.read (i / 2)) c with
        | .error t => .error t
        | .ok (b, c') =>
          if (tree.read (i + b.toNat)).toInt < 0 then .ok (BitVec.ofInt 32 (-(tree.read (i + b.toNat)).toInt), c')
          else treeWalk stream tree tprob fuel (tree.read (i + b.toNat)).toInt.toNat c' := rfl

theorem treeWalk_read {stream tree tprob : Memory 8} {fuel i : Nat} {c c' : Ctx} {v : Word}
    (h : treeWalk stream tree tprob fuel i c = .ok (v, c')) : c.Read c' (7 * fuel) := by
  induction fuel generalizing i c with
  | zero => cases h
  | succ fuel ih =>
    rw [treeWalk_succ] at h
    split at h
    · cases h
    · split at h
      · cases h
      · next h1 =>
        split at h
        · obtain ⟨-, rfl⟩ := Prod.mk.inj (Except.ok.inj h)
          exact (readBool_read h1).mono (by omega)
        · exact ((readBool_read h1).trans (ih h)).mono (by omega)

/-- The two faults of a walk: TREE_RANGE with an index 63 to 127, or BD_OVERRUN with END (40_bd R137). -/
theorem treeWalk_error {stream tree tprob : Memory 8} {fuel i : Nat} {c : Ctx} {t : Trap}
    (h : treeWalk stream tree tprob fuel i c = .error t) (hp : c.pos.toNat ≤ c.endAddr.toNat) (hi : i ≤ 127) :
    t = ⟨.bdOverrun, c.endAddr⟩ ∨ ∃ j, 63 ≤ j ∧ j ≤ 127 ∧ t = ⟨.treeRange, BitVec.ofNat 32 j⟩ := by
  induction fuel generalizing i c with
  | zero => exact .inl (Except.error.inj h).symm
  | succ fuel ih =>
    rw [treeWalk_succ] at h
    split at h
    · exact .inr ⟨i, by omega, hi, (Except.error.inj h).symm⟩
    · split at h
      · next h1 => obtain rfl := Except.error.inj h; exact .inl (readBool_error h1 hp)
      · next b c1 h1 =>
        split at h
        · cases h
        · obtain ⟨n, -, ha⟩ := readBool_adv h1
          rw [← ha.endAddr]
          refine ih h (ha.inRange hp) ?_
          have := BitVec.toInt_lt (x := tree.read (i + b.toNat))
          norm_num at this
          omega

/-! ## Normalisation in closed form -/

/-- Normalisation by `k` shifts when no byte falls due (40_bd R133). -/
theorem normalise_no_fetch {stream : Memory 8} (k : Nat) :
    ∀ (fuel : Nat) (c : Ctx), k ≤ fuel → 128 ≤ c.range.toNat * 2 ^ k → c.range.toNat * 2 ^ k ≤ 255 →
    c.bitcnt.toNat + k ≤ 7 →
    normalise stream fuel c = .ok { c with
      value := c.value <<< k, range := c.range <<< k, bitcnt := c.bitcnt + BitVec.ofNat 3 k } := by
  induction k with
  | zero =>
    intro fuel c _ h1 _ _
    cases fuel with
    | zero => simp [normalise]
    | succ f => 
      rw [normalise_succ, if_neg (by rw [BitVec.lt_def]; simp; omega)]; simp
  | succ k ih =>
    intro fuel c hf h1 h2 hb
    obtain ⟨f, rfl⟩ := Nat.exists_eq_add_of_le' (show 1 ≤ fuel by omega)
    rw [pow_succ] at h1 h2
    have hp : 1 ≤ 2 ^ k := Nat.one_le_two_pow
    have hlt : c.range < 128#8 := by
      rw [BitVec.lt_def]; simp; nlinarith
    have hd := range_double hlt
    have hb7 : c.bitcnt ≠ 7#3 := by intro h; rw [h] at hb; simp at hb
    have hbs := bitcnt_succ hb7
    rw [normalise_succ, if_pos hlt, shiftOnce_of_ne hb7]
    dsimp only
    rw [ih f _ (by omega) (by dsimp only; rw [hd]; nlinarith) (by dsimp only; rw [hd]; nlinarith) (by dsimp only; rw [hbs]; omega)]
    dsimp only
    congr 2
    · rw [← BitVec.shiftLeft_add, Nat.add_comm]
    · rw [← BitVec.shiftLeft_add, Nat.add_comm]
    · apply BitVec.eq_of_toNat_eq; simp only [BitVec.toNat_add, BitVec.toNat_ofNat]; omega

/-- Normalisation by `k` shifts when the eighth shift since the last merge is among them (40_bd R133). -/
theorem normalise_fetch {stream : Memory 8} (k : Nat) :
    ∀ (fuel : Nat) (c : Ctx), k ≤ fuel → 128 ≤ c.range.toNat * 2 ^ k → c.range.toNat * 2 ^ k ≤ 255 →
    8 ≤ c.bitcnt.toNat + k → k ≤ 7 → c.pos.toNat < c.endAddr.toNat → 
    normalise stream fuel c = .ok { c with
      pos := c.pos + 1
      value := c.value <<< k ||| ((stream.read c.pos.toNat).setWidth 16) <<< (c.bitcnt.toNat + k - 8), range := c.range <<< k, bitcnt := BitVec.ofNat 3 (c.bitcnt.toNat + k - 8) } := by
  induction k with
  | zero =>
    intro fuel c _ h1 _ h3 _; have := c.bitcnt.isLt; omega
  | succ k ih =>
    intro fuel c hf h1 h2 hb hk hpos
    obtain ⟨f, rfl⟩ := Nat.exists_eq_add_of_le' (show 1 ≤ fuel by omega)
    rw [pow_succ] at h1 h2
    have hp : 1 ≤ 2 ^ k := Nat.one_le_two_pow
    have hlt : c.range < 128#8 := by
      rw [BitVec.lt_def]; simp; nlinarith
    have hd := range_double hlt
    rw [normalise_succ, if_pos hlt]
    by_cases hb7 : c.bitcnt = 7#3
    · rw [shiftOnce_of_lt hb7 hpos]
      dsimp only
      rw [normalise_no_fetch k f _ (by omega) (by dsimp only; rw [hd]; nlinarith) (by dsimp only; rw [hd]; nlinarith) (by dsimp only; simp; try omega)]
      have : c.bitcnt.toNat = 7 := by rw [hb7]; rfl
      rw [this, show 7 + (k + 1) - 8 = k by omega]
      dsimp only
      congr 2
      · rw [BitVec.shiftLeft_or_distrib, ← BitVec.shiftLeft_add, Nat.add_comm]
      · rw [← BitVec.shiftLeft_add, Nat.add_comm]
      · simp
    · have hbs := bitcnt_succ hb7
      rw [shiftOnce_of_ne hb7]
      dsimp only
      rw [ih f _ (by omega) (by dsimp only; rw [hd]; nlinarith) (by dsimp only; rw [hd]; nlinarith) (by dsimp only; rw [hbs]; omega) (by omega) (by exact hpos)]
      dsimp only
      rw [hbs, show c.bitcnt.toNat + 1 + k - 8 = c.bitcnt.toNat + (k + 1) - 8 by omega]
      congr 2
      · rw [← BitVec.shiftLeft_add, Nat.add_comm 1 k]
      · rw [← BitVec.shiftLeft_add, Nat.add_comm]

/-- The same at the end of the range: BD_OVERRUN with the cursor (40_bd R132). -/
theorem normalise_overrun {stream : Memory 8} (k : Nat) :
    ∀ (fuel : Nat) (c : Ctx), k ≤ fuel → 128 ≤ c.range.toNat * 2 ^ k → c.range.toNat * 2 ^ k ≤ 255 →
    8 ≤ c.bitcnt.toNat + k → c.endAddr.toNat ≤ c.pos.toNat → 
    normalise stream fuel c = .error ⟨.bdOverrun, c.pos⟩ := by
  induction k with
  | zero =>
    intro fuel c _ h1 _ h3 _; have := c.bitcnt.isLt; omega
  | succ k ih =>
    intro fuel c hf h1 h2 hb hpos
    obtain ⟨f, rfl⟩ := Nat.exists_eq_add_of_le' (show 1 ≤ fuel by omega)
    rw [pow_succ] at h1 h2
    have hp : 1 ≤ 2 ^ k := Nat.one_le_two_pow
    have hlt : c.range < 128#8 := by
      rw [BitVec.lt_def]; simp; nlinarith
    have hd := range_double hlt
    rw [normalise_succ, if_pos hlt]
    by_cases hb7 : c.bitcnt = 7#3
    · rw [shiftOnce_of_le hb7 hpos]
    · have hbs := bitcnt_succ hb7
      rw [shiftOnce_of_ne hb7]
      dsimp only
      rw [ih f _ (by omega) (by dsimp only; rw [hd]; nlinarith) (by dsimp only; rw [hd]; nlinarith) (by dsimp only; rw [hbs]; omega) (by exact hpos)]

/-! ## Which faults a read can raise, whatever the context -/

theorem shiftOnce_error_name {stream : Memory 8} {c : Ctx} {t : Trap} (h : shiftOnce stream c = .error t) :
    t.name = .bdOverrun := by
  unfold shiftOnce fetch at h
  split at h
  · split at h
    · next h1 =>
      split at h1
      · obtain rfl := Except.error.inj h1; obtain rfl := Except.error.inj h; rfl
      · cases h1
    · cases h
  · cases h

theorem normalise_error_name {stream : Memory 8} {fuel : Nat} {c : Ctx} {t : Trap}
    (h : normalise stream fuel c = .error t) : t.name = .bdOverrun := by
  induction fuel generalizing c with
  | zero => cases h
  | succ fuel ih =>
    rw [normalise_succ] at h
    split at h
    · split at h
      · next h1 => obtain rfl := Except.error.inj h; exact shiftOnce_error_name h1
      · exact ih h
    · cases h

theorem readBool_error_name {stream : Memory 8} {p : BitVec 8} {c : Ctx} {t : Trap}
    (h : readBool stream p c = .error t) : t.name = .bdOverrun := by
  unfold readBool at h
  split at h
  · next h1 => obtain rfl := Except.error.inj h; exact normalise_error_name h1
  · cases h

theorem readBits_error_name {stream : Memory 8} {ps : List Byte} {acc : Nat} {c : Ctx} {t : Trap}
    (h : readBits stream ps acc c = .error t) : t.name = .bdOverrun := by
  induction ps generalizing acc c with
  | nil => cases h
  | cons p ps ih =>
    rw [readBits_cons] at h
    split at h
    · next h1 => obtain rfl := Except.error.inj h; exact readBool_error_name h1
    · exact ih h

theorem treeWalk_error_name {stream tree tprob : Memory 8} {fuel i : Nat} {c : Ctx} {t : Trap}
    (h : treeWalk stream tree tprob fuel i c = .error t) : t.name = .bdOverrun ∨ t.name = .treeRange := by
  induction fuel generalizing i c with
  | zero => obtain rfl := Except.error.inj h; exact .inl rfl
  | succ fuel ih =>
    rw [treeWalk_succ] at h
    split at h
    · obtain rfl := Except.error.inj h; exact .inr rfl
    · split at h
      · next h1 => obtain rfl := Except.error.inj h; exact .inl (readBool_error_name h1)
      · split at h
        · cases h
        · exact ih h

/-! ## A read depends on the stream between POS and END only (20_memory R80) -/

/-- Two streams that agree where a context can still fetch. -/
def Ctx.Agree (c : Ctx) (m m' : Memory 8) : Prop :=
  ∀ a, c.pos.toNat ≤ a → a < c.endAddr.toNat → m.read a = m'.read a

theorem Ctx.Adv.agree {c c' : Ctx} {n : Nat} {m m' : Memory 8} (h : c.Adv c' n) (ha : c.Agree m m') : c'.Agree m m' :=
  fun a h1 h2 => ha a (h.pos_le.trans h1) (by rw [← h.endAddr]; exact h2)

theorem Ctx.Read.agree {c c' : Ctx} {n : Nat} {m m' : Memory 8} (h : c.Read c' n) (ha : c.Agree m m') : c'.Agree m m' :=
  h.adv.elim fun _ hk => hk.2.agree ha

theorem fetch_congr {m m' : Memory 8} {c : Ctx} (h : c.Agree m m') : fetch m c = fetch m' c := by
  by_cases hp : c.pos.toNat < c.endAddr.toNat
  · rw [fetch_of_lt hp, fetch_of_lt hp, h _ (le_refl _) hp]
  · rw [fetch_of_le (by omega), fetch_of_le (by omega)]

theorem shiftOnce_congr {m m' : Memory 8} {c : Ctx} (h : c.Agree m m') : shiftOnce m c = shiftOnce m' c := by
  unfold shiftOnce
  rw [fetch_congr h]

theorem normalise_congr {m m' : Memory 8} (fuel : Nat) {c : Ctx} (h : c.Agree m m') :
    normalise m fuel c = normalise m' fuel c := by
  induction fuel generalizing c with
  | zero => rfl
  | succ fuel ih =>
    rw [normalise_succ, normalise_succ, ← shiftOnce_congr h]
    cases h1 : shiftOnce m c with
    | error t => rfl
    | ok c1 => simp only [ih ((shiftOnce_ok h1).1.agree h)]

theorem readBool_congr {m m' : Memory 8} (p : BitVec 8) {c : Ctx} (h : c.Agree m m') :
    readBool m p c = readBool m' p c := by
  unfold readBool
  rw [normalise_congr 7 ((decideBit_adv p c).agree h)]

theorem readBits_congr {m m' : Memory 8} (ps : List Byte) (acc : Nat) {c : Ctx} (h : c.Agree m m') :
    readBits m ps acc c = readBits m' ps acc c := by
  induction ps generalizing acc c with
  | nil => rfl
  | cons p ps ih =>
    rw [readBits_cons, readBits_cons, ← readBool_congr p h]
    cases h1 : readBool m p c with
    | error t => rfl
    | ok r => exact ih _ ((readBool_read h1).agree h)

theorem treeWalk_congr {m m' : Memory 8} (tree tprob : Memory 8) (fuel i : Nat) {c : Ctx} (h : c.Agree m m') :
    treeWalk m tree tprob fuel i c = treeWalk m' tree tprob fuel i c := by
  induction fuel generalizing i c with
  | zero => rfl
  | succ fuel ih =>
    rw [treeWalk_succ, treeWalk_succ, ← readBool_congr _ h]
    cases h1 : readBool m (tprob.read (i / 2)) c with
    | error t => rfl
    | ok r => simp only [ih _ ((readBool_read h1).agree h)]

/-! ## How long a walk can be (40_bd R139) -/

/-- A bound on the reads a context has left: 128 for every shift left, and the steps RANGE can still fall without a shift. -/
def Ctx.readsLeft (c : Ctx) : Nat := 128 * (8 * c.endAddr.toNat + 7 - c.shifted) + (c.range.toNat - 127)

theorem readsLeft_pos {c : Ctx} (hr : 128 ≤ c.range.toNat) : 1 ≤ c.readsLeft := by
  unfold Ctx.readsLeft; omega

theorem readsLeft_le_walkBound {c : Ctx} (hp : c.pos.toNat ≤ c.endAddr.toNat) : c.readsLeft ≤ walkBound c := by
  have := c.range.isLt
  unfold Ctx.readsLeft walkBound Ctx.shifted
  omega

/-- Every read uses up one of them: it shifts, or RANGE falls. -/
theorem readBool_readsLeft {stream : Memory 8} {p : BitVec 8} {c c' : Ctx} {b : Bool}
    (h : readBool stream p c = .ok (b, c')) (hr : 128 ≤ c.range.toNat) (hp : c.pos.toNat ≤ c.endAddr.toNat) :
    c'.readsLeft + 1 ≤ c.readsLeft := by
  obtain ⟨n, -, ha⟩ := readBool_adv h
  have h1 := ha.shifted
  have h2 := ha.endAddr
  have h3 := ha.inRange hp
  have h4 := c'.range.isLt
  have h5 := c'.bitcnt.isLt
  have h6 := readBool_range h hr
  unfold Ctx.readsLeft
  rw [h2] at h3 ⊢
  by_cases hn : n = 0
  · have := readBool_no_shift h hr (by rw [h1, hn]; rfl)
    omega
  · have hs : c'.shifted ≤ 8 * c.endAddr.toNat + 7 := by unfold Ctx.shifted; omega
    omega

/-- A walk with that many passes or more is the walk: its result does not depend on how many more (40_bd R139). -/
theorem treeWalk_stable {stream tree tprob : Memory 8} (n i : Nat) {c : Ctx} (hr : 128 ≤ c.range.toNat)
    (hp : c.pos.toNat ≤ c.endAddr.toNat) {fuel fuel' : Nat} (hn : c.readsLeft ≤ n) (hf : n ≤ fuel) (hf' : n ≤ fuel') :
    treeWalk stream tree tprob fuel i c = treeWalk stream tree tprob fuel' i c := by
  induction n generalizing i c fuel fuel' with
  | zero => have := readsLeft_pos hr; omega
  | succ n ih =>
    obtain ⟨f, rfl⟩ := Nat.exists_eq_add_of_le' (show 1 ≤ fuel by omega)
    obtain ⟨f', rfl⟩ := Nat.exists_eq_add_of_le' (show 1 ≤ fuel' by omega)
    rw [treeWalk_succ, treeWalk_succ]
    split
    · rfl
    · cases h1 : readBool stream (tprob.read (i / 2)) c with
      | error t => rfl
      | ok r =>
        obtain ⟨b, c1⟩ := r
        have hl := readBool_readsLeft h1 hr hp
        obtain ⟨_, -, ha⟩ := readBool_adv h1
        have hi := ih (tree.read (i + b.toNat)).toInt.toNat (fuel := f) (fuel' := f') (readBool_range h1 hr)
          (ha.inRange hp) (by omega) (by omega) (by omega)
        simp only [hi]

/-! ## BD_SEEK -/

/-- A seek over a range of two bytes or more (40_bd R131). -/
theorem seek_of_le {stream : Memory 8} {c : Ctx} (h : c.startAddr.toNat + 2 ≤ c.endAddr.toNat) :
    seek stream c = .ok
      { c with
        pos := c.startAddr + 2
        value := stream.read c.startAddr.toNat ++ stream.read (c.startAddr.toNat + 1)
        range := 255#8
        bitcnt := 0#3
        init := true } := by
  have h1 : (({ c with init := false, pos := c.startAddr } : Ctx).pos.toNat
      < ({ c with init := false, pos := c.startAddr } : Ctx).endAddr.toNat) := by
    show c.startAddr.toNat < c.endAddr.toNat; omega
  have h2 : (c.startAddr + 1).toNat = c.startAddr.toNat + 1 := pos_succ h1
  have h3 : (({ c with init := false, pos := c.startAddr + 1 } : Ctx).pos.toNat
      < ({ c with init := false, pos := c.startAddr + 1 } : Ctx).endAddr.toNat) := by
    show (c.startAddr + 1).toNat < c.endAddr.toNat; omega
  unfold seek
  rw [fetch_of_lt h1]
  dsimp only
  rw [fetch_of_lt h3]
  dsimp only
  rw [h2]
  congr 2
  rw [BitVec.add_assoc]; rfl

/-- A seek over a shorter range: BD_OVERRUN, with START for an empty range and START + 1 for one byte (40_bd R131). -/
theorem seek_of_lt {stream : Memory 8} {c : Ctx} (h : c.startAddr.toNat ≤ c.endAddr.toNat)
    (h' : c.endAddr.toNat < c.startAddr.toNat + 2) : seek stream c = .error ⟨.bdOverrun, c.endAddr⟩ := by
  unfold seek
  by_cases he : c.startAddr.toNat = c.endAddr.toNat
  · rw [fetch_of_le (show c.endAddr.toNat ≤ c.startAddr.toNat by omega)]
    dsimp only
    rw [BitVec.eq_of_toNat_eq he]
  · have h1 : (({ c with init := false, pos := c.startAddr } : Ctx).pos.toNat
        < ({ c with init := false, pos := c.startAddr } : Ctx).endAddr.toNat) := by
      show c.startAddr.toNat < c.endAddr.toNat; omega
    have h2 : (c.startAddr + 1).toNat = c.startAddr.toNat + 1 := pos_succ h1
    rw [fetch_of_lt h1]
    dsimp only
    rw [fetch_of_le (show c.endAddr.toNat ≤ (c.startAddr + 1).toNat by omega)]
    dsimp only
    rw [BitVec.eq_of_toNat_eq (show (c.startAddr + 1).toNat = c.endAddr.toNat by omega)]

/-- A seek faults only with BD_OVERRUN (40_bd R131). -/
theorem seek_error_name {stream : Memory 8} {c : Ctx} {t : Trap} (h : seek stream c = .error t) : t.name = .bdOverrun := by
  have hf {c : Ctx} {t : Trap} (h : fetch stream c = .error t) : t.name = .bdOverrun := by
    unfold fetch at h
    split at h
    · obtain rfl := Except.error.inj h; rfl
    · cases h
  unfold seek at h
  split at h
  · next h1 => obtain rfl := Except.error.inj h; exact hf h1
  · split at h
    · next h1 => obtain rfl := Except.error.inj h; exact hf h1
    · cases h

/-- What a seek leaves in the context: the range registers stay, INIT is 1 (40_bd R131). -/
theorem seek_ok {stream : Memory 8} {c c' : Ctx} (h : seek stream c = .ok c') (hse : c.startAddr.toNat ≤ c.endAddr.toNat) :
    c.startAddr.toNat + 2 ≤ c.endAddr.toNat ∧ c' = { c with
      pos := c.startAddr + 2
      value := stream.read c.startAddr.toNat ++ stream.read (c.startAddr.toNat + 1)
      range := 255#8
      bitcnt := 0#3
      init := true } := by
  by_cases hle : c.startAddr.toNat + 2 ≤ c.endAddr.toNat
  · rw [seek_of_le hle] at h
    exact ⟨hle, (Except.ok.inj h).symm⟩
  · rw [seek_of_lt hse (by omega)] at h
    cases h

/-- A seek depends on the stream inside the range only (20_memory R80). -/
theorem seek_congr {m m' : Memory 8} {c : Ctx} (hse : c.startAddr.toNat ≤ c.endAddr.toNat)
    (h : ∀ a, c.startAddr.toNat ≤ a → a < c.endAddr.toNat → m.read a = m'.read a) : seek m c = seek m' c := by
  by_cases hle : c.startAddr.toNat + 2 ≤ c.endAddr.toNat
  · rw [seek_of_le hle, seek_of_le hle, h _ (by omega) (by omega), h _ (by omega) (by omega)]
  · rw [seek_of_lt hse (by omega), seek_of_lt hse (by omega)]

end Sys2Proof.Machine
end

