-- ==== Sys2Proof/Laws/Memory.lean ====
section
/-! SUPPORT. The laws of memory: what a read gives after each memory operation (for every list), and that every operation keeps the canonical form. -/

namespace Sys2Proof.Machine

variable {w : Nat}

/-! ## Reads -/

@[simp] theorem Memory.read_nil (a : Nat) : Memory.read ([] : Memory w) a = 0 := rfl

theorem Memory.read_cons (b : Nat) (u : BitVec w) (m : Memory w) (a : Nat) :
    Memory.read ((b, u) :: m) a = if b = a then u else Memory.read m a := rfl

/-- A memory with the entries of `P` only reads as before on `P` and as unlisted elsewhere. -/
theorem Memory.read_filter (P : Nat → Bool) (m : Memory w) (a : Nat) :
    Memory.read (m.filter fun e => P e.1) a = if P a then Memory.read m a else 0 := by
  induction m with
  | nil => simp
  | cons e m ih =>
    obtain ⟨b, u⟩ := e
    by_cases hb : P b = true <;> by_cases hba : b = a
    · subst hba; simp [hb, Memory.read_cons]
    · simp [hb, Memory.read_cons, hba, ih]
    · subst hba; simp [hb, ih]
    · simp [hb, Memory.read_cons, hba, ih]

theorem Memory.read_erase (m : Memory w) (a b : Nat) :
    (m.erase a).read b = if b = a then 0 else m.read b := by
  have := Memory.read_filter (fun k => k != a) m b
  unfold Memory.erase
  rw [this]
  by_cases h : b = a <;> simp [h]

theorem Memory.read_insert (m : Memory w) (a b : Nat) (v : BitVec w) (ha : ∀ e ∈ m, e.1 ≠ a) :
    (m.insert a v).read b = if b = a then v else m.read b := by
  induction m with
  | nil => simp [Memory.insert, Memory.read_cons, eq_comm]
  | cons e m ih =>
    obtain ⟨c, u⟩ := e
    have hc : c ≠ a := ha (c, u) (by simp)
    have ih := ih fun e he => ha e (by simp [he])
    by_cases hlt : a < c
    · simp [Memory.insert, hlt, Memory.read_cons, eq_comm]
    · simp only [Memory.insert, hlt, if_false, Memory.read_cons, ih]
      by_cases hcb : c = b
      · subst hcb; simp [hc]
      · simp [hcb]

theorem Memory.not_mem_erase (m : Memory w) (a : Nat) : ∀ e ∈ m.erase a, e.1 ≠ a := by
  intro e he
  simpa using (List.mem_filter.mp he).2

/-- A read after a write: the value written at the address, the old entry elsewhere. -/
theorem Memory.read_write (m : Memory w) (a b : Nat) (v : BitVec w) :
    (m.write a v).read b = if b = a then v else m.read b := by
  unfold Memory.write
  split
  · next h => rw [Memory.read_erase, h]; rfl
  · rw [Memory.read_insert _ _ _ _ (Memory.not_mem_erase m a), Memory.read_erase]
    by_cases h : b = a <;> simp [h]

@[simp] theorem Memory.read_write_same (m : Memory w) (a : Nat) (v : BitVec w) : (m.write a v).read a = v := by
  simp [Memory.read_write]

theorem Memory.read_write_ne (m : Memory w) {a b : Nat} (v : BitVec w) (h : b ≠ a) :
    (m.write a v).read b = m.read b := by simp [Memory.read_write, h]

/-- Entries outside the addresses written read as before. -/
theorem Memory.read_writeAll_of_not_mem (l : List (Nat × BitVec w)) (m : Memory w) (b : Nat)
    (h : ∀ e ∈ l, e.1 ≠ b) : (m.writeAll l).read b = m.read b := by
  induction l generalizing m with
  | nil => rfl
  | cons e l ih =>
    obtain ⟨a, v⟩ := e
    have ha : a ≠ b := h (a, v) (by simp)
    rw [Memory.writeAll, ih _ fun e he => h e (by simp [he]), Memory.read_write_ne _ _ ha.symm]

/-- With addresses that differ, each written entry reads as what was written. -/
theorem Memory.read_writeAll_of_mem (l : List (Nat × BitVec w)) (m : Memory w) (b : Nat) (v : BitVec w)
    (hn : (l.map Prod.fst).Nodup) (h : (b, v) ∈ l) : (m.writeAll l).read b = v := by
  induction l generalizing m with
  | nil => simp at h
  | cons e l ih =>
    obtain ⟨a, u⟩ := e
    simp only [List.map_cons, List.nodup_cons] at hn
    rw [Memory.writeAll]
    rcases List.mem_cons.mp h with heq | hmem
    · obtain ⟨rfl, rfl⟩ := Prod.mk.inj heq
      rw [Memory.read_writeAll_of_not_mem _ _ _ fun e he heb => hn.1 (List.mem_map.mpr ⟨e, he, heb⟩)]
      simp
    · exact ih _ hn.2 hmem

/-- Consecutive writes: the listed value inside, the old entry outside. -/
theorem Memory.read_writeSeq (l : List (BitVec w)) (m : Memory w) (a b : Nat) :
    (m.writeSeq a l).read b = if a ≤ b ∧ b < a + l.length then l.getD (b - a) 0 else m.read b := by
  induction l generalizing m a with
  | nil => simp [Memory.writeSeq]
  | cons v l ih =>
    rw [Memory.writeSeq, ih]
    by_cases hb : b = a
    · subst hb; simp [show ¬(b + 1 ≤ b) by omega]
    · by_cases h1 : a + 1 ≤ b ∧ b < a + 1 + l.length
      · have h2 : a ≤ b ∧ b < a + (v :: l).length := by simp only [List.length_cons]; omega
        rw [if_pos h1, if_pos h2, show b - a = (b - (a + 1)) + 1 by omega]
        simp
      · have h2 : ¬(a ≤ b ∧ b < a + (v :: l).length) := by simp only [List.length_cons]; omega
        rw [if_neg h1, if_neg h2, Memory.read_write_ne _ _ hb]

/-- A cleared range reads as 0, the rest as before. -/
theorem Memory.read_clear (m : Memory w) (base n a : Nat) :
    (m.clear base n).read a = if base ≤ a ∧ a < base + n then 0 else m.read a := by
  unfold Memory.clear
  rw [Memory.read_filter (fun k => !(decide (base ≤ k) && decide (k < base + n)))]
  by_cases h : base ≤ a ∧ a < base + n
  · simp [h]
  · simp only [h, if_false]
    rw [if_pos]
    simp only [Bool.not_eq_true', Bool.and_eq_false_iff, decide_eq_false_iff_not]
    omega

/-- Entries outside the scrambled addresses read as before. -/
theorem Memory.read_scramble_of_not_mem (as : List Nat) (m : Memory w) (n b : Nat) (h : b ∉ as) :
    (m.scramble n as).read b = m.read b := by
  induction as generalizing m n with
  | nil => rfl
  | cons a as ih =>
    simp only [List.mem_cons, not_or] at h
    rw [Memory.scramble, ih _ _ h.2, Memory.read_write_ne _ _ h.1]

/-- Of two writes to one address the second stays. -/
@[simp] theorem Memory.write_write_same (m : Memory w) (a : Nat) (u v : BitVec w) :
    (m.write a u).write a v = m.write a v := by
  have key : (m.write a u).erase a = m.erase a := by
    have ins : ∀ l : Memory w, (l.insert a u).erase a = l.erase a := by
      intro l
      induction l with
      | nil => simp [Memory.insert, Memory.erase]
      | cons e l ih =>
        obtain ⟨c, x⟩ := e
        by_cases hlt : a < c
        · simp [Memory.insert, hlt, Memory.erase]
        · simp only [Memory.insert, hlt, if_false]
          unfold Memory.erase at ih ⊢
          simp only [List.filter_cons, ih]
    have er : (m.erase a).erase a = m.erase a := by simp [Memory.erase, List.filter_filter]
    unfold Memory.write
    split
    · exact er
    · rw [ins, er]
  unfold Memory.write at key ⊢
  rw [key]

/-! ## The canonical form -/

theorem Memory.wf_nil (size : Nat) : Memory.wf size ([] : Memory w) := ⟨List.Pairwise.nil, by simp⟩

theorem Memory.wf_filter {size : Nat} {m : Memory w} (P : Nat × BitVec w → Bool) (h : Memory.wf size m) :
    Memory.wf size (m.filter P) :=
  ⟨h.1.filter _, fun e he => h.2 e (List.mem_filter.mp he).1⟩

theorem Memory.mem_insert {m : Memory w} {a : Nat} {v : BitVec w} {e : Nat × BitVec w} (h : e ∈ m.insert a v) :
    e = (a, v) ∨ e ∈ m := by
  induction m with
  | nil => simpa [Memory.insert] using h
  | cons f m ih =>
    obtain ⟨c, u⟩ := f
    by_cases hlt : a < c
    · simpa [Memory.insert, hlt] using h
    · simp only [Memory.insert, hlt, if_false, List.mem_cons] at h
      rcases h with h | h
      · exact .inr (by simp [h])
      · rcases ih h with h | h
        · exact .inl h
        · exact .inr (by simp [h])

theorem Memory.wf_insert {size : Nat} {m : Memory w} {a : Nat} {v : BitVec w} (h : Memory.wf size m)
    (ha : a < size) (hv : v ≠ 0) (hm : ∀ e ∈ m, e.1 ≠ a) : Memory.wf size (m.insert a v) := by
  refine ⟨?_, fun e he => ?_⟩
  · obtain ⟨hp, -⟩ := h
    induction m with
    | nil => simp [Memory.insert]
    | cons f m ih =>
      obtain ⟨c, u⟩ := f
      rw [List.pairwise_cons] at hp
      by_cases hlt : a < c
      · simp only [Memory.insert, hlt, if_true]
        refine List.pairwise_cons.mpr ⟨fun e he => ?_, List.pairwise_cons.mpr hp⟩
        rcases List.mem_cons.mp he with rfl | he
        · exact hlt
        · exact lt_trans hlt (hp.1 e he)
      · simp only [Memory.insert, hlt, if_false]
        refine List.pairwise_cons.mpr ⟨fun e he => ?_, ih (fun e he => hm e (by simp [he])) hp.2⟩
        have hca : c ≠ a := hm (c, u) (by simp)
        rcases Memory.mem_insert he with rfl | he
        · show c < a; omega
        · exact hp.1 e he
  · rcases Memory.mem_insert he with rfl | he
    · exact ⟨ha, hv⟩
    · exact h.2 e he

/-- A write inside the memory keeps the canonical form. -/
theorem Memory.wf_write {size : Nat} {m : Memory w} {a : Nat} (v : BitVec w) (h : Memory.wf size m) (ha : a < size) :
    Memory.wf size (m.write a v) := by
  unfold Memory.write
  split
  · exact Memory.wf_filter _ h
  · next hv => exact Memory.wf_insert (Memory.wf_filter _ h) ha hv (Memory.not_mem_erase m a)

theorem Memory.wf_writeAll {size : Nat} (l : List (Nat × BitVec w)) {m : Memory w} (h : Memory.wf size m)
    (ha : ∀ e ∈ l, e.1 < size) : Memory.wf size (m.writeAll l) := by
  induction l generalizing m with
  | nil => exact h
  | cons e l ih =>
    exact ih (Memory.wf_write _ h (ha e (by simp))) fun e he => ha e (by simp [he])

theorem Memory.wf_writeSeq {size : Nat} (l : List (BitVec w)) {m : Memory w} {a : Nat} (h : Memory.wf size m)
    (ha : a + l.length ≤ size) : Memory.wf size (m.writeSeq a l) := by
  induction l generalizing m a with
  | nil => exact h
  | cons v l ih =>
    simp only [List.length_cons] at ha
    exact ih (Memory.wf_write _ h (by omega)) (by omega)

theorem Memory.wf_clear {size : Nat} {m : Memory w} (base n : Nat) (h : Memory.wf size m) :
    Memory.wf size (m.clear base n) := Memory.wf_filter _ h

theorem Memory.wf_scramble {size : Nat} (as : List Nat) {m : Memory w} (n : Nat) (h : Memory.wf size m)
    (ha : ∀ a ∈ as, a < size) : Memory.wf size (m.scramble n as) := by
  induction as generalizing m n with
  | nil => exact h
  | cons a as ih =>
    exact ih _ (Memory.wf_write _ h (ha a (by simp))) fun b hb => ha b (by simp [hb])

/-- Writing the entry a canonical memory holds changes nothing: the empty case of the canonical form. -/
theorem Memory.read_of_forall_ne {m : Memory w} {a : Nat} (h : ∀ e ∈ m, e.1 ≠ a) : m.read a = 0 := by
  induction m with
  | nil => rfl
  | cons e m ih =>
    obtain ⟨b, u⟩ := e
    rw [Memory.read_cons, if_neg (h (b, u) (by simp)), ih fun e he => h e (by simp [he])]

/-- Two canonical memories that read alike at every address are equal lists. -/
theorem Memory.ext_of_read {size size' : Nat} {m m' : Memory w} (h : Memory.wf size m) (h' : Memory.wf size' m')
    (hr : ∀ a, m.read a = m'.read a) : m = m' := by
  induction m generalizing m' with
  | nil =>
    cases m' with
    | nil => rfl
    | cons e m' =>
      obtain ⟨b, u⟩ := e
      have := hr b
      rw [Memory.read_cons, if_pos rfl, Memory.read_nil] at this
      exact absurd this.symm (h'.2 (b, u) (by simp)).2
  | cons e m ih =>
    obtain ⟨b, u⟩ := e
    have hb : ∀ f ∈ m, b < f.1 := fun f hf => (List.pairwise_cons.mp h.1).1 f hf
    have hu : u ≠ 0 := (h.2 (b, u) (by simp)).2
    cases m' with
    | nil =>
      have := hr b
      rw [Memory.read_cons, if_pos rfl, Memory.read_nil] at this
      exact absurd this hu
    | cons e' m' =>
      obtain ⟨b', u'⟩ := e'
      have hb' : ∀ f ∈ m', b' < f.1 := fun f hf => (List.pairwise_cons.mp h'.1).1 f hf
      have hu' : u' ≠ 0 := (h'.2 (b', u') (by simp)).2
      have hbb : b = b' := by
        rcases Nat.lt_trichotomy b b' with hlt | heq | hlt
        · have := hr b
          rw [Memory.read_cons, if_pos rfl, Memory.read_cons, if_neg (by omega),
            Memory.read_of_forall_ne fun f hf => by have := hb' f hf; omega] at this
          exact absurd this hu
        · exact heq
        · have := hr b'
          rw [Memory.read_cons, if_neg (by omega), Memory.read_cons, if_pos rfl,
            Memory.read_of_forall_ne fun f hf => by have := hb f hf; omega] at this
          exact absurd this.symm hu'
      subst hbb
      have huu : u = u' := by simpa [Memory.read_cons] using hr b
      subst huu
      have htail : m = m' := by
        refine ih ⟨(List.pairwise_cons.mp h.1).2, fun f hf => h.2 f (by simp [hf])⟩
          ⟨(List.pairwise_cons.mp h'.1).2, fun f hf => h'.2 f (by simp [hf])⟩ fun a => ?_
        by_cases hab : b = a
        · subst hab
          rw [Memory.read_of_forall_ne fun f hf => by have := hb f hf; omega,
            Memory.read_of_forall_ne fun f hf => by have := hb' f hf; omega]
        · simpa [Memory.read_cons, hab] using hr a
      rw [htail]

end Sys2Proof.Machine
end

