-- ==== Sys2Proof/Laws/DQ.lean ====
section
/-! SUPPORT. The laws of the dequantizer: the exact product, and what DqBlk leaves in each entry of COEF (42_dq R192, R194). -/

namespace Sys2Proof.Machine

/-- The product fits 32 bits: it is exact (42_dq R194). -/
theorem dequant_toInt (level factor : BitVec 16) : (dequant level factor).toInt = level.toInt * (factor.toNat : Int) := by
  have h1 := BitVec.toInt_lt (x := level)
  have h2 := BitVec.le_toInt (x := level)
  have h3 := factor.isLt
  norm_num at h1 h2 h3
  unfold dequant
  rw [BitVec.toInt_ofInt]
  apply Int.bmod_eq_of_le <;> norm_num <;> nlinarith

theorem coefIx_inj {blk n n' : Nat} (h : coefIx blk n = coefIx blk n') : n = n' := by
  unfold coefIx at h; omega

/-- ZIGZAG is a permutation of the sixteen positions (41_td R164). -/
theorem zigzag_injective : ∀ m n : Fin 16, rom.zigzag[m] = rom.zigzag[n] → m = n := by decide

/-- DqBlk at the raster position of a scan position (42_dq R192). -/
theorem dqBlk_read (qcoef dqf : Memory 16) (blk t seg : Nat) (coef : Memory 32) (n : Fin 16) :
    (dqBlk rom qcoef dqf blk t seg coef).read (coefIx blk (rom.zigzag[n]).val) =
      dequant (qcoef.read (coefIx blk n.val)) (dqf.read (dqfIx seg t (rom.band[n]).val)) := by
  unfold dqBlk
  apply Memory.read_writeAll_of_mem
  · rw [List.map_map]
    refine (List.nodup_finRange 16).map fun m n hmn => ?_
    exact zigzag_injective m n (Fin.ext (coefIx_inj hmn))
  · exact List.mem_map.mpr ⟨n, List.mem_finRange n, rfl⟩

/-- DqBlk leaves every entry outside its block (42_dq R192). -/
theorem dqBlk_read_of_ne (rom : Config.Rom) (qcoef dqf : Memory 16) (blk t seg : Nat) (coef : Memory 32) {a : Nat}
    (h : a < blk * 16 ∨ blk * 16 + 16 ≤ a) : (dqBlk rom qcoef dqf blk t seg coef).read a = coef.read a := by
  unfold dqBlk
  apply Memory.read_writeAll_of_not_mem
  intro e he
  obtain ⟨m, -, rfl⟩ := List.mem_map.mp he
  have := (rom.zigzag[m]).isLt
  simp only [dqEntry, coefIx]
  omega

/-- DqBlk keeps COEF canonical. -/
theorem dqBlk_wf (rom : Config.Rom) (qcoef dqf : Memory 16) {blk : Nat} (t seg : Nat) {coef : Memory 32} (hb : blk ≤ 24)
    (h : Memory.wf 400 coef) : Memory.wf 400 (dqBlk rom qcoef dqf blk t seg coef) := by
  unfold dqBlk
  apply Memory.wf_writeAll _ h
  intro e he
  obtain ⟨m, -, rfl⟩ := List.mem_map.mp he
  have := (rom.zigzag[m]).isLt
  simp only [dqEntry, coefIx]
  omega

end Sys2Proof.Machine
end

