-- ==== Sys2Proof/Laws/Decode.lean ====
section
/-! SUPPORT. The laws of the command words: where the opcode and the operand bits lie, what the fields of an encoding are, and which word the fields of a word encode (30_encoding R100 to R105). -/

namespace Sys2Proof

theorem Dir.ofBits_bits (d : Dir) : Dir.ofBits d.bits = d := by cases d <;> rfl
theorem Kind.ofBits_bits (k : Kind) : Kind.ofBits k.bits = k := by cases k <;> rfl
theorem Dir.bits_ofBits (b : BitVec 1) : (Dir.ofBits b).bits = b := by revert b; decide
theorem Kind.bits_ofBits (b : BitVec 2) : (Kind.ofBits b).bits = b := by revert b; decide

/-- A bit of a command word: bits 31:24 are the opcode, the others the operand bits. -/
theorem getLsbD_word (x : BitVec 8) (y : BitVec 24) (j : Nat) :
    BitVec.getLsbD (w := 32) (x ++ y) j = if j < 24 then y.getLsbD j else x.getLsbD (j - 24) := BitVec.getLsbD_append

/-- A command's operand bits are 0 in its reserved places (30_encoding R101). -/
theorem operand_bits (i : Instr) (j : Nat) (hj : j < 24) (h : i.opcode.reserved.getLsbD j = true) :
    i.operandBits.getLsbD j = false := by
  have h1 := @BitVec.getLsbD_append 20 4
  have h2 := @BitVec.getLsbD_append 16 8
  have h3 := @BitVec.getLsbD_append 19 5
  have h4 := @BitVec.getLsbD_append 18 6
  have h5 := @BitVec.getLsbD_append 17 7
  have h6 := @BitVec.getLsbD_append 10 14
  cases i <;> simp only [Instr.opcode, Opcode.reserved, Instr.operandBits, h1, h2, h3, h4, h5, h6, BitVec.getLsbD_append] at * <;>
    interval_cases j <;> simp_all


/-- An opcode selects a command of that opcode. -/
theorem Opcode.fields_opcode (o : Opcode) (w : Word) : (o.fields w).opcode = o := by cases o <;> rfl

/-- Outside the reserved places the operand bits of a word's fields are the word's own bits. -/
theorem fields_bits (o : Opcode) (w : Word) (j : Nat) (hj : j < 24) (h : o.reserved.getLsbD j = false) :
    (o.fields w).operandBits.getLsbD j = w.getLsbD j := by
  have h1 := @BitVec.getLsbD_append 20 4
  have h2 := @BitVec.getLsbD_append 16 8
  have h3 := @BitVec.getLsbD_append 19 5
  have h4 := @BitVec.getLsbD_append 18 6
  have h5 := @BitVec.getLsbD_append 17 7
  have h6 := @BitVec.getLsbD_append 10 14
  cases o <;> simp only [Opcode.fields, Opcode.reserved, Instr.operandBits, h1, h2, h3, h4, h5, h6, BitVec.getLsbD_append,
    Dir.bits_ofBits, Kind.bits_ofBits] at * <;>
    interval_cases j <;> simp_all [-BitVec.getLsbD_eq_getElem]

/-- A word whose opcode is `o` and whose reserved bits are 0 is the encoding of its fields. -/
theorem encode_fields_of_word (w : Word) (o : Opcode) (h : w.extractLsb' 24 8 = o.code) (hr : w &&& o.reserved = 0#32) :
    encode (o.fields w) = w := by
  apply BitVec.eq_of_getLsbD_eq
  intro j hj
  unfold encode
  rw [getLsbD_word, Opcode.fields_opcode]
  split
  · next hj' =>
    cases ho : o.reserved.getLsbD j
    · exact fields_bits o w j hj' ho
    · have := operand_bits (o.fields w) j hj' (by rw [Opcode.fields_opcode]; exact ho)
      rw [this]
      have := congrArg (fun v => v.getLsbD j) hr
      simpa [ho] using this.symm
  · next hj' =>
    rw [← h, BitVec.getLsbD_extractLsb', show 24 + (j - 24) = j by omega]
    simp; omega

/-- Bits 31:24 of an encoding (30_encoding R100). -/
theorem encode_opcode (i : Instr) : (encode i).extractLsb' 24 8 = i.opcode.code := by
  apply BitVec.eq_of_getLsbD_eq
  intro j hj
  unfold encode
  rw [BitVec.getLsbD_extractLsb', getLsbD_word]
  simp [hj]

/-- The reserved bits of an encoding are 0 (30_encoding R101). -/
theorem encode_reserved (i : Instr) : encode i &&& i.opcode.reserved = 0#32 := by
  apply BitVec.eq_of_getLsbD_eq
  intro j hj
  rw [BitVec.getLsbD_and, BitVec.getLsbD_zero]
  by_cases h : i.opcode.reserved.getLsbD j = true
  · have hj' : j < 24 := by
      by_contra hn
      have : ∀ o : Opcode, ∀ k < 8, o.reserved.getLsbD (24 + k) = false := by intro o; cases o <;> decide
      have := this i.opcode (j - 24) (by omega)
      rw [show 24 + (j - 24) = j by omega] at this
      simp [this] at h
    unfold encode
    rw [getLsbD_word, if_pos hj', operand_bits i j hj' h]; rfl
  · simp [h]

/-- The fields of an encoding (30_encoding R101). -/
theorem encode_fields (i : Instr) : i.opcode.fields (encode i) = i := by
  have h1 := @BitVec.getLsbD_append 20 4
  have h2 := @BitVec.getLsbD_append 16 8
  have h3 := @BitVec.getLsbD_append 19 5
  have h4 := @BitVec.getLsbD_append 18 6
  have h5 := @BitVec.getLsbD_append 17 7
  have h6 := @BitVec.getLsbD_append 10 14
  have hd (d : Dir) (b : BitVec 1) (h : b = d.bits) : Dir.ofBits b = d := h ▸ Dir.ofBits_bits d
  have hk (k : Kind) (b : BitVec 2) (h : b = k.bits) : Kind.ofBits b = k := h ▸ Kind.ofBits_bits k
  have ext {n} (a b : BitVec n) (h : ∀ j < n, a.getLsbD j = b.getLsbD j) : a = b := BitVec.eq_of_getLsbD_eq h
  cases i <;> simp only [Instr.opcode, Opcode.fields, encode, Instr.operandBits]
  all_goals congr 1
  all_goals first | apply hd | apply hk | skip
  all_goals try (apply ext; intro j hj; rw [BitVec.getLsbD_extractLsb'])
  all_goals
    simp only [h1, h2, h3, h4, h5, h6, BitVec.getLsbD_append]
  all_goals first
    | (interval_cases j <;> simp)
    | simp
/-- An opcode byte selects its own row (30_encoding R102). -/
theorem Opcode.ofByte_code (o : Opcode) : Opcode.ofByte o.code = some o := by cases o <;> decide

/-- The row an opcode byte selects has that byte (30_encoding R102). -/
theorem Opcode.code_of_ofByte {b : BitVec 8} {o : Opcode} (h : Opcode.ofByte b = some o) : o.code = b := by
  simpa using List.find?_some h

end Sys2Proof
end

