-- ==== Sys2Proof/Laws/LF.lean ====
section
/-! SUPPORT. The laws of the loop filter: pixel addresses, what a Seg and a sequence of Segs can write, when they succeed, and which fault they raise (20_memory R81; 43_lf R203 to R217). -/

namespace Sys2Proof.Machine

/-! ## Pixel addresses -/

/-- A checked pixel address (20_memory R81). -/
theorem pixAddr_ok {s : State} {pl : Nat} {x y : Int} {a : Nat} (h : s.pixAddr pl x y = .ok a) :
    0 ≤ x ∧ 0 ≤ y ∧ a = s.planeBase pl + y.toNat * s.planeStride pl + x.toNat ∧ a < s.params.pixSize := by
  unfold State.pixAddr at h
  split at h
  · cases h
  · dsimp only at h
    split at h
    · cases h
    · obtain rfl := Except.ok.inj h
      exact ⟨by omega, by omega, rfl, by omega⟩

theorem pixAddr_of_lt {s : State} {pl : Nat} {x y : Int} (hx : 0 ≤ x) (hy : 0 ≤ y)
    (h : s.planeBase pl + y.toNat * s.planeStride pl + x.toNat < s.params.pixSize) :
    s.pixAddr pl x y = .ok (s.planeBase pl + y.toNat * s.planeStride pl + x.toNat) := by
  unfold State.pixAddr
  rw [if_neg (by omega)]
  dsimp only
  rw [if_neg (by omega)]

theorem pixAddr_of_neg {s : State} {pl : Nat} {x y : Int} (h : x < 0 ∨ y < 0) :
    s.pixAddr pl x y = .error ⟨.pixRange, 0xFFFFFFFF⟩ := by
  unfold State.pixAddr
  rw [if_pos h]

theorem pixAddr_of_le {s : State} {pl : Nat} {x y : Int} (hx : 0 ≤ x) (hy : 0 ≤ y)
    (h : s.params.pixSize ≤ s.planeBase pl + y.toNat * s.planeStride pl + x.toNat) :
    s.pixAddr pl x y =
      .error ⟨.pixRange, BitVec.ofNat 32 (s.planeBase pl + y.toNat * s.planeStride pl + x.toNat)⟩ := by
  unfold State.pixAddr
  rw [if_neg (by omega)]
  dsimp only
  rw [if_pos h]

theorem pixAddr_error_name {s : State} {pl : Nat} {x y : Int} {t : Trap} (h : s.pixAddr pl x y = .error t) :
    t.name = .pixRange := by
  unfold State.pixAddr at h
  split at h
  · obtain rfl := Except.error.inj h; rfl
  · dsimp only at h
    split at h
    · obtain rfl := Except.error.inj h; rfl
    · cases h

theorem pxAddr_error_name {s : State} {pl : Nat} {dir : Dir} {x y : Int} {p : Px} {t : Trap}
    (h : s.pxAddr pl dir x y p = .error t) : t.name = .pixRange := by
  unfold State.pxAddr at h
  split at h <;> exact pixAddr_error_name h

theorem pxAddr_lt {s : State} {pl : Nat} {dir : Dir} {x y : Int} {p : Px} {a : Nat}
    (h : s.pxAddr pl dir x y p = .ok a) : a < s.params.pixSize := by
  unfold State.pxAddr at h
  split at h <;> exact (pixAddr_ok h).2.2.2

/-! ## The checks of a Seg -/

theorem checkPixels_cons (s : State) (op : SegOp) (p : Px) (ps : List Px) :
    s.checkPixels op (p :: ps) =
      match s.pxAddr op.pl op.dir op.x op.y p with
      | .error t => .error t
      | .ok _ => s.checkPixels op ps := rfl

/-- The checks pass when every pixel exists, and only then (43_lf R206). -/
theorem checkPixels_ok {s : State} {op : SegOp} {ps : List Px} :
    s.checkPixels op ps = .ok () ↔ ∀ p ∈ ps, s.pxAddr op.pl op.dir op.x op.y p = .ok (s.pxPlace op p) := by
  induction ps with
  | nil => simp [State.checkPixels]
  | cons p ps ih =>
    rw [checkPixels_cons]
    cases h1 : s.pxAddr op.pl op.dir op.x op.y p with
    | error t => simp [h1]
    | ok a =>
      have hp : s.pxPlace op p = a := by simp only [State.pxPlace, h1]
      simp only [ih, List.mem_cons, forall_eq_or_imp, h1, hp, true_and]

theorem checkPixels_error_name {s : State} {op : SegOp} {ps : List Px} {t : Trap}
    (h : s.checkPixels op ps = .error t) : t.name = .pixRange := by
  induction ps with
  | nil => cases h
  | cons p ps ih =>
    rw [checkPixels_cons] at h
    split at h
    · next h1 => obtain rfl := Except.error.inj h; exact pxAddr_error_name h1
    · exact ih h

/-- The checks stop at the first pixel that does not exist (43_lf R206). -/
theorem checkPixels_of_first {s : State} {op : SegOp} (before : List Px) (p : Px) (after : List Px) {t : Trap}
    (hb : ∀ q ∈ before, ∃ a, s.pxAddr op.pl op.dir op.x op.y q = .ok a)
    (hp : s.pxAddr op.pl op.dir op.x op.y p = .error t) : s.checkPixels op (before ++ p :: after) = .error t := by
  induction before with
  | nil => rw [List.nil_append, checkPixels_cons, hp]
  | cons q qs ih =>
    obtain ⟨a, ha⟩ := hb q (by simp)
    rw [List.cons_append, checkPixels_cons, ha]
    exact ih fun q hq => hb q (by simp [hq])

/-! ## What a Seg writes -/

/-- The filter of a kind writes only pixels that kind may write (43_lf R217 b). -/
theorem filterWrites_mem {lim : Limits} {kind : Kind} {l : Line} {pv : Px × Byte} (h : pv ∈ filterWrites lim kind l) :
    pv.1 ∈ kindMayWrite kind := by
  have key : ∀ pv ∈ filterWrites lim kind l, pv.1 ∈ kindMayWrite kind := by
    cases kind <;> simp only [filterWrites, simpleFilter, normalMb, normalSub, commonAdjust] <;> split_ifs <;>
      simp [kindMayWrite]
  exact key pv h

/-- Every pixel a kind may write is one it reads (43_lf R217 b). -/
theorem kindMayWrite_subset : ∀ kind : Kind, ∀ p ∈ kindMayWrite kind, p ∈ kindPixels kind := by
  intro kind; cases kind <;> decide

/-- No filter writes a pixel twice. -/
theorem filterWrites_nodup (lim : Limits) (kind : Kind) (l : Line) :
    ((filterWrites lim kind l).map Prod.fst).Nodup := by
  cases kind <;> simp only [filterWrites, simpleFilter, normalMb, normalSub, commonAdjust] <;>
    split_ifs <;> simp

/-- Everything a Seg does when it does not fault (43_lf R206). -/
theorem seg_ok {s : State} {op : SegOp} {pix pix' : Memory 8} (h : s.seg op pix = .ok pix') :
    (∀ p ∈ kindPixels op.kind, s.pxAddr op.pl op.dir op.x op.y p = .ok (s.pxPlace op p)) ∧
      pix' = pix.writeAll
        ((filterWrites s.limits op.kind (s.lineAt pix op)).map fun pv => (s.pxPlace op pv.1, pv.2)) := by
  unfold State.seg at h
  split at h
  · cases h
  · next u h1 => exact ⟨checkPixels_ok.mp h1, (Except.ok.inj h).symm⟩

/-- A Seg whose pixels all exist does not fault (43_lf R206). -/
theorem seg_succeeds {s : State} {op : SegOp} (pix : Memory 8)
    (h : ∀ p ∈ kindPixels op.kind, s.pxAddr op.pl op.dir op.x op.y p = .ok (s.pxPlace op p)) :
    s.seg op pix = .ok (pix.writeAll
      ((filterWrites s.limits op.kind (s.lineAt pix op)).map fun pv => (s.pxPlace op pv.1, pv.2))) := by
  unfold State.seg
  rw [checkPixels_ok.mpr h]

theorem seg_error_name {s : State} {op : SegOp} {pix : Memory 8} {t : Trap} (h : s.seg op pix = .error t) :
    t.name = .pixRange := by
  unfold State.seg at h
  split at h
  · next h1 => obtain rfl := Except.error.inj h; exact checkPixels_error_name h1
  · cases h

/-- A Seg leaves every byte it may not write (43_lf R217 b). -/
theorem seg_read {s : State} {op : SegOp} {pix pix' : Memory 8} {a : Nat} (h : s.seg op pix = .ok pix')
    (ha : a ∉ s.segMayWrite op) : pix'.read a = pix.read a := by
  obtain ⟨h1, rfl⟩ := seg_ok h
  apply Memory.read_writeAll_of_not_mem
  intro e he hea
  obtain ⟨pv, hpv, rfl⟩ := List.mem_map.mp he
  apply ha
  have hm := filterWrites_mem hpv
  refine List.mem_filterMap.mpr ⟨pv.1, hm, ?_⟩
  rw [h1 _ (kindMayWrite_subset _ _ hm)]
  exact congrArg some hea

theorem seg_wf {s : State} {op : SegOp} {pix pix' : Memory 8} (h : s.seg op pix = .ok pix')
    (hw : Memory.wf s.params.pixSize pix) : Memory.wf s.params.pixSize pix' := by
  obtain ⟨h1, rfl⟩ := seg_ok h
  apply Memory.wf_writeAll _ hw
  intro e he
  obtain ⟨pv, hpv, rfl⟩ := List.mem_map.mp he
  exact pxAddr_lt (h1 _ (kindMayWrite_subset _ _ (filterWrites_mem hpv)))

/-! ## Sequences of Segs -/

theorem segs_cons (s : State) (op : SegOp) (ops : List SegOp) (pix : Memory 8) :
    s.segs (op :: ops) pix =
      match s.seg op pix with
      | .error t => .error t
      | .ok pix' => s.segs ops pix' := rfl

theorem segs_append {s : State} (ops ops' : List SegOp) (pix : Memory 8) :
    s.segs (ops ++ ops') pix =
      match s.segs ops pix with
      | .error t => .error t
      | .ok pix' => s.segs ops' pix' := by
  induction ops generalizing pix with
  | nil => rfl
  | cons op ops ih =>
    rw [List.cons_append, segs_cons, segs_cons]
    cases s.seg op pix with
    | error t => rfl
    | ok pix' => exact ih pix'

/-- The fault of a sequence is that of its first Seg that fails (43_lf R214, R215). -/
theorem segs_of_first {s : State} {before : List SegOp} {op : SegOp} (after : List SegOp) {pix pix' : Memory 8} {t : Trap}
    (hb : s.segs before pix = .ok pix') (h : s.seg op pix' = .error t) : s.segs (before ++ op :: after) pix = .error t := by
  rw [segs_append, hb]
  dsimp only
  rw [segs_cons, h]

theorem segs_succeeds {s : State} (ops : List SegOp) (pix : Memory 8)
    (h : ∀ op ∈ ops, ∀ p ∈ kindPixels op.kind, s.pxAddr op.pl op.dir op.x op.y p = .ok (s.pxPlace op p)) :
    ∃ pix', s.segs ops pix = .ok pix' := by
  induction ops generalizing pix with
  | nil => exact ⟨pix, rfl⟩
  | cons op ops ih =>
    rw [segs_cons, seg_succeeds pix (h op (by simp))]
    exact ih _ fun o ho => h o (by simp [ho])

theorem segs_error_name {s : State} {ops : List SegOp} {pix : Memory 8} {t : Trap} (h : s.segs ops pix = .error t) :
    t.name = .pixRange := by
  induction ops generalizing pix with
  | nil => cases h
  | cons op ops ih =>
    rw [segs_cons] at h
    split at h
    · next h1 => obtain rfl := Except.error.inj h; exact seg_error_name h1
    · exact ih h

theorem segs_read {s : State} {ops : List SegOp} {pix pix' : Memory 8} {a : Nat} (h : s.segs ops pix = .ok pix')
    (ha : a ∉ s.segsMayWrite ops) : pix'.read a = pix.read a := by
  induction ops generalizing pix with
  | nil => rw [← Except.ok.inj h]
  | cons op ops ih =>
    simp only [State.segsMayWrite, List.flatMap_cons, List.mem_append, not_or] at ha
    rw [segs_cons] at h
    split at h
    · cases h
    · next h1 => rw [ih h ha.2, seg_read h1 ha.1]

theorem segs_wf {s : State} {ops : List SegOp} {pix pix' : Memory 8} (h : s.segs ops pix = .ok pix')
    (hw : Memory.wf s.params.pixSize pix) : Memory.wf s.params.pixSize pix' := by
  induction ops generalizing pix with
  | nil => rw [← Except.ok.inj h]; exact hw
  | cons op ops ih =>
    rw [segs_cons] at h
    split at h
    · cases h
    · next h1 => exact ih h (seg_wf h1 hw)

theorem segMayWrite_lt {s : State} {op : SegOp} {a : Nat} (h : a ∈ s.segMayWrite op) : a < s.params.pixSize := by
  obtain ⟨p, -, hp⟩ := List.mem_filterMap.mp h
  cases h1 : s.pxAddr op.pl op.dir op.x op.y p with
  | error t => rw [h1] at hp; cases hp
  | ok b =>
    rw [h1] at hp
    obtain rfl := Option.some.inj hp
    exact pxAddr_lt h1

theorem segsMayWrite_lt {s : State} {ops : List SegOp} {a : Nat} (h : a ∈ s.segsMayWrite ops) :
    a < s.params.pixSize := by
  obtain ⟨op, -, ha⟩ := List.mem_flatMap.mp h
  exact segMayWrite_lt ha

/-! ## The positions of an edge and of a macroblock -/

theorem edgeOps_mem {pl : Nat} {dir : Dir} {kind : Kind} {x y : Int} {len : Nat} {op : SegOp}
    (h : op ∈ edgeOps pl dir kind x y len) :
    ∃ k : Nat, k < len ∧ op = { pl := pl, dir := dir, kind := kind
                                x := if dir = .v then x else x + k, y := if dir = .v then y + k else y } := by
  obtain ⟨k, hk, rfl⟩ := List.mem_map.mp h
  exact ⟨k, by simpa using hk, by cases dir <;> rfl⟩

theorem edgeOps_length (pl : Nat) (dir : Dir) (kind : Kind) (x y : Int) (len : Nat) :
    (edgeOps pl dir kind x y len).length = len := by simp [edgeOps]

theorem innerOffsets_mem {size e : Nat} (h : e ∈ innerOffsets size) : 4 ≤ e ∧ e + 4 ≤ size := by
  obtain ⟨j, hj, rfl⟩ := List.mem_map.mp h
  simp at hj
  omega

/-- The edges of a plane lie inside the macroblock and at 4 or more across the edge (43_lf R215; 90_conflicts C11). -/
theorem planeOps_mem {pl size : Nat} {km ks : Kind} {mbx mby : Nat} {noinner : Bool} {op : SegOp} (hs : 8 ≤ size)
    (h : op ∈ planeOps pl size km ks mbx mby noinner) :
    op.pl = pl ∧ (op.kind = km ∨ op.kind = ks) ∧
      ((size * mbx : Nat) : Int) ≤ op.x ∧ op.x ≤ (size * mbx : Nat) + size - 1 ∧
      ((size * mby : Nat) : Int) ≤ op.y ∧ op.y ≤ (size * mby : Nat) + size - 1 ∧
      (op.dir = .v → 4 ≤ op.x ∧ op.x + 3 ≤ (size * mbx : Nat) + size - 1) ∧
      (op.dir = .h → 4 ≤ op.y ∧ op.y + 3 ≤ (size * mby : Nat) + size - 1) := by
  have hpos (m : Nat) (hm : 0 < m) : 8 ≤ size * m := le_trans hs (Nat.le_mul_of_pos_right _ hm)
  have hx : (size : Int) * mbx = ((size * mbx : Nat) : Int) := by push_cast; rfl
  have hy : (size : Int) * mby = ((size * mby : Nat) : Int) := by push_cast; rfl
  simp only [planeOps, hx, hy, List.mem_append] at h
  rcases h with ((h | h) | h) | h <;> split at h <;> simp at h
  · next hm =>
    have := hpos mbx hm
    obtain ⟨k, hk, rfl⟩ := edgeOps_mem h
    simp; omega
  · obtain ⟨e, he, h⟩ := h
    have := innerOffsets_mem he
    obtain ⟨k, hk, rfl⟩ := edgeOps_mem h
    simp; omega
  · next hm =>
    have := hpos mby hm
    obtain ⟨k, hk, rfl⟩ := edgeOps_mem h
    simp; omega
  · obtain ⟨e, he, h⟩ := h
    have := innerOffsets_mem he
    obtain ⟨k, hk, rfl⟩ := edgeOps_mem h
    simp; omega

/-! ## A Seg depends on the planes, the sizes, LFLVL and LFCFG only -/

/-- Two states that give every Seg the same effect. -/
structure State.SameFilter (s t : State) : Prop where
  ybase    : t.ybase = s.ybase
  ubase    : t.ubase = s.ubase
  vbase    : t.vbase = s.vbase
  ystride  : t.ystride = s.ystride
  uvstride : t.uvstride = s.uvstride
  params   : t.params = s.params
  lflvl    : t.lflvl = s.lflvl
  lfcfg    : t.lfcfg = s.lfcfg

theorem State.SameFilter.pxAddr {s t : State} (h : s.SameFilter t) (pl : Nat) (dir : Dir) (x y : Int) (p : Px) :
    t.pxAddr pl dir x y p = s.pxAddr pl dir x y p := by
  have hb : t.planeBase pl = s.planeBase pl := by simp only [State.planeBase, h.ybase, h.ubase, h.vbase]
  have hs : t.planeStride pl = s.planeStride pl := by simp only [State.planeStride, h.ystride, h.uvstride]
  have ha (x y : Int) : t.pixAddr pl x y = s.pixAddr pl x y := by
    unfold State.pixAddr
    rw [hb, hs, h.params]
  cases dir <;> exact ha _ _

theorem State.SameFilter.seg {s t : State} (h : s.SameFilter t) (op : SegOp) (pix : Memory 8) :
    t.seg op pix = s.seg op pix := by
  have hc : ∀ ps, t.checkPixels op ps = s.checkPixels op ps := by
    intro ps
    induction ps with
    | nil => rfl
    | cons p ps ih => rw [checkPixels_cons, checkPixels_cons, h.pxAddr, ih]
  have hp : t.pxPlace op = s.pxPlace op := by
    funext p
    simp only [State.pxPlace, h.pxAddr]
  have hl : t.limits = s.limits := by simp only [State.limits, State.sharp, h.lflvl, h.lfcfg]
  simp only [State.seg, hc, hl, State.lineAt, State.pxRead, hp]

theorem State.SameFilter.segs {s t : State} (h : s.SameFilter t) (ops : List SegOp) (pix : Memory 8) :
    t.segs ops pix = s.segs ops pix := by
  induction ops generalizing pix with
  | nil => rfl
  | cons op ops ih => simp only [segs_cons, h.seg, ih]

/-! ## Pixel arithmetic -/

theorem sat_bounds (v : Int) : -128 ≤ sat v ∧ sat v ≤ 127 := by
  unfold sat; split_ifs <;> omega

/-- A saturated signed number as a pixel (43_lf R204). -/
theorem s2u_toNat (v : Int) : ((s2u v).toNat : Int) = sat v + 128 := by
  have := sat_bounds v
  unfold s2u
  rw [BitVec.toNat_ofInt]
  omega

theorem s2u_u2s (b : Byte) : s2u (u2s b) = b := by
  apply BitVec.eq_of_toNat_eq
  have h := s2u_toNat (u2s b)
  have hb := b.isLt
  have : sat (u2s b) = u2s b := by unfold sat u2s; split_ifs <;> omega
  unfold u2s at *
  omega

end Sys2Proof.Machine
end

