-- ==== Sys2Proof/Laws/Port.lean ====
section
/-! SUPPORT. The laws of the register port: where each location lies, what a host write changes and what a host read shows after it, and what each host event does in a step (10_state R25 to R40; 44_system R241). -/

namespace Sys2Proof.Machine

/-! ## The address map -/

/-- The word address of a mapped location (10_state R25, R40). -/
def PortLoc.addr : PortLoc → Nat
  | .id => 0
  | .ctrl => 1
  | .status => 2
  | .cmd => 3
  | .result => 4
  | .cmdcnt => 5
  | .fcmd => 6
  | .finfo => 7
  | .lfcfg => 8
  | .lflvl => 9
  | .lfx => 10
  | .lfy => 11
  | .ybase => 12
  | .ubase => 13
  | .vbase => 14
  | .ystride => 15
  | .uvstride => 16
  | .tdlnz => 17
  | .bdstart k => 0x20 + 2 * k.val
  | .bdend k => 0x21 + 2 * k.val
  | .bdpos k => 0x40 + k.val
  | .bdstate k => 0x50 + k.val
  | .tree i => 0x100 + i
  | .tprob i => 0x140 + i
  | .dqf i => 0x200 + i
  | .cprob i => 0x400 + i
  | .qcoef i => 0x1000 + i
  | .coef i => 0x1200 + i
  | .anz i => 0x1400 + i
  | .unmapped => 0

/-- The entries an internal memory has, for locations in one (10_state R40). -/
def PortLoc.inBounds : PortLoc → Prop
  | .tree i => i < 64
  | .tprob i => i < 32
  | .dqf i => i < 128
  | .cprob i => i < 1056
  | .qcoef i => i < 400
  | .coef i => i < 400
  | .anz i => i < 1024
  | _ => True

theorem portLoc_of_lt {a : BitVec 13} (h : a.toNat < 18) : namedRegs[a.toNat]? = some (portLoc a) := by
  have hl : namedRegs.length = 18 := rfl
  unfold portLoc
  rw [List.getElem?_eq_getElem (by omega)]

theorem portLoc_of_le {a : BitVec 13} (h : 18 ≤ a.toNat) : portLoc a = indexedLoc a.toNat := by
  have hl : namedRegs.length = 18 := rfl
  unfold portLoc
  rw [List.getElem?_eq_none (by omega)]

/-- The map and the addresses agree: a location lies at its address (10_state R25, R40). -/
theorem portLoc_addr (a : BitVec 13) (h : portLoc a ≠ .unmapped) : (portLoc a).addr = a.toNat := by
  by_cases ha : a.toNat < 18
  · have hp := portLoc_of_lt ha
    generalize a.toNat = n at *
    generalize portLoc a = p at *
    clear h
    interval_cases n <;> (simp [namedRegs] at hp; subst hp; rfl)
  · rw [portLoc_of_le (by omega)] at h ⊢
    revert h
    unfold indexedLoc
    split_ifs <;> intro h <;> simp only [PortLoc.addr, Fin.ofNat] <;> first | omega | exact absurd rfl h

/-- Every mapped entry of an internal memory is one of its entries (10_state R40). -/
theorem portLoc_inBounds (a : BitVec 13) : (portLoc a).inBounds := by
  by_cases ha : a.toNat < 18
  · have hp := portLoc_of_lt ha
    generalize a.toNat = n at *
    generalize portLoc a = p at *
    interval_cases n <;> (simp [namedRegs] at hp; subst hp; trivial)
  · rw [portLoc_of_le (by omega)]
    unfold indexedLoc
    split_ifs <;> simp only [PortLoc.inBounds] <;> omega

/-! ## One host event in a step -/

/-- A host read returns the location's word and changes nothing (10_state R26). -/
theorem step_read {s : State} {a : BitVec 13} {rest : List HostEvent} (h : s.inbox = .read a :: rest) :
    step s = .next { s with inbox := rest, rdata := ({ s with inbox := rest } : State).hostRead a } := by
  simp only [step, h, handle]

theorem hostRead_inbox (s : State) (rest : List HostEvent) (a : BitVec 13) :
    ({ s with inbox := rest } : State).hostRead a = s.hostRead a := by
  unfold State.hostRead
  cases portLoc a <;> rfl

/-- A write to CTRL (10_state R27). -/
theorem step_write_ctrl {s : State} {d : Word} {rest : List HostEvent} (h : s.inbox = .write ctrlAddr d :: rest) :
    step s = .next (if d.getLsbD 0 then ({ s with inbox := rest } : State).softReset else { s with inbox := rest }) := by
  simp only [step, h, handle, hostWrite, if_true]

/-- A write in the fault state, but to CTRL (60_exceptions R259). -/
theorem step_write_fault {s : State} {a : BitVec 13} {d : Word} {rest : List HostEvent}
    (h : s.inbox = .write a d :: rest) (hf : s.fault = true) (ha : a ≠ ctrlAddr) :
    step s = .next { s with inbox := rest } := by
  simp only [step, h, handle, hostWrite, if_neg ha, hf, if_true]

/-- A write to CMD (10_state R29). -/
theorem step_write_cmd {s : State} {d : Word} {rest : List HostEvent}
    (h : s.inbox = .write cmdAddr d :: rest) (hf : s.fault = false) :
    step s = runCommand d { s with inbox := rest } := by
  have hne : cmdAddr ≠ ctrlAddr := by decide
  simp only [step, h, handle, hostWrite, if_neg hne, hf, Bool.false_eq_true, if_false, if_true]

/-- A write to any other location (10_state R26). -/
theorem step_write_loc {s : State} {a : BitVec 13} {d : Word} {rest : List HostEvent}
    (h : s.inbox = .write a d :: rest) (hf : s.fault = false) (h1 : a ≠ ctrlAddr) (h2 : a ≠ cmdAddr) :
    step s = .next (({ s with inbox := rest } : State).storeLoc d (portLoc a)) := by
  simp only [step, h, handle, hostWrite, if_neg h1, if_neg h2, hf, Bool.false_eq_true, if_false]

/-- The reset input (70_reset R280). -/
theorem step_powerOn {s : State} {rest : List HostEvent} (h : s.inbox = .powerOn :: rest) :
    step s = .next ({ s with inbox := rest } : State).powerOn := by
  simp only [step, h, handle]

/-- The power-on reset changes the registers, as the soft reset does, the seven internal memories, which stay canonical, and
the free counter (70_reset R280). -/
theorem State.powerOn_cases (s : State) : ∃ tree tprob dqf cprob qcoef coef anz n,
    (Memory.wf 64 tree ∧ Memory.wf 32 tprob ∧ Memory.wf 128 dqf ∧ Memory.wf 1056 cprob ∧ Memory.wf 400 qcoef ∧
      Memory.wf 400 coef ∧ Memory.wf 1024 anz) ∧
    s.powerOn = { s.resetRegs with
      tree := tree, tprob := tprob, dqf := dqf, cprob := cprob, qcoef := qcoef, coef := coef, anz := anz
      freeIx := n } := by
  have wf {w : Nat} (size n : Nat) : Memory.wf size (Memory.scramble ([] : Memory w) n (List.range size)) :=
    Memory.wf_scramble _ _ (Memory.wf_nil _) fun a ha => List.mem_range.mp ha
  refine ⟨_, _, _, _, _, _, _, s.freeIx + 3104, ⟨wf 64 s.freeIx, wf 32 (s.freeIx + 64), wf 128 (s.freeIx + 96),
    wf 1056 (s.freeIx + 224), wf 400 (s.freeIx + 1280), wf 400 (s.freeIx + 1680), wf 1024 (s.freeIx + 2080)⟩, ?_⟩
  unfold State.powerOn
  with_reducible rfl

/-- The reset input during a command (70_reset R282). -/
theorem step_resetDuring {s : State} {w : Word} {rest : List HostEvent} {i : Instr} (h : s.inbox = .resetDuring w :: rest)
    (hf : s.fault = false) (hd : decode w = .ok i) :
    step s = .next (({ s with inbox := rest } : State).abandon i).resetRegs := by
  simp only [step, h, handle, State.resetDuring, hf, hd, Bool.false_eq_true, if_false]

/-- The reset input during a command that fails decoding keeps all memory (70_reset R282; 60_exceptions R257 b). -/
theorem step_resetDuring_undecodable {s : State} {w : Word} {rest : List HostEvent} {e : DecodeError}
    (h : s.inbox = .resetDuring w :: rest) (hf : s.fault = false) (hd : decode w = .error e) :
    step s = .next ({ s with inbox := rest } : State).resetRegs := by
  simp only [step, h, handle, State.resetDuring, hf, hd, Bool.false_eq_true, if_false]

/-- In the fault state no command is interrupted, and it is the reset between two commands (70_reset R280; log 11). -/
theorem step_resetDuring_faulted {s : State} {w : Word} {rest : List HostEvent} (h : s.inbox = .resetDuring w :: rest)
    (hf : s.fault = true) : step s = .next ({ s with inbox := rest } : State).powerOn := by
  simp only [step, h, handle, State.resetDuring, hf, if_true]

/-! ## What a stored location reads as -/

/-- A host write to one location leaves what another reads as, but for BDSTATE[k] after a write to BDSTART[k] or BDEND[k]
(10_state R26, R37). -/
theorem readLoc_storeLoc_ne (s : State) (d : Word) {p q : PortLoc} (hpq : q ≠ p)
    (hs : ∀ k, (p = .bdstart k ∨ p = .bdend k) → q ≠ .bdstate k) : (s.storeLoc d p).readLoc q = s.readLoc q := by
  cases p <;> simp only [State.storeLoc] <;> cases q <;> simp only [State.readLoc]
  all_goals first
    | exact absurd rfl hpq
    | (rw [Memory.read_write_ne]; intro h; exact hpq (h ▸ rfl))
    | (next j k =>
        by_cases hjk : k = j
        · subst hjk
          first
            | exact absurd rfl hpq
            | exact absurd rfl (hs _ (.inl rfl))
            | exact absurd rfl (hs _ (.inr rfl))
            | simp only [State.ctx_setCtx_same]
        · simp only [State.ctx_setCtx_ne _ _ hjk])
    | skip
  all_goals rfl

end Sys2Proof.Machine
end

