-- ==== Sys2Proof/Laws/TD.lean ====
section
/-! SUPPORT. The laws of the token decoder: what a token, a block and a macroblock can read and write, when they succeed, and which fault they raise (41_td R161 to R178). -/

namespace Sys2Proof.Machine

/-! ## One token -/

/-- The greatest number of decisions from a node of CTREE down to a leaf (41_td R175, R176). -/
def tokenDepth (k : Fin 11) : Nat := [7, 6, 5, 4, 2, 1, 3, 1, 2, 1, 1].getD k.val 0

theorem tokenDepth_pos : ∀ k, 1 ≤ tokenDepth k := by decide

theorem tokenDepth_le : ∀ k, tokenDepth k ≤ 7 := by decide

/-- Every inner child is nearer to the leaves (41_td R163, R176). -/
theorem tokenDepth_child : ∀ k b k', romChild rom k b = .inner k' → tokenDepth k' + 1 ≤ tokenDepth k := by decide

theorem walkToken_succ (rom : Config.Rom) (stream : Memory 8) (prob : Nat → Byte) (fuel : Nat) (k : Fin 11) (c : Ctx) :
    walkToken rom stream prob (fuel + 1) k c =
      match readBool stream (prob k.val) c with
      | .error t => .error t
      | .ok (b, c') =>
        match romChild rom k b with
        | .leaf tok => .ok (tok, c')
        | .inner k' => walkToken rom stream prob fuel k' c' := rfl

theorem walkToken_read {stream : Memory 8} {prob : Nat → Byte} {fuel : Nat} {k : Fin 11} {c c' : Ctx}
    {tok : Config.Token} (h : walkToken rom stream prob fuel k c = .ok (tok, c')) : c.Read c' (7 * tokenDepth k) := by
  induction fuel generalizing k c with
  | zero =>
    obtain ⟨-, rfl⟩ := Prod.mk.inj (Except.ok.inj h)
    exact (Ctx.Read.refl _).mono (by omega)
  | succ fuel ih =>
    rw [walkToken_succ] at h
    have hk := tokenDepth_pos k
    split at h
    · cases h
    · next h1 =>
      split at h
      · obtain ⟨-, rfl⟩ := Prod.mk.inj (Except.ok.inj h)
        exact (readBool_read h1).mono (by omega)
      · next h2 =>
        have := tokenDepth_child _ _ _ h2
        exact ((readBool_read h1).trans (ih h)).mono (by omega)

theorem walkToken_succeeds {stream : Memory 8} {prob : Nat → Byte} (fuel : Nat) (k : Fin 11) {c : Ctx}
    (h : c.shifted + 7 * tokenDepth k ≤ 8 * c.endAddr.toNat + 7) :
    ∃ tok c', walkToken rom stream prob fuel k c = .ok (tok, c') := by
  induction fuel generalizing k c with
  | zero => exact ⟨.eob, c, rfl⟩
  | succ fuel ih =>
    have hk := tokenDepth_pos k
    obtain ⟨b, c1, h1⟩ := readBool_succeeds (stream := stream) (prob k.val) (c := c) (by omega)
    obtain ⟨n, hn, ha⟩ := readBool_adv h1
    rw [walkToken_succ, h1]
    dsimp only
    cases h2 : romChild rom k b with
    | leaf tok => exact ⟨tok, c1, rfl⟩
    | inner k' =>
      have := tokenDepth_child _ _ _ h2
      exact ih k' (by rw [ha.shifted, ha.endAddr]; omega)

theorem walkToken_error_name {rom : Config.Rom} {stream : Memory 8} {prob : Nat → Byte} {fuel : Nat} {k : Fin 11}
    {c : Ctx} {t : Trap} (h : walkToken rom stream prob fuel k c = .error t) : t.name = .bdOverrun := by
  induction fuel generalizing k c with
  | zero => cases h
  | succ fuel ih =>
    rw [walkToken_succ] at h
    split at h
    · next h1 => obtain rfl := Except.error.inj h; exact readBool_error_name h1
    · split at h
      · cases h
      · exact ih h

theorem walkToken_error {rom : Config.Rom} {stream : Memory 8} {prob : Nat → Byte} {fuel : Nat} {k : Fin 11} {c : Ctx}
    {t : Trap} (h : walkToken rom stream prob fuel k c = .error t) (hp : c.pos.toNat ≤ c.endAddr.toNat) :
    t = ⟨.bdOverrun, c.endAddr⟩ := by
  induction fuel generalizing k c with
  | zero => cases h
  | succ fuel ih =>
    rw [walkToken_succ] at h
    split at h
    · next h1 => obtain rfl := Except.error.inj h; exact readBool_error h1 hp
    · next h1 =>
      split at h
      · cases h
      · obtain ⟨n, -, ha⟩ := readBool_adv h1
        rw [← ha.endAddr]
        exact ih h (ha.inRange hp)

theorem walkToken_congr {m m' : Memory 8} (rom : Config.Rom) (prob : Nat → Byte) (fuel : Nat) (k : Fin 11) {c : Ctx}
    (h : c.Agree m m') : walkToken rom m prob fuel k c = walkToken rom m' prob fuel k c := by
  induction fuel generalizing k c with
  | zero => rfl
  | succ fuel ih =>
    rw [walkToken_succ, walkToken_succ, ← readBool_congr _ h]
    cases h1 : readBool m (prob k.val) c with
    | error t => rfl
    | ok r => simp only [ih _ ((readBool_read h1).agree h)]

/-! ## The level of a token -/

/-- The greatest magnitude of a category, and its number of extra bits (41_td R174, R175). -/
theorem category_bounds : ∀ j : Fin 6,
    rom.cats[j].base + 2 ^ rom.cats[j].probs.length ≤ 2115 ∧ rom.cats[j].probs.length ≤ 11 := by decide

theorem tokenMag_read {stream : Memory 8} {tok : Config.Token} {c c' : Ctx} {mag : Nat}
    (h : tokenMag rom stream tok c = .ok (mag, c')) : c.Read c' 77 ∧ mag ≤ 2114 := by
  unfold tokenMag at h
  split at h
  · obtain ⟨rfl, rfl⟩ := Prod.mk.inj (Except.ok.inj h)
    exact ⟨(Ctx.Read.refl _).mono (by omega), by omega⟩
  · next m =>
    obtain ⟨rfl, rfl⟩ := Prod.mk.inj (Except.ok.inj h)
    exact ⟨(Ctx.Read.refl _).mono (by omega), by have := m.isLt; omega⟩
  · next j =>
    split at h
    · cases h
    · next ex c1 h1 =>
      obtain ⟨rfl, rfl⟩ := Prod.mk.inj (Except.ok.inj h)
      have hb := category_bounds j
      have hv := (readBits_bounds h1).2
      exact ⟨(readBits_read h1).mono (by omega), by omega⟩

theorem tokenLevel_read {stream : Memory 8} {tok : Config.Token} {c c' : Ctx} {v : Int}
    (h : tokenLevel rom stream tok c = .ok (v, c')) : c.Read c' 84 ∧ -2114 ≤ v ∧ v ≤ 2114 := by
  unfold tokenLevel at h
  split at h
  · obtain ⟨rfl, rfl⟩ := Prod.mk.inj (Except.ok.inj h)
    exact ⟨(Ctx.Read.refl _).mono (by omega), by omega, by omega⟩
  · split at h
    · cases h
    · next mag c1 h1 =>
      split at h
      · cases h
      · next neg c2 h2 =>
        obtain ⟨rfl, rfl⟩ := Prod.mk.inj (Except.ok.inj h)
        obtain ⟨hr, hm⟩ := tokenMag_read h1
        exact ⟨(hr.trans (readBool_read h2)).mono (by omega), by split <;> omega, by split <;> omega⟩

theorem tokenLevel_succeeds {stream : Memory 8} (tok : Config.Token) {c : Ctx}
    (h : c.shifted + 84 ≤ 8 * c.endAddr.toNat + 7) : ∃ v c', tokenLevel rom stream tok c = .ok (v, c') := by
  have hmag : ∃ mag c1, tokenMag rom stream tok c = .ok (mag, c1) := by
    unfold tokenMag
    cases tok with
    | eob => exact ⟨_, _, rfl⟩
    | dct m => exact ⟨_, _, rfl⟩
    | cat j =>
      have hb := (category_bounds j).2
      obtain ⟨ex, c1, h1⟩ := readBits_succeeds (stream := stream) rom.cats[j].probs 0 (c := c) (by omega)
      simp only [h1]
      exact ⟨_, _, rfl⟩
  unfold tokenLevel
  split
  · exact ⟨_, _, rfl⟩
  · obtain ⟨mag, c1, h1⟩ := hmag
    obtain ⟨n, hn, ha⟩ := (tokenMag_read h1).1.adv
    obtain ⟨b, c2, h2⟩ := readBool_succeeds (stream := stream) 128#8 (c := c1)
      (by rw [ha.shifted, ha.endAddr]; omega)
    simp only [h1, h2]
    exact ⟨_, _, rfl⟩

theorem tokenLevel_error_name {rom : Config.Rom} {stream : Memory 8} {tok : Config.Token} {c : Ctx} {t : Trap}
    (h : tokenLevel rom stream tok c = .error t) : t.name = .bdOverrun := by
  unfold tokenLevel at h
  split at h
  · cases h
  · split at h
    · next h1 =>
      obtain rfl := Except.error.inj h
      unfold tokenMag at h1
      split at h1
      · cases h1
      · cases h1
      · split at h1
        · next h2 => obtain rfl := Except.error.inj h1; exact readBits_error_name h2
        · cases h1
    · split at h
      · next h1 => obtain rfl := Except.error.inj h; exact readBool_error_name h1
      · cases h

theorem tokenLevel_error {stream : Memory 8} {tok : Config.Token} {c : Ctx} {t : Trap}
    (h : tokenLevel rom stream tok c = .error t) (hp : c.pos.toNat ≤ c.endAddr.toNat) :
    t = ⟨.bdOverrun, c.endAddr⟩ := by
  unfold tokenLevel at h
  split at h
  · cases h
  · split at h
    · next h1 =>
      obtain rfl := Except.error.inj h
      unfold tokenMag at h1
      split at h1
      · cases h1
      · cases h1
      · split at h1
        · next h2 => obtain rfl := Except.error.inj h1; exact readBits_error h2 hp
        · cases h1
    · next h1 =>
      split at h
      · next h2 =>
        obtain rfl := Except.error.inj h
        obtain ⟨n, -, ha⟩ := (tokenMag_read h1).1.adv
        rw [← ha.endAddr]
        exact readBool_error h2 (ha.inRange hp)
      · cases h

theorem tokenLevel_congr {m m' : Memory 8} (tok : Config.Token) {c : Ctx} (h : c.Agree m m') :
    tokenLevel rom m tok c = tokenLevel rom m' tok c := by
  have hmag : tokenMag rom m tok c = tokenMag rom m' tok c := by
    unfold tokenMag
    cases tok with
    | eob => rfl
    | dct k => rfl
    | cat j => simp only [readBits_congr _ _ h]
  unfold tokenLevel
  rw [← hmag]
  split
  · rfl
  · cases h1 : tokenMag rom m tok c with
    | error t => rfl
    | ok r => simp only [readBool_congr _ ((tokenMag_read (mag := r.1) (c' := r.2) h1).1.agree h)]

/-! ## One block -/

theorem tokens_succ (rom : Config.Rom) (stream cprob : Memory 8) (t left ctx : Nat) (entry : Fin 11) (c : Ctx) :
    tokens rom stream cprob t (left + 1) ctx entry c =
      match walkToken rom stream
          (fun k => cprob.read (cprobIx t (rom.band[Fin.ofNat 16 (15 - left)]).val ctx k)) 11 entry c with
      | .error e => .error e
      | .ok (tok, c1) =>
        if tok = .eob then .ok ([], c1)
        else
          match tokenLevel rom stream tok c1 with
          | .error e => .error e
          | .ok (v, c2) =>
            match tokens rom stream cprob t left (nextCtx tok) (nextEntry tok) c2 with
            | .error e => .error e
            | .ok (vs, c3) => .ok (BitVec.ofInt 16 v :: vs, c3) := rfl

theorem toInt_level {v : Int} (h : -2114 ≤ v ∧ v ≤ 2114) : (BitVec.ofInt 16 v).toInt = v := by
  rw [BitVec.toInt_ofInt]
  apply Int.bmod_eq_of_le <;> norm_num <;> omega

/-- What the tokens of a block read and give: at most 133 shifts for each, at most `left` levels, each between -2114 and 2114
(41_td R174, R175). -/
theorem tokens_read {stream cprob : Memory 8} {t left ctx : Nat} {entry : Fin 11} {c c' : Ctx}
    {levels : List (BitVec 16)} (h : tokens rom stream cprob t left ctx entry c = .ok (levels, c')) :
    c.Read c' (133 * left) ∧ levels.length ≤ left ∧ ∀ v ∈ levels, -2114 ≤ v.toInt ∧ v.toInt ≤ 2114 := by
  induction left generalizing ctx entry c levels with
  | zero =>
    obtain ⟨rfl, rfl⟩ := Prod.mk.inj (Except.ok.inj h)
    exact ⟨.refl _, le_refl _, by simp⟩
  | succ left ih =>
    rw [tokens_succ] at h
    split at h
    · cases h
    · next tok c1 h1 =>
      have hd := tokenDepth_le entry
      split at h
      · obtain ⟨rfl, rfl⟩ := Prod.mk.inj (Except.ok.inj h)
        exact ⟨(walkToken_read h1).mono (by omega), by simp, by simp⟩
      · split at h
        · cases h
        · next v c2 h2 =>
          split at h
          · cases h
          · next vs c3 h3 =>
            obtain ⟨rfl, rfl⟩ := Prod.mk.inj (Except.ok.inj h)
            obtain ⟨hr, hl, hv⟩ := ih h3
            obtain ⟨hr2, hv2⟩ := tokenLevel_read h2
            refine ⟨(((walkToken_read h1).trans hr2).trans hr).mono (by omega), by simp; omega, ?_⟩
            intro u hu
            rcases List.mem_cons.mp hu with rfl | hu
            · rw [toInt_level hv2]; exact hv2
            · exact hv u hu

theorem tokens_succeeds {stream cprob : Memory 8} (t left ctx : Nat) (entry : Fin 11) {c : Ctx}
    (h : c.shifted + 133 * left ≤ 8 * c.endAddr.toNat + 7) :
    ∃ levels c', tokens rom stream cprob t left ctx entry c = .ok (levels, c') := by
  induction left generalizing ctx entry c with
  | zero => exact ⟨[], c, rfl⟩
  | succ left ih =>
    have hd := tokenDepth_le entry
    rw [tokens_succ]
    obtain ⟨tok, c1, h1⟩ := walkToken_succeeds (stream := stream)
      (prob := fun k => cprob.read (cprobIx t (rom.band[Fin.ofNat 16 (15 - left)]).val ctx k)) 11 entry (c := c) (by omega)
    obtain ⟨n, hn, ha⟩ := (walkToken_read h1).adv
    rw [h1]
    dsimp only
    split
    · exact ⟨_, _, rfl⟩
    · obtain ⟨v, c2, h2⟩ := tokenLevel_succeeds (stream := stream) tok (c := c1)
        (by rw [ha.shifted, ha.endAddr]; omega)
      obtain ⟨n2, hn2, ha2⟩ := (tokenLevel_read h2).1.adv
      obtain ⟨vs, c3, h3⟩ := ih (nextCtx tok) (nextEntry tok) (c := c2)
        (by rw [ha2.shifted, ha2.endAddr, ha.shifted, ha.endAddr]; omega)
      simp only [h2, h3]
      exact ⟨_, _, rfl⟩

theorem tokens_error_name {rom : Config.Rom} {stream cprob : Memory 8} {t left ctx : Nat} {entry : Fin 11} {c : Ctx}
    {e : Trap} (h : tokens rom stream cprob t left ctx entry c = .error e) : e.name = .bdOverrun := by
  induction left generalizing ctx entry c with
  | zero => cases h
  | succ left ih =>
    rw [tokens_succ] at h
    split at h
    · next h1 => obtain rfl := Except.error.inj h; exact walkToken_error_name h1
    · split at h
      · cases h
      · split at h
        · next h2 => obtain rfl := Except.error.inj h; exact tokenLevel_error_name h2
        · split at h
          · next h3 => obtain rfl := Except.error.inj h; exact ih h3
          · cases h

theorem tokens_error {stream cprob : Memory 8} {t left ctx : Nat} {entry : Fin 11} {c : Ctx} {e : Trap}
    (h : tokens rom stream cprob t left ctx entry c = .error e) (hp : c.pos.toNat ≤ c.endAddr.toNat) :
    e = ⟨.bdOverrun, c.endAddr⟩ := by
  induction left generalizing ctx entry c with
  | zero => cases h
  | succ left ih =>
    rw [tokens_succ] at h
    split at h
    · next h1 => obtain rfl := Except.error.inj h; exact walkToken_error h1 hp
    · next h1 =>
      obtain ⟨n, -, ha⟩ := (walkToken_read h1).adv
      split at h
      · cases h
      · split at h
        · next h2 =>
          obtain rfl := Except.error.inj h
          rw [← ha.endAddr]
          exact tokenLevel_error h2 (ha.inRange hp)
        · next h2 =>
          obtain ⟨n2, -, ha2⟩ := (tokenLevel_read h2).1.adv
          split at h
          · next h3 =>
            obtain rfl := Except.error.inj h
            rw [← ha.endAddr, ← ha2.endAddr]
            exact ih h3 (ha2.inRange (ha.inRange hp))
          · cases h

theorem tokens_congr {m m' : Memory 8} (cprob : Memory 8) (t left ctx : Nat) (entry : Fin 11) {c : Ctx}
    (h : c.Agree m m') : tokens rom m cprob t left ctx entry c = tokens rom m' cprob t left ctx entry c := by
  induction left generalizing ctx entry c with
  | zero => rfl
  | succ left ih =>
    rw [tokens_succ, tokens_succ, ← walkToken_congr rom _ 11 entry h]
    cases h1 : walkToken rom m
        (fun k => cprob.read (cprobIx t (rom.band[Fin.ofNat 16 (15 - left)]).val ctx k)) 11 entry c with
    | error e => rfl
    | ok r =>
      obtain ⟨tok, c1⟩ := r
      have hc := (walkToken_read h1).agree h
      dsimp only
      rw [← tokenLevel_congr tok hc]
      cases h2 : tokenLevel rom m tok c1 with
      | error e => rfl
      | ok r2 =>
        obtain ⟨v, c2⟩ := r2
        dsimp only
        rw [← ih _ _ ((tokenLevel_read h2).1.agree hc)]

/-- A block that ends at its first decision has no level (41_td R170). -/
theorem tokens_of_eob {stream cprob : Memory 8} {t left ctx : Nat} {c c1 : Ctx}
    (h : readBool stream (cprob.read (cprobIx t (rom.band[Fin.ofNat 16 (15 - left)]).val ctx 0)) c = .ok (false, c1)) :
    tokens rom stream cprob t (left + 1) ctx 0 c = .ok ([], c1) := by
  have hc : romChild rom 0 false = .leaf .eob := by decide
  rw [tokens_succ, walkToken_succ]
  simp only [Fin.val_zero, h, hc, if_true]

/-! ## What TdBlk leaves -/

theorem blockLevels_length {first : Nat} {levels : List (BitVec 16)} (h : first + levels.length ≤ 16) :
    (blockLevels first levels).length = 16 := by
  simp [blockLevels]; omega

/-- The entry of a position: 0 before the first, a level, 0 after the last. -/
theorem blockLevels_getD (first : Nat) (levels : List (BitVec 16)) (j : Nat) :
    (blockLevels first levels).getD j 0 =
      if first ≤ j ∧ j < first + levels.length then levels.getD (j - first) 0 else 0 := by
  unfold blockLevels
  simp only [List.getD_eq_getElem?_getD, List.append_assoc]
  by_cases h1 : j < first
  · rw [List.getElem?_append_left (by simpa using h1), if_neg (by omega)]
    simp [h1]
  · rw [List.getElem?_append_right (by simpa using h1), List.length_replicate]
    by_cases h2 : j < first + levels.length
    · rw [List.getElem?_append_left (by omega), if_pos (by omega)]
    · rw [List.getElem?_append_right (by omega), if_neg (by omega)]
      simp only [List.getElem?_replicate]
      split <;> rfl

/-- One flag written, the others kept (41_td R173). -/
theorem withFlag_getLsbD (v : BitVec 9) {i : Nat} (j : Nat) (b : Bool) (hi : i < 9) :
    (withFlag v i b).getLsbD j = if j = i then b else v.getLsbD j := by
  have h1 : (1#9 <<< i).getLsbD j = decide (j = i) := by
    rw [← BitVec.twoPow_eq, BitVec.getLsbD_twoPow]
    by_cases h : i = j
    · simp [h]; omega
    · simp [h, Ne.symm h]
  have h2 (hj : ¬j < 9) : v.getLsbD j = false := BitVec.getLsbD_of_ge v j (by omega)
  unfold withFlag
  by_cases hj : j < 9 <;> by_cases h : j = i <;> cases b <;> simp [h1, h, hj, h2] <;> omega

theorem lBit_lt (blk : Nat) : lBit blk < 9 := by unfold lBit; split_ifs <;> omega
theorem aBit_lt (blk : Nat) : aBit blk < 9 := by unfold aBit; split_ifs <;> omega

theorem firstPos_le (t : Nat) : firstPos t ≤ 1 := by unfold firstPos; split <;> omega

/-- Everything TdBlk does when it does not fault (41_td R170, R173, R174, R175). -/
theorem tdBlk_ok {stream cprob : Memory 8} {blk t n : Nat} {a a' : Work} {nz : Bool}
    (h : tdBlk rom stream cprob blk t a = .ok (n, nz, a')) :
    ∃ levels, a.ctx.Read a'.ctx 2128 ∧ n = firstPos t + levels.length ∧ n ≤ 16 ∧ nz = decide (0 < levels.length) ∧
      (∀ v ∈ levels, -2114 ≤ v.toInt ∧ v.toInt ≤ 2114) ∧ a' = { a with
        ctx := a'.ctx
        lnz := withFlag a.lnz (lBit blk) nz
        anz := withFlag a.anz (aBit blk) nz
        qcoef := a.qcoef.writeSeq (coefIx blk 0) (blockLevels (firstPos t) levels) } := by
  unfold tdBlk at h
  split at h
  · cases h
  · next levels c1 h1 =>
    obtain ⟨rfl, hi⟩ := Prod.mk.inj (Except.ok.inj h)
    obtain ⟨rfl, rfl⟩ := Prod.mk.inj hi
    clear h
    obtain ⟨hr, hl, hv⟩ := tokens_read h1
    have := firstPos_le t
    exact ⟨levels, hr.mono (by omega), rfl, by omega, rfl, hv, rfl⟩

theorem tdBlk_succeeds {stream cprob : Memory 8} (blk t : Nat) {a : Work}
    (h : a.ctx.shifted + 2128 ≤ 8 * a.ctx.endAddr.toNat + 7) :
    ∃ n nz a', tdBlk rom stream cprob blk t a = .ok (n, nz, a') := by
  obtain ⟨levels, c1, h1⟩ := tokens_succeeds (stream := stream) (cprob := cprob) t (16 - firstPos t)
    (firstCtx a.lnz a.anz blk) 0 (c := a.ctx) (by omega)
  simp only [tdBlk, h1]
  exact ⟨_, _, _, rfl⟩

theorem tdBlk_error_name {rom : Config.Rom} {stream cprob : Memory 8} {blk t : Nat} {a : Work} {e : Trap}
    (h : tdBlk rom stream cprob blk t a = .error e) : e.name = .bdOverrun := by
  unfold tdBlk at h
  split at h
  · next h1 => obtain rfl := Except.error.inj h; exact tokens_error_name h1
  · cases h

theorem tdBlk_error {stream cprob : Memory 8} {blk t : Nat} {a : Work} {e : Trap}
    (h : tdBlk rom stream cprob blk t a = .error e) (hp : a.ctx.pos.toNat ≤ a.ctx.endAddr.toNat) :
    e = ⟨.bdOverrun, a.ctx.endAddr⟩ := by
  unfold tdBlk at h
  split at h
  · next h1 => obtain rfl := Except.error.inj h; exact tokens_error h1 hp
  · cases h

theorem tdBlk_congr {m m' : Memory 8} (cprob : Memory 8) (blk t : Nat) {a : Work} (h : a.ctx.Agree m m') :
    tdBlk rom m cprob blk t a = tdBlk rom m' cprob blk t a := by
  unfold tdBlk
  rw [tokens_congr _ _ _ _ _ h]

/-! ## One macroblock -/

theorem tdBlocks_cons (rom : Config.Rom) (stream cprob : Memory 8) (dqf : Memory 16) (seg blk t : Nat)
    (rest : List (Nat × Nat)) (any : Bool) (a : Work) :
    tdBlocks rom stream cprob dqf seg ((blk, t) :: rest) any a =
      match tdBlk rom stream cprob blk t a with
      | .error e => .error e
      | .ok (_, nz, a') =>
        tdBlocks rom stream cprob dqf seg rest (any || nz) { a' with coef := dqBlk rom a'.qcoef dqf blk t seg a'.coef } :=
  rfl

theorem tdBlocks_error_name {rom : Config.Rom} {stream cprob : Memory 8} {dqf : Memory 16} {seg : Nat}
    {blocks : List (Nat × Nat)} {any : Bool} {a : Work} {e : Trap}
    (h : tdBlocks rom stream cprob dqf seg blocks any a = .error e) : e.name = .bdOverrun := by
  induction blocks generalizing any a with
  | nil => cases h
  | cons b rest ih =>
    rw [tdBlocks_cons] at h
    split at h
    · next h1 => obtain rfl := Except.error.inj h; exact tdBlk_error_name h1
    · exact ih h

theorem tdBlocks_read {stream cprob : Memory 8} {dqf : Memory 16} {seg : Nat} {blocks : List (Nat × Nat)}
    {any any' : Bool} {a a' : Work} (h : tdBlocks rom stream cprob dqf seg blocks any a = .ok (any', a')) :
    a.ctx.Read a'.ctx (2128 * blocks.length) := by
  induction blocks generalizing any a with
  | nil =>
    obtain ⟨-, rfl⟩ := Prod.mk.inj (Except.ok.inj h)
    exact (Ctx.Read.refl _).mono (by omega)
  | cons b rest ih =>
    obtain ⟨blk, t⟩ := b
    rw [tdBlocks_cons] at h
    split at h
    · cases h
    · next h1 =>
      obtain ⟨_, hr, -⟩ := tdBlk_ok h1
      have h2 := ih h
      exact (hr.trans h2).mono (by simp; omega)

theorem tdBlocks_error {stream cprob : Memory 8} {dqf : Memory 16} {seg : Nat} {blocks : List (Nat × Nat)} {any : Bool}
    {a : Work} {e : Trap} (h : tdBlocks rom stream cprob dqf seg blocks any a = .error e)
    (hp : a.ctx.pos.toNat ≤ a.ctx.endAddr.toNat) : e = ⟨.bdOverrun, a.ctx.endAddr⟩ := by
  induction blocks generalizing any a with
  | nil => cases h
  | cons b rest ih =>
    obtain ⟨blk, t⟩ := b
    rw [tdBlocks_cons] at h
    split at h
    · next h1 => obtain rfl := Except.error.inj h; exact tdBlk_error h1 hp
    · next h1 =>
      obtain ⟨_, hr, -⟩ := tdBlk_ok h1
      obtain ⟨n, -, ha⟩ := hr.adv
      rw [← ha.endAddr]
      have h2 := ih h
      exact h2 (ha.inRange hp)

theorem tdBlocks_succeeds {stream cprob : Memory 8} {dqf : Memory 16} {seg : Nat} (blocks : List (Nat × Nat))
    (any : Bool) {a : Work} (h : a.ctx.shifted + 2128 * blocks.length ≤ 8 * a.ctx.endAddr.toNat + 7) :
    ∃ any' a', tdBlocks rom stream cprob dqf seg blocks any a = .ok (any', a') := by
  induction blocks generalizing any a with
  | nil => exact ⟨any, a, rfl⟩
  | cons b rest ih =>
    obtain ⟨blk, t⟩ := b
    have hlen : 2128 * ((blk, t) :: rest).length = 2128 * rest.length + 2128 := by simp [Nat.mul_add]
    rw [hlen] at h
    clear hlen
    have h0 : a.ctx.shifted + 2128 ≤ 8 * a.ctx.endAddr.toNat + 7 :=
      (Nat.add_le_add_left (Nat.le_add_left 2128 (2128 * rest.length)) _).trans h
    obtain ⟨n, nz, a1, h1⟩ := tdBlk_succeeds (stream := stream) (cprob := cprob) blk t h0
    obtain ⟨_, hr, -⟩ := tdBlk_ok h1
    obtain ⟨m, hm, ha⟩ := hr.adv
    rw [tdBlocks_cons, h1]
    have h2 : a1.ctx.shifted + 2128 * rest.length ≤ 8 * a1.ctx.endAddr.toNat + 7 := by
      rw [ha.shifted, ha.endAddr]; omega
    dsimp only
    exact ih _ h2

theorem tdBlocks_congr {m m' : Memory 8} (cprob : Memory 8) (dqf : Memory 16) (seg : Nat) (blocks : List (Nat × Nat))
    (any : Bool) {a : Work} (h : a.ctx.Agree m m') :
    tdBlocks rom m cprob dqf seg blocks any a = tdBlocks rom m' cprob dqf seg blocks any a := by
  induction blocks generalizing any a with
  | nil => rfl
  | cons b rest ih =>
    obtain ⟨blk, t⟩ := b
    rw [tdBlocks_cons, tdBlocks_cons, ← tdBlk_congr cprob blk t h]
    cases h1 : tdBlk rom m cprob blk t a with
    | error e => rfl
    | ok r =>
      obtain ⟨_, hr, -⟩ := tdBlk_ok (n := r.1) (nz := r.2.1) (a' := r.2.2) h1
      have h2 := hr.agree h
      dsimp only
      exact ih _ h2

/-- What holds of the working set before and after each block holds at the end. -/
theorem tdBlocks_induct {stream cprob : Memory 8} {dqf : Memory 16} {seg : Nat} (P : Work → Prop)
    {blocks : List (Nat × Nat)} {any any' : Bool} {a a' : Work}
    (h : tdBlocks rom stream cprob dqf seg blocks any a = .ok (any', a')) (h0 : P a)
    (hstep : ∀ b ∈ blocks, ∀ a1 n nz a2, P a1 → tdBlk rom stream cprob b.1 b.2 a1 = .ok (n, nz, a2) →
      P { a2 with coef := dqBlk rom a2.qcoef dqf b.1 b.2 seg a2.coef }) : P a' := by
  induction blocks generalizing any a with
  | nil =>
    obtain ⟨-, rfl⟩ := Prod.mk.inj (Except.ok.inj h)
    exact h0
  | cons b rest ih =>
    obtain ⟨blk, t⟩ := b
    rw [tdBlocks_cons] at h
    split at h
    · cases h
    · next h1 =>
      exact ih h (hstep (blk, t) (by simp) _ _ _ _ h0 h1) fun b hb => hstep b (by simp [hb])

/-- The blocks of a macroblock: 24, or 25 with a Y2 block, each at most 24, and only the Y2 block uses block 24
(41_td R177). -/
theorem macroblockBlocks_bounds (hasy2 : Bool) : (macroblockBlocks hasy2).length ≤ 25 ∧
    ∀ b ∈ macroblockBlocks hasy2, b.1 ≤ 24 ∧ (hasy2 = false → b.1 ≤ 23) := by
  revert hasy2; decide

end Sys2Proof.Machine
end

