-- ==== Sys2Proof/Laws/Exec.lean ====
section
/-! SUPPORT. What each command can do: for each meaning that can fault, its outcomes, once; for the others, the one next state (30_encoding R104; 60_exceptions R255, R257). -/

namespace Sys2Proof.Machine

/-! ## The shared frames of a command -/

/-- A legal command goes on; an illegal one raises ILLEGAL_OPERAND(1) (30_encoding R104; log 16). -/
theorem guardLegal_of_wf {i : Instr} {s : State} {body : Host.Outcome State Fault Refusal} (h : i.wf = true) :
    guardLegal i s body = body := by simp only [guardLegal, h, if_true]

theorem guardLegal_of_not_wf {i : Instr} {s : State} {body : Host.Outcome State Fault Refusal} (h : i.wf = false) :
    guardLegal i s body = .next (s.raise (encode i) ⟨.illegalOperand, 1⟩) := by
  simp only [guardLegal, h, Bool.false_eq_true, if_false, faulted]

theorem guardLegal_cases {i : Instr} {s t : State} {body : Host.Outcome State Fault Refusal}
    (h : guardLegal i s body = .next t) :
    (i.wf = false ∧ t = s.raise (encode i) ⟨.illegalOperand, 1⟩) ∨ (i.wf = true ∧ body = .next t) := by
  cases hw : i.wf
  · rw [guardLegal_of_not_wf hw] at h
    exact .inl ⟨rfl, (Host.Outcome.next.inj h).symm⟩
  · rw [guardLegal_of_wf hw] at h
    exact .inr ⟨rfl, h⟩

/-! ## The Boolean decoder -/

/-- The three outcomes of a read command: BD_UNINIT, a completed read, a read that faults (40_bd R134, R145; 60_exceptions
R257). -/
theorem bdRead_cases {i : Instr} {s t : State} {read : Ctx → Except Trap (Word × Ctx)} (h : bdRead i s read = .next t) :
    (s.curCtx.init = false ∧ t = s.raise (encode i) ⟨.bdUninit, BitVec.ofNat 32 s.cur.val⟩) ∨
      (s.curCtx.init = true ∧ ∃ v c, read s.curCtx = .ok (v, c) ∧
        t = ({ s.setCtx s.cur c with result := v } : State).complete) ∨
      (s.curCtx.init = true ∧ ∃ e, read s.curCtx = .error e ∧ t = s.scrambleRead.raise (encode i) e) := by
  unfold bdRead at h
  split at h
  · next hi =>
    split at h
    · next e he => exact .inr (.inr ⟨hi, e, he, (Host.Outcome.next.inj h).symm⟩)
    · next v c hv => exact .inr (.inl ⟨hi, v, c, hv, (Host.Outcome.next.inj h).symm⟩)
  · next hi => exact .inl ⟨by simpa using hi, (Host.Outcome.next.inj h).symm⟩

theorem bdRead_ok {i : Instr} {s : State} {read : Ctx → Except Trap (Word × Ctx)} {v : Word} {c : Ctx}
    (hi : s.curCtx.init = true) (h : read s.curCtx = .ok (v, c)) :
    bdRead i s read = .next ({ s.setCtx s.cur c with result := v } : State).complete := by
  simp only [bdRead, hi, if_true, h, completed]

theorem bdRead_error {i : Instr} {s : State} {read : Ctx → Except Trap (Word × Ctx)} {e : Trap}
    (hi : s.curCtx.init = true) (h : read s.curCtx = .error e) :
    bdRead i s read = .next (s.scrambleRead.raise (encode i) e) := by
  simp only [bdRead, hi, if_true, h, faulted]

theorem bdRead_uninit {i : Instr} {s : State} {read : Ctx → Except Trap (Word × Ctx)} (hi : s.curCtx.init = false) :
    bdRead i s read = .next (s.raise (encode i) ⟨.bdUninit, BitVec.ofNat 32 s.cur.val⟩) := by
  simp only [bdRead, hi, Bool.false_eq_true, if_false, faulted]

theorem readBoolWord_ok {stream : Memory 8} {p : BitVec 8} {c c' : Ctx} {v : Word}
    (h : readBoolWord stream p c = .ok (v, c')) : ∃ b, readBool stream p c = .ok (b, c') ∧ v = BitVec.ofNat 32 b.toNat := by
  unfold readBoolWord at h
  split at h
  · cases h
  · next b c1 h1 =>
    obtain ⟨rfl, rfl⟩ := Prod.mk.inj (Except.ok.inj h)
    exact ⟨b, h1, rfl⟩

theorem readBoolWord_error {stream : Memory 8} {p : BitVec 8} {c : Ctx} {e : Trap} :
    readBoolWord stream p c = .error e ↔ readBool stream p c = .error e := by
  unfold readBoolWord
  split
  · next h => rw [h]; simp
  · next h => rw [h]; simp

theorem readLitWord_ok {stream : Memory 8} {n : Nat} {c c' : Ctx} {v : Word} (h : readLitWord stream n c = .ok (v, c')) :
    ∃ k, readBits stream (List.replicate n 128#8) 0 c = .ok (k, c') ∧ v = BitVec.ofNat 32 k := by
  unfold readLitWord at h
  split at h
  · cases h
  · next k c1 h1 =>
    obtain ⟨rfl, rfl⟩ := Prod.mk.inj (Except.ok.inj h)
    exact ⟨k, h1, rfl⟩

theorem readLitWord_error {stream : Memory 8} {n : Nat} {c : Ctx} {e : Trap} :
    readLitWord stream n c = .error e ↔ readBits stream (List.replicate n 128#8) 0 c = .error e := by
  unfold readLitWord
  split
  · next h => rw [h]; simp
  · next h => rw [h]; simp

/-- The outcomes of BD_TREE (40_bd R137; 60_exceptions R257). -/
theorem execBdTree_cases {start : BitVec 6} {s t : State} (h : execBdTree start s = .next t) :
    (s.curCtx.init = true ∧ 62 < start.toNat ∧ t = s.raise (encode (.bdTree start)) ⟨.treeRange, start.setWidth 32⟩) ∨
      (¬(s.curCtx.init = true ∧ 62 < start.toNat) ∧ bdRead (.bdTree start) s
        (fun c => treeWalk s.stream s.tree s.tprob (walkBound c) start.toNat c) = .next t) := by
  unfold execBdTree at h
  split at h
  · next hc => exact .inl ⟨hc.1, hc.2, (Host.Outcome.next.inj h).symm⟩
  · next hc => exact .inr ⟨hc, h⟩

/-- The outcomes of a legal BD_SEEK (40_bd R131; 60_exceptions R257). -/
theorem execBdSeek_cases {ctx : BitVec 4} {s t : State} (h : execBdSeek ctx s = .next t) :
    ((Instr.bdSeek ctx).wf = false ∧ t = s.raise (encode (.bdSeek ctx)) ⟨.illegalOperand, 1⟩) ∨
      (¬((s.ctx (Fin.ofNat 9 ctx.toNat)).startAddr ≤ (s.ctx (Fin.ofNat 9 ctx.toNat)).endAddr ∧
          (s.ctx (Fin.ofNat 9 ctx.toNat)).endAddr.toNat ≤ s.params.streamSize) ∧
        t = s.raise (encode (.bdSeek ctx)) ⟨.bdRange, BitVec.ofNat 32 (Fin.ofNat 9 ctx.toNat).val⟩) ∨
      ((s.ctx (Fin.ofNat 9 ctx.toNat)).startAddr.toNat ≤ (s.ctx (Fin.ofNat 9 ctx.toNat)).endAddr.toNat ∧
        (s.ctx (Fin.ofNat 9 ctx.toNat)).endAddr.toNat ≤ s.params.streamSize ∧
        ((∃ c, seek s.stream (s.ctx (Fin.ofNat 9 ctx.toNat)) = .ok c ∧
            t = (s.setCtx (Fin.ofNat 9 ctx.toNat) c).complete) ∨
          ∃ e, seek s.stream (s.ctx (Fin.ofNat 9 ctx.toNat)) = .error e ∧
            t = (s.scrambleSeek (Fin.ofNat 9 ctx.toNat)).raise (encode (.bdSeek ctx)) e)) := by
  unfold execBdSeek at h
  rcases guardLegal_cases h with h | ⟨-, h⟩
  · exact .inl h
  · right
    split at h
    · next hc =>
      refine .inr ⟨BitVec.le_def.mp hc.1, hc.2, ?_⟩
      split at h
      · next e he => exact .inr ⟨e, he, (Host.Outcome.next.inj h).symm⟩
      · next c hv => exact .inl ⟨c, hv, (Host.Outcome.next.inj h).symm⟩
    · next hc => exact .inl ⟨hc, (Host.Outcome.next.inj h).symm⟩

/-! ## The token decoder -/

/-- The outcomes of TD_BLK (41_td R171; 60_exceptions R257). -/
theorem execTdBlk_cases {blk : BitVec 5} {type : BitVec 2} {col : BitVec 10} {s t : State}
    (h : execTdBlk blk type col s = .next t) :
    ((Instr.tdBlk blk type col).wf = false ∧
        t = s.raise (encode (.tdBlk blk type col)) ⟨.illegalOperand, 1⟩) ∨
      (s.curCtx.init = false ∧
        t = s.raise (encode (.tdBlk blk type col)) ⟨.bdUninit, BitVec.ofNat 32 s.cur.val⟩) ∨
      ((Instr.tdBlk blk type col).wf = true ∧ s.curCtx.init = true ∧
        ((∃ n nz a, tdBlk rom s.stream s.cprob blk.toNat type.toNat (s.work col.toNat) = .ok (n, nz, a) ∧
            t = ({ s.putWork col.toNat a with result := BitVec.ofNat 32 n } : State).complete) ∨
          ∃ e, tdBlk rom s.stream s.cprob blk.toNat type.toNat (s.work col.toNat) = .error e ∧
            t = (s.scrambleTdBlk blk.toNat col.toNat).raise (encode (.tdBlk blk type col)) e)) := by
  unfold execTdBlk at h
  rcases guardLegal_cases h with h | ⟨hw, h⟩
  · exact .inl h
  · right
    split at h
    · next hi =>
      refine .inr ⟨hw, hi, ?_⟩
      split at h
      · next e he => exact .inr ⟨e, he, (Host.Outcome.next.inj h).symm⟩
      · next n nz a hv => exact .inl ⟨n, nz, a, hv, (Host.Outcome.next.inj h).symm⟩
    · next hi => exact .inl ⟨by simpa using hi, (Host.Outcome.next.inj h).symm⟩

/-- The outcomes of TD_MB with SKIP = 0 (41_td R177; 60_exceptions R257). -/
theorem execTdMb_cases {seg : BitVec 2} {col : BitVec 10} {hasy2 : Bool} {s t : State}
    (h : execTdMb seg col hasy2 false s = .next t) :
    (s.curCtx.init = false ∧
        t = s.raise (encode (.tdMb seg col hasy2 false)) ⟨.bdUninit, BitVec.ofNat 32 s.cur.val⟩) ∨
      (s.curCtx.init = true ∧
        ((∃ any a, tdBlocks rom s.stream s.cprob s.dqf seg.toNat (macroblockBlocks hasy2) false
              (if hasy2 then s.work col.toNat else clearY2 (s.work col.toNat)) = .ok (any, a) ∧
            t = ({ s.putWork col.toNat a with result := BitVec.ofNat 32 any.toNat } : State).complete) ∨
          ∃ e, tdBlocks rom s.stream s.cprob s.dqf seg.toNat (macroblockBlocks hasy2) false
              (if hasy2 then s.work col.toNat else clearY2 (s.work col.toNat)) = .error e ∧
            t = (s.scrambleTdMb col.toNat).raise (encode (.tdMb seg col hasy2 false)) e)) := by
  unfold execTdMb at h
  simp only [Bool.false_eq_true, if_false] at h
  split at h
  · next hi =>
    refine .inr ⟨hi, ?_⟩
    split at h
    · next e he => exact .inr ⟨e, he, (Host.Outcome.next.inj h).symm⟩
    · next any a hv => exact .inl ⟨any, a, hv, (Host.Outcome.next.inj h).symm⟩
  · next hi => exact .inl ⟨by simpa using hi, (Host.Outcome.next.inj h).symm⟩

/-- TD_MB with SKIP = 1 (41_td R177). -/
theorem execTdMb_skip (seg : BitVec 2) (col : BitVec 10) (hasy2 : Bool) (s : State) :
    execTdMb seg col hasy2 true s = .next (skipMacroblock col.toNat hasy2 s).complete := by
  simp only [execTdMb, if_true, completed]

/-! ## The loop filter -/

/-- The outcomes of LF_SEG (43_lf R211; 60_exceptions R257). -/
theorem execLfSeg_cases {plane : BitVec 2} {dir : Dir} {kind : Kind} {s t : State}
    (h : execLfSeg plane dir kind s = .next t) :
    ((Instr.lfSeg plane dir kind).wf = false ∧
        t = s.raise (encode (.lfSeg plane dir kind)) ⟨.illegalOperand, 1⟩) ∨
      (∃ pix, s.seg (s.segAtXY plane dir kind) s.pix = .ok pix ∧ t = ({ s with pix := pix } : State).complete) ∨
      ∃ e, s.seg (s.segAtXY plane dir kind) s.pix = .error e ∧ t = s.raise (encode (.lfSeg plane dir kind)) e := by
  unfold execLfSeg at h
  rcases guardLegal_cases h with h | ⟨-, h⟩
  · exact .inl h
  · right
    split at h
    · next e he => exact .inr ⟨e, he, (Host.Outcome.next.inj h).symm⟩
    · next pix hv => exact .inl ⟨pix, hv, (Host.Outcome.next.inj h).symm⟩

/-- The outcomes of a 2D operation (43_lf R214, R215; 60_exceptions R257). -/
theorem runSegs_cases {i : Instr} {ops : List SegOp} {s t : State} (h : runSegs i s ops = .next t) :
    (∃ pix, s.segs ops s.pix = .ok pix ∧ t = ({ s with pix := pix } : State).complete) ∨
      ∃ e, s.segs ops s.pix = .error e ∧ t = (s.scramblePix ops).raise (encode i) e := by
  unfold runSegs at h
  split at h
  · next e he => exact .inr ⟨e, he, (Host.Outcome.next.inj h).symm⟩
  · next pix hv => exact .inl ⟨pix, hv, (Host.Outcome.next.inj h).symm⟩

/-- The outcomes of LF_EDGE (43_lf R214). -/
theorem execLfEdge_cases {plane : BitVec 2} {dir : Dir} {kind : Kind} {lenm1 : BitVec 4} {s t : State}
    (h : execLfEdge plane dir kind lenm1 s = .next t) :
    ((Instr.lfEdge plane dir kind lenm1).wf = false ∧
        t = s.raise (encode (.lfEdge plane dir kind lenm1)) ⟨.illegalOperand, 1⟩) ∨
      runSegs (.lfEdge plane dir kind lenm1) s
        (edgeOps plane.toNat dir kind s.lfx.toNat s.lfy.toNat (lenm1.toNat + 1)) = .next t := by
  unfold execLfEdge at h
  rcases guardLegal_cases h with h | ⟨-, h⟩
  · exact .inl h
  · exact .inr h

/-- The outcomes of LF_MB (43_lf R215, R216). -/
theorem execLfMb_cases {mbx mby : BitVec 10} {noinner : Bool} {s t : State} (h : execLfMb mbx mby noinner s = .next t) :
    ((s.baselvl = 0 ∨ s.lflvl = 0) ∧ t = s.complete) ∨
      (¬(s.baselvl = 0 ∨ s.lflvl = 0) ∧
        runSegs (.lfMb mbx mby noinner) s (macroblockOps s.simple mbx.toNat mby.toNat noinner) = .next t) := by
  unfold execLfMb at h
  split at h
  · next hc => exact .inl ⟨hc, (Host.Outcome.next.inj h).symm⟩
  · next hc => exact .inr ⟨hc, h⟩

/-! ## A command abandoned in the middle -/

/-- The write-set bytes of PIX under free values: the others stay, and the form is kept (43_lf R217; log 7). -/
theorem State.scramblePix_spec (s : State) (ops : List SegOp) :
    (∀ a, a ∉ s.segsMayWrite ops → (s.scramblePix ops).pix.read a = s.pix.read a) ∧
      (Memory.wf s.params.pixSize s.pix → Memory.wf s.params.pixSize (s.scramblePix ops).pix) :=
  ⟨fun _ ha => Memory.read_scramble_of_not_mem _ _ _ _ ha,
    fun h => Memory.wf_scramble _ _ h fun _ ha => segsMayWrite_lt ha⟩

/-- What a reset in the middle of a command keeps: all but QCOEF, COEF, ANZ, PIX and the registers (70_reset R282). -/
theorem State.abandon_cases (i : Instr) (s : State) : ∃ qcoef coef anz pix n,
    (s.abandon i).resetRegs = { s.resetRegs with qcoef := qcoef, coef := coef, anz := anz, pix := pix, freeIx := n } ∧
      qcoef = (s.abandon i).qcoef ∧ coef = (s.abandon i).coef ∧ anz = (s.abandon i).anz ∧ pix = (s.abandon i).pix := by
  refine ⟨_, _, _, _, (s.abandon i).freeIx, ?_, rfl, rfl, rfl, rfl⟩
  cases i with
  | lfMb mbx mby noinner => unfold State.abandon; dsimp only; split <;> rfl
  | _ => rfl

/-- Only TD_BLK and TD_MB may lose entries of QCOEF to a reset in their middle. -/
theorem State.abandon_qcoef {i : Instr} {s : State} (hblk : ∀ blk type col, i ≠ .tdBlk blk type col)
    (hmb : ∀ seg col hasy2 skip, i ≠ .tdMb seg col hasy2 skip) : (s.abandon i).qcoef = s.qcoef := by
  cases i with
  | tdBlk blk type col => exact absurd rfl (hblk blk type col)
  | tdMb seg col hasy2 skip => exact absurd rfl (hmb seg col hasy2 skip)
  | lfMb mbx mby noinner => simp only [State.abandon]; split <;> rfl
  | _ => simp only [State.abandon, State.scramblePix]

/-- Only DQ_BLK and TD_MB may lose entries of COEF to a reset in their middle. -/
theorem State.abandon_coef {i : Instr} {s : State} (hblk : ∀ blk type seg, i ≠ .dqBlk blk type seg)
    (hmb : ∀ seg col hasy2 skip, i ≠ .tdMb seg col hasy2 skip) : (s.abandon i).coef = s.coef := by
  cases i with
  | dqBlk blk type seg => exact absurd rfl (hblk blk type seg)
  | tdMb seg col hasy2 skip => exact absurd rfl (hmb seg col hasy2 skip)
  | tdBlk blk type col => rfl
  | lfMb mbx mby noinner => simp only [State.abandon]; split <;> rfl
  | _ => simp only [State.abandon, State.scramblePix]

/-- Only TD_RST, TD_BLK and TD_MB may lose flags of ANZ to a reset in their middle. -/
theorem State.abandon_anz {i : Instr} {s : State} (hrst : i ≠ .tdRst) (hblk : ∀ blk type col, i ≠ .tdBlk blk type col)
    (hmb : ∀ seg col hasy2 skip, i ≠ .tdMb seg col hasy2 skip) : (s.abandon i).anz = s.anz := by
  cases i with
  | tdRst => exact absurd rfl hrst
  | tdBlk blk type col => exact absurd rfl (hblk blk type col)
  | tdMb seg col hasy2 skip => exact absurd rfl (hmb seg col hasy2 skip)
  | lfMb mbx mby noinner => simp only [State.abandon]; split <;> rfl
  | _ => simp only [State.abandon, State.scramblePix]

/-- Only LF_SEG, LF_EDGE and LF_MB may lose bytes of PIX to a reset in their middle. -/
theorem State.abandon_pix {i : Instr} {s : State} (hseg : ∀ plane dir kind, i ≠ .lfSeg plane dir kind)
    (hedge : ∀ plane dir kind lenm1, i ≠ .lfEdge plane dir kind lenm1) (hmb : ∀ mbx mby noinner, i ≠ .lfMb mbx mby noinner) :
    (s.abandon i).pix = s.pix := by
  cases i with
  | lfSeg plane dir kind => exact absurd rfl (hseg plane dir kind)
  | lfEdge plane dir kind lenm1 => exact absurd rfl (hedge plane dir kind lenm1)
  | lfMb mbx mby noinner => exact absurd rfl (hmb mbx mby noinner)
  | tdBlk blk type col => rfl
  | tdMb seg col hasy2 skip => simp only [State.abandon, State.scrambleTdMb]; rfl
  | _ => simp only [State.abandon]

/-- A command abandoned in the middle keeps the memories canonical (70_reset R282). -/
theorem State.abandon_wf {i : Instr} {s : State} (hi : i.wf = true) (h : s.MemOk) :
    Memory.wf 400 (s.abandon i).qcoef ∧ Memory.wf 400 (s.abandon i).coef ∧ Memory.wf 1024 (s.abandon i).anz ∧
      Memory.wf s.params.pixSize (s.abandon i).pix := by
  have hblk {b : BitVec 5} (hb : b.toNat ≤ 24) : ∀ a ∈ List.range' (coefIx b.toNat 0) 16, a < 400 := by
    intro a ha
    obtain ⟨j, hj, rfl⟩ := List.mem_range'.mp ha
    unfold coefIx
    omega
  have hall (n : Nat) : ∀ a ∈ List.range n, a < n := fun a ha => List.mem_range.mp ha
  cases i with
  | tdRst =>
    have h1 := Memory.wf_scramble (List.range 1024) s.freeIx h.anz (hall 1024)
    simp only [State.abandon]
    exact ⟨h.qcoef, h.coef, h1, h.pix⟩
  | tdBlk blk type col =>
    exact ⟨Memory.wf_scramble _ _ h.qcoef (hblk (by simpa [Instr.wf, blkLegal] using hi)), h.coef,
      Memory.wf_write _ h.anz col.isLt, h.pix⟩
  | dqBlk blk type seg =>
    exact ⟨h.qcoef, Memory.wf_scramble _ _ h.coef (hblk (by simpa [Instr.wf, blkLegal] using hi)), h.anz, h.pix⟩
  | tdMb seg col hasy2 skip =>
    have h1 := Memory.wf_scramble (List.range 400) (s.freeIx + 7) h.qcoef (hall 400)
    have h2 := Memory.wf_scramble (List.range 400) (s.freeIx + 407) h.coef (hall 400)
    simp only [State.abandon, State.scrambleTdMb]
    exact ⟨h1, h2, Memory.wf_write _ h.anz col.isLt, h.pix⟩
  | lfSeg plane dir kind => exact ⟨h.qcoef, h.coef, h.anz, (s.scramblePix_spec _).2 h.pix⟩
  | lfEdge plane dir kind lenm1 => exact ⟨h.qcoef, h.coef, h.anz, (s.scramblePix_spec _).2 h.pix⟩
  | lfMb mbx mby noinner =>
    unfold State.abandon
    dsimp only
    split
    · exact ⟨h.qcoef, h.coef, h.anz, h.pix⟩
    · exact ⟨h.qcoef, h.coef, h.anz, (s.scramblePix_spec _).2 h.pix⟩
  | _ => exact ⟨h.qcoef, h.coef, h.anz, h.pix⟩

/-! ## Sequences of commands -/

theorem execSeq_of_next {i : Instr} {is : List Instr} {s t : State} (hf : s.fault = false) (h : exec i s = .next t) :
    execSeq (i :: is) s = execSeq is t := by
  rw [execSeq, if_neg (by simp [hf]), h]

/-- A recorded fault ends the sequence (60_exceptions R259). -/
theorem execSeq_of_fault {is : List Instr} {s : State} (hf : s.fault = true) : execSeq is s = .next s := by
  cases is with
  | nil => rfl
  | cons i is => rw [execSeq, if_pos hf]

theorem execSeq_append {is js : List Instr} {s t : State} (h : execSeq is s = .next t) (hf : t.fault = false) :
    execSeq (is ++ js) s = execSeq js t := by
  induction is generalizing s with
  | nil => cases h; rfl
  | cons i is ih =>
    rw [List.cons_append]
    cases hs : s.fault with
    | true =>
      rw [execSeq_of_fault hs] at h
      cases h
      simp [hs] at hf
    | false =>
      simp only [execSeq, hs] at h ⊢
      cases he : exec i s with
      | next u => rw [he] at h; exact ih h
      | fault r => rw [he] at h; cases h
      | refused r => rw [he] at h; cases h

end Sys2Proof.Machine
end

