-- ==== Sys2Proof/Laws/PerInstr.lean ====
section
/-! SUPPORT. The statements made for every command, one lemma per constructor: the word of a command carries its opcode and its fields, and zeros in the reserved places (30_encoding R100 to R102). -/

namespace Sys2Proof.Laws

/-- The word of a command: its opcode in bits 31:24, 0 in the reserved places, and its operands in the fields the format names
(30_encoding R100 to R102). -/
def TableWord.Statement (i : Instr) : Prop :=
  (encode i).extractLsb' 24 8 = i.opcode.code ∧ encode i &&& i.opcode.reserved = 0#32 ∧ i.opcode.fields (encode i) = i

/-- The statement holds of every command, whatever its operands. -/
theorem TableWord.of_instr (i : Instr) : TableWord.Statement i := ⟨encode_opcode i, encode_reserved i, encode_fields i⟩

theorem TableWord.nop : TableWord.Statement .nop := TableWord.of_instr _
theorem TableWord.bdSel (ctx : BitVec 4) : TableWord.Statement (.bdSel ctx) := TableWord.of_instr _
theorem TableWord.bdSeek (ctx : BitVec 4) : TableWord.Statement (.bdSeek ctx) := TableWord.of_instr _
theorem TableWord.bdBit : TableWord.Statement .bdBit := TableWord.of_instr _
theorem TableWord.bdBool (prob : BitVec 8) : TableWord.Statement (.bdBool prob) := TableWord.of_instr _
theorem TableWord.bdLit (n : BitVec 5) : TableWord.Statement (.bdLit n) := TableWord.of_instr _
theorem TableWord.bdTree (start : BitVec 6) : TableWord.Statement (.bdTree start) := TableWord.of_instr _
theorem TableWord.tdRst : TableWord.Statement .tdRst := TableWord.of_instr _
theorem TableWord.tdNewrow : TableWord.Statement .tdNewrow := TableWord.of_instr _
theorem TableWord.tdBlk (blk : BitVec 5) (type : BitVec 2) (col : BitVec 10) : TableWord.Statement (.tdBlk blk type col) :=
  TableWord.of_instr _
theorem TableWord.dqBlk (blk : BitVec 5) (type : BitVec 2) (seg : BitVec 2) : TableWord.Statement (.dqBlk blk type seg) :=
  TableWord.of_instr _
theorem TableWord.tdMb (seg : BitVec 2) (col : BitVec 10) (hasy2 : Bool) (skip : Bool) : TableWord.Statement (.tdMb seg col hasy2 skip) :=
  TableWord.of_instr _
theorem TableWord.lfSetlvl (lvl : BitVec 6) : TableWord.Statement (.lfSetlvl lvl) := TableWord.of_instr _
theorem TableWord.lfAdjlvl (delta : BitVec 7) : TableWord.Statement (.lfAdjlvl delta) := TableWord.of_instr _
theorem TableWord.lfSetx (coord : BitVec 14) : TableWord.Statement (.lfSetx coord) := TableWord.of_instr _
theorem TableWord.lfSety (coord : BitVec 14) : TableWord.Statement (.lfSety coord) := TableWord.of_instr _
theorem TableWord.lfSeg (plane : BitVec 2) (dir : Dir) (kind : Kind) : TableWord.Statement (.lfSeg plane dir kind) :=
  TableWord.of_instr _
theorem TableWord.lfEdge (plane : BitVec 2) (dir : Dir) (kind : Kind) (lenm1 : BitVec 4) : TableWord.Statement (.lfEdge plane dir kind lenm1) :=
  TableWord.of_instr _
theorem TableWord.lfMb (mbx : BitVec 10) (mby : BitVec 10) (noinner : Bool) : TableWord.Statement (.lfMb mbx mby noinner) :=
  TableWord.of_instr _

end Sys2Proof.Laws
end

