-- ==== Sys2Proof/Tests/Slice0.lean ====
section
/-! SUPPORT. Tests of the model against the spec's own worked encodings (30_encoding R110) and vectors (95_test_vectors), smoke tests of WellFormed, and for every statement with hypotheses a state and operands that meet them. -/

namespace Sys2Proof.Tests

section

set_option Elab.async false

open Sys2Proof.Machine

/-! ## Helpers -/

/-- Consecutive bytes from address 0 on. -/
def bytes (l : List Nat) : Memory 8 := Memory.writeSeq (w := 8) [] 0 (l.map (BitVec.ofNat 8))

/-- A context in the middle of a range [0, stop). -/
def ctxAt (stop pos value range bitcnt : Nat) : Ctx :=
  { startAddr := 0, endAddr := BitVec.ofNat 32 stop, pos := BitVec.ofNat 32 pos, value := BitVec.ofNat 16 value
    range := BitVec.ofNat 8 range, bitcnt := BitVec.ofNat 3 bitcnt, init := true }

/-- The reset state with the stream bytes `l` and context 0 as given. -/
def reading (l : List Nat) (c : Ctx) : State := { State.reset with stream := bytes l, bd := State.reset.bd.set 0 c }

/-- The reset state with the stream bytes `l` and the range [0, length) of context 0, before BD_SEEK. -/
def unread (l : List Nat) : State :=
  reading l { ctxAt l.length 0 0 0 0 with init := false }

/-- CPROB of one block type at 128 (95_test_vectors TD-V1 to TD-V4); a command reads the entries of its own type only. -/
def evenProbs (t : Nat) : Memory 8 := (List.range 264).map fun a => (t * 264 + a, 128#8)

/-- The reset state with the pixels `l` from address 0 on, YBASE 0, YSTRIDE `stride`, the level and the position. -/
def pixels (l : List Nat) (stride lvl x y : Nat) : State :=
  { State.reset with
    pix := bytes l, ystride := BitVec.ofNat 16 stride, lflvl := BitVec.ofNat 6 lvl
    lfx := BitVec.ofNat 14 x, lfy := BitVec.ofNat 14 y }

/-- A command answers a next state of which `p` holds. -/
def after (i : Instr) (s : State) (p : State → Bool) : Bool :=
  match exec i s with
  | .next t => p t
  | .fault _ => false
  | .refused _ => false

theorem exists_of_after {i : Instr} {s : State} {p : State → Bool} (h : after i s p = true) :
    ∃ t, exec i s = .next t ∧ p t = true := by
  unfold after at h
  split at h
  · next t ht => exact ⟨t, ht, h⟩
  · cases h
  · cases h

/-- The decoder state a vector lists: POS, VALUE, RANGE, BITCNT. -/
def decoder (c : Ctx) : Nat × Nat × Nat × Nat := (c.pos.toNat, c.value.toNat, c.range.toNat, c.bitcnt.toNat)

/-- The first `n` bytes of PIX from `a` on. -/
def pixRow (s : State) (a n : Nat) : List Nat := (List.range n).map fun j => (s.pix.read (a + j)).toNat

/-! ## WellFormed refuses ill-formed terms (30_encoding R102) -/

theorem test_ctx_nine_is_ill_formed : (Instr.bdSel 9).wf = false ∧ (Instr.bdSeek 15).wf = false := by decide
theorem test_blk_25_is_ill_formed : (Instr.tdBlk 25 0 0).wf = false ∧ (Instr.dqBlk 31 0 0).wf = false := by decide
theorem test_plane_3_is_ill_formed : (Instr.lfSeg 3 .v .smb).wf = false ∧ (Instr.lfEdge 3 .h .nsub 15).wf = false := by
  decide

/-! ## Every constructor's decoding, by words of 30_encoding R110 -/

theorem test_decode_nop : decode 0x00000000#32 = .ok .nop := by decide
theorem test_decode_bd_sel : decode 0x01000001#32 = .ok (.bdSel 1) := by decide
theorem test_decode_bd_seek : decode 0x02000008#32 = .ok (.bdSeek 8) := by decide
theorem test_decode_bd_bit : decode 0x03000000#32 = .ok .bdBit := by decide
theorem test_decode_bd_bool : decode 0x040000C8#32 = .ok (.bdBool 200) := by decide
theorem test_decode_bd_lit : decode 0x05000008#32 = .ok (.bdLit 8) := by decide
theorem test_decode_bd_tree : decode 0x06000002#32 = .ok (.bdTree 2) := by decide
theorem test_decode_td_rst : decode 0x10000000#32 = .ok .tdRst := by decide
theorem test_decode_td_newrow : decode 0x11000000#32 = .ok .tdNewrow := by decide
theorem test_decode_td_blk : decode 0x12001466#32 = .ok (.tdBlk 6 3 5) := by decide
theorem test_decode_dq_blk : decode 0x13000166#32 = .ok (.dqBlk 6 3 2) := by decide
theorem test_decode_td_mb :
    decode 0x14100080#32 = .ok (.tdMb 1 0 true false) ∧ decode 0x14200480#32 = .ok (.tdMb 1 1 false true) := by decide
theorem test_decode_lf_setlvl : decode 0x2000003C#32 = .ok (.lfSetlvl 60) := by decide
theorem test_decode_lf_adjlvl :
    decode 0x2100000A#32 = .ok (.lfAdjlvl 10) ∧ decode 0x21000076#32 = .ok (.lfAdjlvl (-10)) := by decide
theorem test_decode_lf_setx : decode 0x22000010#32 = .ok (.lfSetx 16) := by decide
theorem test_decode_lf_sety : decode 0x23000000#32 = .ok (.lfSety 0) := by decide
theorem test_decode_lf_seg : decode 0x24000018#32 = .ok (.lfSeg 0 .v .nsub) := by decide
theorem test_decode_lf_edge : decode 0x25000715#32 = .ok (.lfEdge 1 .h .nmb 7) := by decide
theorem test_decode_lf_mb :
    decode 0x26000001#32 = .ok (.lfMb 1 0 false) ∧ decode 0x26100401#32 = .ok (.lfMb 1 1 true) := by decide

/-- The words that fault at decode (30_encoding R110). -/
theorem test_decode_faults :
    decode 0x07000000#32 = .error (.illegalCmd 7) ∧ decode 0x03000001#32 = .error .reservedBit ∧
      decode 0x01000009#32 = .error .operandRange ∧ decode 0x12000019#32 = .error .operandRange ∧
      decode 0x24000003#32 = .error .operandRange ∧ decode 0x24000118#32 = .error .reservedBit := by decide

/-- Reserved bits inside format T and format E (95_test_vectors TD-V5, DQ-V2, LF-V6). -/
theorem test_decode_reserved_fields :
    decode 0x12000080#32 = .error .reservedBit ∧ decode 0x13000400#32 = .error .reservedBit ∧
      decode 0x25001000#32 = .error .reservedBit := by decide

/-- The encoder gives the words of R110. -/
theorem test_encode :
    encode (.tdBlk 6 3 5) = 0x12001466#32 ∧ encode (.dqBlk 6 3 2) = 0x13000166#32 ∧
      encode (.tdMb 1 1 false true) = 0x14200480#32 ∧ encode (.lfAdjlvl (-10)) = 0x21000076#32 ∧
      encode (.lfEdge 1 .h .nmb 7) = 0x25000715#32 ∧ encode (.lfMb 1 1 true) = 0x26100401#32 := by decide

/-! ## One step of each command -/

/-- 95_test_vectors SYS-V1. -/
theorem test_nop_counts : after .nop State.reset (fun t => decide (t.cmdcnt = 1 ∧ t.fault = false)) = true := by decide

/-- 95_test_vectors P6: BD_SEL 2 gives STATUS = 0x200. -/
theorem test_bd_sel_shows_in_status : after (.bdSel 2) State.reset (fun t => decide (t.hostRead 2 = 0x200)) = true := by
  decide +kernel

/-- 95_test_vectors BD-V1. -/
theorem test_bd_seek_loads_two_bytes :
    after (.bdSeek 0) (unread [0x47, 0x3A, 0x5C, 0x81, 0xF0, 0x0D, 0x12, 0x34])
      (fun t => decide (decoder (t.ctx 0) = (2, 0x473A, 255, 0) ∧ t.result = 0)) = true := by decide +kernel

/-- 95_test_vectors BD-V3: a range of one byte. -/
theorem test_bd_seek_overruns_one_byte :
    after (.bdSeek 0) (unread [0x47])
      (fun t => decide (t.hostRead 2 = 0x055 ∧ t.finfo = 1 ∧ (t.ctx 0).init = false)) = true := by decide +kernel

/-- 95_test_vectors BD-V1, the second BD_BIT. -/
theorem test_bd_bit_shifts_once :
    after .bdBit (reading [0x47, 0x3A, 0x5C, 0x81, 0xF0, 0x0D, 0x12, 0x34] (ctxAt 8 2 0x473A 128 0))
      (fun t => decide (t.result = 1 ∧ decoder (t.ctx 0) = (2, 0x0E74, 128, 1))) = true := by decide +kernel

/-- 95_test_vectors BD-V3, the 17th BD_BIT. -/
theorem test_bd_bit_overruns :
    after .bdBit (reading [0x47, 0x3A, 0x5C] (ctxAt 3 3 0x2E00 128 7))
      (fun t => decide (t.hostRead 2 = 0x055 ∧ t.fcmd = 0x03000000 ∧ t.finfo = 3 ∧ t.cmdcnt = 0)) = true := by
  decide +kernel

/-- 95_test_vectors BD-V1, BD_BOOL 200. -/
theorem test_bd_bool_200 :
    after (.bdBool 200) (reading [0x47, 0x3A, 0x5C, 0x81, 0xF0, 0x0D, 0x12, 0x34] (ctxAt 8 2 0x0E74 128 1))
      (fun t => decide (t.result = 0 ∧ decoder (t.ctx 0) = (2, 0x1CE8, 200, 2))) = true := by decide +kernel

/-- 95_test_vectors BD-V4: the shift discards bit 15 of VALUE. -/
theorem test_bd_bool_keeps_sixteen_bits :
    after (.bdBool 128) (reading [0xFF, 0xFF, 0xFF, 0xFF, 0xFF, 0xFF] (ctxAt 6 2 0xFFFE 254 1))
      (fun t => decide (t.result = 1 ∧ decoder (t.ctx 0) = (2, 0x01FC, 254, 2))) = true := by decide +kernel

/-- 95_test_vectors BD-V1, BD_LIT 8. -/
theorem test_bd_lit_reads_most_significant_first :
    after (.bdLit 8) (reading [0x47, 0x3A, 0x5C, 0x81, 0xF0, 0x0D, 0x12, 0x34] (ctxAt 8 2 0x8D80 190 6))
      (fun t => decide (t.result = 190 ∧ decoder (t.ctx 0) = (3, 0x9300, 190, 6))) = true := by decide +kernel

/-- The tree of 95_test_vectors TREE-V1, at a decoder state of that vector. -/
def treeVector (c : Ctx) : State :=
  { reading [0x76, 0xE7, 0xF0, 0x00] c with
    tree := Memory.writeSeq (w := 8) [] 0 ([-1, 2, 4, 6, -2, -3, -4, -5].map (BitVec.ofInt 8))
    tprob := bytes [145, 156, 163, 128] }

/-- 95_test_vectors TREE-V1, the second BD_TREE 0. -/
theorem test_bd_tree_walks_to_the_leaf :
    after (.bdTree 0) (treeVector (ctxAt 4 2 0x76E7 144 0))
      (fun t => decide (t.result = 3 ∧ decoder (t.ctx 0) = (2, 0xDA70, 224, 4))) = true := by decide +kernel

/-- 95_test_vectors TREE-V1: an index of 63 after the first read. -/
theorem test_bd_tree_range :
    after (.bdTree 0)
      { reading [0, 0, 0] (ctxAt 3 2 0 255 0) with tree := [(0, 63), (1, 63)] }
      (fun t => decide (t.hostRead 2 = 0x067 ∧ t.finfo = 63)) = true := by decide +kernel

/-- 95_test_vectors TD-V5 (d). -/
theorem test_td_rst_clears_lnz_and_anz :
    after .tdRst { State.reset with lnz := 0x1FF, anz := [(0, 1), (1023, 0x1FF)] }
      (fun t => decide (t.lnz = 0 ∧ t.anz.read 0 = 0 ∧ t.anz.read 1023 = 0)) = true := by decide +kernel

/-- 95_test_vectors TD-V5 (d). -/
theorem test_td_newrow_keeps_anz :
    after .tdNewrow { State.reset with lnz := 0x1FF, anz := [(1023, 0x1FF)] }
      (fun t => decide (t.lnz = 0 ∧ t.anz.read 1023 = 0x1FF)) = true := by decide

/-- 95_test_vectors TD-V1. -/
theorem test_td_blk_decodes_a_block :
    after (.tdBlk 6 3 5)
      { reading [0xE1, 0xF9, 0x9F, 0xAF, 0xDF, 0xEC, 0xC6, 0x00] (ctxAt 8 2 0xE1F9 255 0) with cprob := evenProbs 3 }
      (fun t => decide (t.result = 5 ∧ t.lnz = 0x002 ∧ t.anz.read 5 = 0x004 ∧
        decoder (t.ctx 0) = (8, 0x0000, 224, 3) ∧
        (List.range 6).map (fun n => (t.qcoef.read (96 + n)).toInt) = [2, 0, -1, 13, -1000, 0])) = true := by
  decide +kernel

/-- 95_test_vectors TD-V2, the second TD_BLK; the vector's POS 4 is left out (log 20). -/
theorem test_td_blk_uses_the_neighbour_context :
    after (.tdBlk 7 0 0)
      { reading [0xAC, 0x40, 0x00, 0x00] (ctxAt 4 2 0xAC40 199 0) with
        cprob := (evenProbs 0).map fun e =>
          (e.1, if e.1 = 55 then 200 else if e.1 = 56 then 100 else if e.1 = 57 then 50 else e.2)
        lnz := 0x002, anz := [(0, 0x008)] }
      (fun t => decide (t.result = 2 ∧ t.qcoef.read 113 = 1 ∧ t.lnz = 0x002 ∧ t.anz.read 0 = 0x008 ∧
        (decoder (t.ctx 0)).2 = (0x0000, 168, 7))) = true := by decide +kernel

/-- 95_test_vectors DQ-V1. -/
theorem test_dq_blk_scales_exactly :
    after (.dqBlk 0 0 3)
      { State.reset with
        qcoef := Memory.writeSeq (w := 16) [] 0 ([-32768, 32767, 1, -1].map (BitVec.ofInt 16))
        dqf := Memory.writeSeq (w := 16) [] 96 ([65535, 65535, 2, 3, 4, 5, 6, 7].map (BitVec.ofNat 16)) }
      (fun t => decide ([0, 1, 4, 8, 5].map (fun r => (t.coef.read r).toInt) =
        [-2147450880, 2147385345, 2, -3, 0])) = true := by decide +kernel

/-- 95_test_vectors DQ-V2, with DQF[0][2][b] = b + 1. -/
theorem test_dq_blk_places_in_raster_order :
    after (.dqBlk 1 2 0)
      { State.reset with
        qcoef := Memory.writeSeq (w := 16) [] 16 ((List.range 16).map fun n => BitVec.ofNat 16 (n + 1))
        dqf := Memory.writeSeq (w := 16) [] 16 ((List.range 8).map fun b => BitVec.ofNat 16 (b + 1)) }
      (fun t => decide ((List.range 16).map (fun r => (t.coef.read (16 + r)).toInt) =
        [1, 4, 30, 42, 9, 35, 56, 91, 16, 63, 84, 98, 70, 77, 105, 128])) = true := by decide +kernel

/-- The probabilities, factors and stream of 95_test_vectors P2, after BD_SEEK; context 0 stands for context 1. -/
def macroblockVector : State :=
  { reading [0xC6, 0x73, 0xB5, 0x0C, 0x00, 0x09, 0xE0, 0x00, 0x00, 0x00, 0x00, 0x11, 0x94, 0x00, 0x47, 0xF0, 0x00]
      (ctxAt 17 2 0xC673 255 0) with
    cprob := (List.range 792).map fun a =>
      (a, BitVec.ofNat 8 (1 + (37 * (a / 264) + 11 * (a / 33 % 8) + 5 * (a / 11 % 3) + 23 * (a % 11)) % 255))
    dqf := Memory.writeSeq (w := 16) [] 32 (([8, 16, 12, 8].zip [10, 24, 14, 10]).flatMap fun f =>
      BitVec.ofNat 16 f.1 :: List.replicate 7 (BitVec.ofNat 16 f.2)) }

/-- 95_test_vectors P2, the first TD_MB. -/
theorem test_td_mb_decodes_a_macroblock :
    after (.tdMb 1 0 true false) macroblockVector
      (fun t => decide (t.result = 1 ∧ t.lnz = 0x180 ∧ t.anz.read 0 = 0x180 ∧
        decoder (t.ctx 0) = (17, 0x0000, 194, 1) ∧
        t.coef.map (fun e => (e.1, e.2.toInt)) =
          [(1, 10), (5, -30), (81, -10), (256, 84), (368, -12), (369, 14), (384, 80), (385, -48)])) = true := by
  decide +kernel

/-- 95_test_vectors P2, the second TD_MB. -/
theorem test_td_mb_skip_keeps_the_y2_flag :
    after (.tdMb 1 1 false true)
      { State.reset with
        lnz := 0x180, anz := [(0, 0x180), (1, 0x0FF)], qcoef := [(384, 5)], coef := [(384, 80), (399, 1)], result := 1 }
      (fun t => decide (t.result = 0 ∧ t.lnz = 0x100 ∧ t.anz.read 1 = 0 ∧ t.anz.read 0 = 0x180 ∧
        t.qcoef = [] ∧ t.coef = [])) = true := by decide +kernel

/-- 95_test_vectors P4. -/
theorem test_lf_setlvl : after (.lfSetlvl 60) State.reset (fun t => decide (t.lflvl = 60)) = true := by decide
theorem test_lf_adjlvl_clamps_above :
    after (.lfAdjlvl 10) { State.reset with lflvl := 60 } (fun t => decide (t.lflvl = 63)) = true := by decide
theorem test_lf_adjlvl_clamps_below :
    after (.lfAdjlvl (-10)) { State.reset with lflvl := 3 } (fun t => decide (t.lflvl = 0)) = true := by decide

/-- 43_lf R212, R213: the examples. -/
theorem test_lf_setx : after (.lfSetx 16) State.reset (fun t => decide (t.lfx = 16 ∧ t.lfy = 0)) = true := by decide
theorem test_lf_sety : after (.lfSety 16383) State.reset (fun t => decide (t.lfy = 16383 ∧ t.lfx = 0)) = true := by
  decide

/-- 95_test_vectors LF-V2, the first row, along a row of pixels. -/
theorem test_lf_seg_simple :
    after (.lfSeg 0 .v .smb) (pixels [100, 100, 110, 110] 4 10 2 0)
      (fun t => decide (pixRow t 0 4 = [100, 102, 107, 110])) = true := by decide +kernel

/-- 95_test_vectors LF-V4, the sixth row, down a column of pixels. -/
theorem test_lf_seg_normal_macroblock :
    after (.lfSeg 0 .h .nmb) (pixels [250, 252, 254, 255, 200, 198, 196, 194] 1 63 0 4)
      (fun t => decide (pixRow t 0 8 = [250, 244, 239, 232, 223, 213, 204, 194])) = true := by decide +kernel

/-- 95_test_vectors LF-V3, the fifth row. -/
theorem test_lf_seg_normal_subblock_hev :
    after (.lfSeg 0 .v .nsub) (pixels [60, 62, 61, 66, 80, 85, 84, 86] 8 40 4 0)
      (fun t => decide (pixRow t 0 8 = [60, 62, 61, 68, 78, 85, 84, 86])) = true := by decide +kernel

/-- 95_test_vectors LF-V5: rows 2 and 6. -/
theorem test_lf_edge_filters_four_columns :
    after (.lfEdge 0 .h .nmb 3) (pixels (List.replicate 32 100 ++ List.replicate 32 110) 8 20 2 4)
      (fun t => decide (pixRow t 16 8 = [100, 100, 103, 103, 103, 103, 100, 100] ∧
        pixRow t 48 8 = [110, 110, 109, 109, 109, 109, 110, 110] ∧ t.lfx = 2 ∧ t.lfy = 4)) = true := by decide +kernel

/-- 95_test_vectors LF-V6 (b): the first address outside PIX is 64. -/
theorem test_lf_edge_faults_outside_pix :
    after (.lfEdge 0 .h .nmb 0)
      { pixels (List.replicate 64 100) 8 20 0 6 with params := { streamSize := 0, pixSize := 64 } }
      (fun t => decide (t.hostRead 2 = 0x077 ∧ t.finfo = 64)) = true := by decide +kernel

/-- 43_lf R215, R206: the first Seg of LF_MB 1, 0 is the left edge, P1 of its first row at x = 14. -/
theorem test_lf_mb_starts_at_the_left_edge :
    after (.lfMb 1 0 false)
      { pixels [] 32 20 0 0 with lfcfg := 0x141, params := { streamSize := 0, pixSize := 14 } }
      (fun t => decide (t.hostRead 2 = 0x077 ∧ t.finfo = 14)) = true := by decide +kernel

/-- 95_test_vectors P3b: LFCFG.BASELVL = 0 changes nothing and completes. -/
theorem test_lf_mb_is_gated :
    after (.lfMb 1 0 false) { pixels [100, 120] 1 20 0 0 with lfcfg := 0x001 }
      (fun t => decide (t.cmdcnt = 1 ∧ pixRow t 0 2 = [100, 120])) = true := by decide

/-- 95_test_vectors LF-V1: thresholds at the corners. -/
theorem test_limits :
    limits 0 0 = ⟨1, 0, 5, 1⟩ ∧ limits 39 3 = ⟨6, 1, 88, 84⟩ ∧ limits 40 5 = ⟨4, 2, 88, 84⟩ ∧
      limits 63 7 = ⟨2, 2, 132, 128⟩ ∧ limits 63 0 = ⟨63, 2, 193, 189⟩ := by decide

/-- 70_reset R282: a reset during LF_SETX clears the registers and keeps every memory. -/
theorem test_reset_during_a_command_keeps_other_memories :
    (match step { pixels [7] 8 20 5 6 with inbox := [.resetDuring 0x22000010], qcoef := [(3, 9)] } with
      | .next t => decide (t.lfx = 0 ∧ t.lflvl = 0 ∧ t.pix.read 0 = 7 ∧ t.qcoef = [(3, 9)] ∧ t.inbox = [])
      | .fault _ => false
      | .refused _ => false) = true := by decide

/-- 70_reset R282, 60_exceptions R257 b: a reset during a command that fails decoding clears the registers and keeps every memory. -/
theorem test_reset_during_an_undecodable_command_keeps_memories :
    (match step { pixels [7] 8 20 5 6 with inbox := [.resetDuring 0x07000000], qcoef := [(3, 9)] } with
      | .next t => decide (t.lfx = 0 ∧ t.lflvl = 0 ∧ t.pix.read 0 = 7 ∧ t.qcoef = [(3, 9)] ∧ t.fault = false)
      | .fault _ => false
      | .refused _ => false) = true := by decide

/-! ## For every statement with hypotheses, a state and operands that meet them -/

/-- The reset state with one pending host event. -/
def pending (e : HostEvent) : State := { State.reset with inbox := [e] }

/-- The invariant of a state without a fault, as a check. -/
def invCheck (s : State) : Bool :=
  decide (Memory.wf 64 s.tree ∧ Memory.wf 32 s.tprob ∧ Memory.wf 128 s.dqf ∧ Memory.wf 1056 s.cprob ∧
    Memory.wf 400 s.qcoef ∧ Memory.wf 400 s.coef ∧ Memory.wf 1024 s.anz ∧ Memory.wf s.params.streamSize s.stream ∧
    Memory.wf s.params.pixSize s.pix) &&
  decide (s.paramsOk ∧ s.fault = false ∧ s.fcode = 0 ∧ s.fclass = 0 ∧ s.fcmd = 0 ∧ s.finfo = 0 ∧
    ∀ k : Fin 9, (s.ctx k).ok s.params.streamSize)

theorem inv_of_check {s : State} (h : invCheck s = true) : s.Inv := by
  unfold invCheck at h
  rw [Bool.and_eq_true, decide_eq_true_eq, decide_eq_true_eq] at h
  obtain ⟨⟨h1, h2, h3, h4, h5, h6, h7, h8, h9⟩, hp, hf, a, b, c, d, hc⟩ := h
  exact ⟨⟨h1, h2, h3, h4, h5, h6, h7, h8, h9⟩, hp, ⟨fun _ => ⟨a, b, c, d⟩, fun h => by simp [hf] at h⟩, fun _ => hc⟩

/-- A decoder state with a byte left: 95_test_vectors BD-V3 after the seek. -/
def readable : State := reading [0x47, 0x3A, 0x5C] (ctxAt 3 2 0x473A 255 0)

/-- A decoder state with no byte and no shift left: 95_test_vectors BD-V3 before the 17th read. -/
def exhausted : State := reading [0x47, 0x3A, 0x5C] (ctxAt 3 3 0x2E00 128 7)

/-! ### Encoding and the step -/

theorem witness_DecodeOfEncodeReturnsTheCommand :
    (Instr.tdBlk 24 3 1023).wf = true ∧ (Instr.bdSeek 8).wf = true ∧ (Instr.lfEdge 2 .h .nsub 15).wf = true := by decide +kernel
theorem witness_EncodeOfDecodeReturnsTheWord : decode 0x120FFC78#32 = .ok (.tdBlk 24 3 1023) := by decide +kernel
theorem witness_DecodeFollowsMatchAndMask :
    ∃ r ∈ Spec.rows, r.op = .bdSel ∧
      (0x01000008#32 &&& r.mask = r.mtch ∧ r.legal 0x01000008#32 = true) ∧
      (0x01000009#32 &&& r.mask = r.mtch ∧ r.legal 0x01000009#32 = false) ∧
      (0x01000010#32 &&& 0xFF000000#32 = r.mtch ∧ 0x01000010#32 &&& r.mask ≠ r.mtch) :=
  ⟨_, List.mem_cons_of_mem _ List.mem_cons_self, by decide⟩
theorem witness_OpcodesOutsideTheTableAreIllegal :
    ([0x07000000, 0x0F000000, 0x15000000, 0x1F000000, 0x27000000, 0xFF000000] : List Word).all (fun w =>
      let op := w.extractLsb' 24 8
      decide ((7 ≤ op.toNat ∧ op.toNat ≤ 0x0F) ∨ (0x15 ≤ op.toNat ∧ op.toNat ≤ 0x1F) ∨ 0x27 ≤ op.toNat)) = true := by
  decide
theorem witness_StepExecutesTheDecodedCommand :
    (pending (.write 3 0x02000008)).inbox = [.write 0x0003#13 0x02000008#32] ∧
      (pending (.write 3 0x02000008)).fault = false ∧ decode 0x02000008#32 = .ok (.bdSeek 8) := by decide +kernel
theorem witness_DecodeFaultsChangeOnlyTheFaultFields :
    (pending (.write 3 0x07000000)).inbox = [.write 0x0003#13 0x07000000#32] ∧
      (pending (.write 3 0x07000000)).fault = false ∧ decode 0x07000000#32 = .error (.illegalCmd 7) ∧
      decode 0x03000001#32 = .error .reservedBit ∧ decode 0x01000009#32 = .error .operandRange := by decide
theorem witness_FaultStateIgnoresEverythingButCtrl :
    ({ pending (.write 3 0) with fault := true } : State).fault = true ∧ 0x0003#13 ≠ 0x0001#13 ∧
      ({ pending (.read 2) with fault := true } : State).inbox = [.read 2] ∧
      (pending (.read 0x1FFF)).fault = false ∧ (pending (.read 0x1FFF)).inbox = [.read 0x1FFF] := by decide +kernel
theorem witness_SoftResetClearsTheRegistersOnly :
    (pending (.write 1 1)).inbox = [.write 0x0001#13 1#32] ∧ (1#32).getLsbD 0 = true ∧
      (pending (.write 1 0xFFFFFFFE)).inbox = [.write 0x0001#13 0xFFFFFFFE#32] ∧
      (0xFFFFFFFE#32).getLsbD 0 = false := by decide +kernel
theorem witness_PowerOnResetClearsTheRegisters :
    (pending .powerOn).inbox = [.powerOn] ∧
      (({ pending (.resetDuring 0x07000000) with fault := true } : State).inbox = [.resetDuring 0x07000000] ∧
        ({ pending (.resetDuring 0x07000000) with fault := true } : State).fault = true) ∧
      ((pending (.resetDuring 0x07000000)).inbox = [.resetDuring 0x07000000] ∧
        (pending (.resetDuring 0x07000000)).fault = false ∧ decode 0x07000000#32 = .error (.illegalCmd 7)) ∧
      ((pending (.resetDuring 0x12001466)).inbox = [.resetDuring 0x12001466] ∧
        (pending (.resetDuring 0x12001466)).fault = false ∧ decode 0x12001466#32 = .ok (.tdBlk 6 3 5) ∧
        ¬Spec.inQcoefSet (.tdBlk 6 3 5) 95 ∧ ¬Spec.inQcoefSet (.tdBlk 6 3 5) 112 ∧
        ¬Spec.inAnzSet (.tdBlk 6 3 5) 5 1 ∧ ¬Spec.inAnzSet (.tdBlk 6 3 5) 4 2) := by
  refine ⟨by decide, ⟨by decide, by decide⟩, ⟨by decide, by decide, by decide⟩, by decide, by decide, by decide, ?_⟩
  simp [Spec.inQcoefSet, Spec.inAnzSet, Spec.anzBit]
theorem witness_ResetRegistersReadTheirResetValues :
    (0 < (0x01#13).toNat ∧ (0x01#13).toNat < 0x100) ∧ 0 < (0xFF#13).toNat ∧ (0xFF#13).toNat < 0x100 := by decide +kernel
theorem witness_EveryStepKeepsTheInvariant : readable.Inv ∧ ∃ t, step readable = .next t :=
  ⟨inv_of_check (by decide), _, rfl⟩

/-! ### The port -/

/-- The first and the last address of every range of writable locations (10_state R25, R40). -/
theorem witness_WritableLocationsReadBack :
    ([0x08, 0x09, 0x0A, 0x0B, 0x0C, 0x0E, 0x0F, 0x10, 0x11, 0x20, 0x31, 0x100, 0x13F, 0x140, 0x15F, 0x200, 0x27F, 0x400,
        0x81F, 0x1000, 0x118F, 0x1200, 0x138F, 0x1400, 0x17FF] : List (BitVec 13)).all (fun a =>
      decide ((pending (.write a 0xFFFFFFFF)).inbox = [.write a 0xFFFFFFFF] ∧
        (pending (.write a 0xFFFFFFFF)).fault = false) && (Spec.writable a.toNat).isSome) = true := by decide +kernel
theorem witness_HostWriteLeavesOtherLocations :
    (pending (.write 0x20 5)).inbox = [.write 0x20#13 5] ∧ (pending (.write 0x20 5)).fault = false ∧
      (Spec.writable (0x20#13).toNat).isSome = true ∧ (∃ t, step (pending (.write 0x20 5)) = .next t) ∧
      0x51#13 ≠ 0x20#13 ∧
      ¬(0x20 ≤ (0x20#13).toNat ∧ (0x20#13).toNat ≤ 0x31 ∧ (0x51#13).toNat = 0x50 + ((0x20#13).toNat - 0x20) / 2) :=
  ⟨by decide, by decide, by decide, ⟨_, rfl⟩, by decide, by decide⟩
theorem witness_WritesToReadOnlyLocationsAreIgnored :
    ([0x00, 0x02, 0x04, 0x12, 0x40, 0x58, 0x1800, 0x1FFF] : List (BitVec 13)).all (fun a =>
      decide ((pending (.write a 5)).inbox = [.write a 5] ∧ a ≠ 0x0001#13 ∧ a ≠ 0x0003#13) &&
        (Spec.writable a.toNat).isNone) = true := by decide +kernel
theorem witness_RangeWritesClearInit :
    ∀ k ∈ ([0, 8] : List (Fin 9)),
      (BitVec.ofNat 13 (0x20 + 2 * k.val)).toNat = 0x20 + 2 * k.val ∧
        (BitVec.ofNat 13 (0x21 + 2 * k.val)).toNat = 0x21 + 2 * k.val ∧
        (pending (.write (BitVec.ofNat 13 (0x20 + 2 * k.val)) 5)).fault = false := by decide +kernel
theorem witness_StatusAndBdstateShowTheirFields :
    (∀ k ∈ ([0, 8] : List (Fin 9)),
      (BitVec.ofNat 13 (0x40 + k.val)).toNat = 0x40 + k.val ∧ (BitVec.ofNat 13 (0x50 + k.val)).toNat = 0x50 + k.val) ∧
    (∀ i ∈ [0, 399],
      (BitVec.ofNat 13 (0x1000 + i)).toNat = 0x1000 + i ∧ (BitVec.ofNat 13 (0x1200 + i)).toNat = 0x1200 + i) ∧
    (∀ i ∈ [0, 1023], (BitVec.ofNat 13 (0x1400 + i)).toNat = 0x1400 + i) := by decide +kernel

/-! ### Whole-machine rules -/

theorem witness_FaultsEachCommandCanRaise :
    Instr.bdBit.wf = true ∧ State.reset.fault = false ∧ ∃ t, exec .bdBit State.reset = .next t ∧ t.fault = true :=
  ⟨by decide, by decide, exists_of_after (p := fun t => t.fault) (by decide)⟩
theorem witness_CommandsWriteOnlyTheirRegisters : ∃ t, exec .bdBit readable = .next t ∧ t.fault = false := by
  obtain ⟨t, ht, hf⟩ := exists_of_after (i := .bdBit) (s := readable) (p := fun t => !t.fault) (by decide +kernel)
  exact ⟨t, ht, by simpa using hf⟩
theorem witness_ContextsAreIndependent :
    some (1 : Fin 9) ≠ Spec.touched .bdBit readable ∧ ∃ t, exec .bdBit readable = .next t :=
  ⟨by decide, (exists_of_after (p := fun _ => true) (by decide +kernel)).imp fun _ h => h.1⟩
/-- The byte at END, the first one above the range. -/
theorem witness_StreamOutsideTheRangeIsNotRead :
    readable.Inv ∧ readable.fault = false ∧
      (∀ k, Spec.touched .bdBit readable = some k →
        3 < (readable.ctx k).startAddr.toNat ∨ (readable.ctx k).endAddr.toNat ≤ 3) ∧
      ∃ t, exec .bdBit readable = .next t :=
  ⟨inv_of_check (by decide), by decide, by decide,
    (exists_of_after (p := fun _ => true) (by decide +kernel)).imp fun _ h => h.1⟩
theorem witness_OverrunInfoIsTheEndOfTheRange :
    exhausted.Inv ∧ exhausted.fault = false ∧ Spec.touched .bdBit exhausted = some 0 ∧
      ∃ t, exec .bdBit exhausted = .next t ∧ t.fault = true ∧ t.fcode = 5 := by
  refine ⟨inv_of_check (by decide), by decide, by decide, ?_⟩
  obtain ⟨t, ht, hp⟩ := exists_of_after (i := .bdBit) (s := exhausted)
    (p := fun t => decide (t.fault = true ∧ t.fcode = 5)) (by decide +kernel)
  exact ⟨t, ht, by simpa using hp⟩
theorem witness_RegisterCommandsWriteOneRegister :
    (0#4).toNat = (0 : Fin 9).val ∧ (8#4).toNat = (8 : Fin 9).val := by decide +kernel
theorem witness_TdRstClearsTheNeighbourFlags : 0 < 1024 ∧ 1023 < 1024 := by decide +kernel

/-! ### The Boolean decoder -/

/-- The two shortest ranges that load, both ways of a bad range, and both short ranges. -/
theorem witness_BdSeekStartsTheRange :
    (0#4).toNat = (0 : Fin 9).val ∧
      (let c := (unread [0x47, 0x3A]).ctx 0
       c.startAddr.toNat + 2 ≤ c.endAddr.toNat ∧ c.endAddr.toNat ≤ (unread [0x47, 0x3A]).params.streamSize) ∧
      (let s : State := { unread [0x47, 0x3A, 0x5C, 0x81] with params := { streamSize := 3, pixSize := 0 } }
       ¬((s.ctx 0).startAddr.toNat ≤ (s.ctx 0).endAddr.toNat ∧ (s.ctx 0).endAddr.toNat ≤ s.params.streamSize)) ∧
      (let c : Ctx := { ctxAt 4 0 0 0 0 with startAddr := 5 }
       ¬(c.startAddr.toNat ≤ c.endAddr.toNat ∧ c.endAddr.toNat ≤ 2 ^ 32)) ∧
      (∀ s ∈ [unread [], unread [0x47]],
        (s.ctx 0).startAddr.toNat ≤ (s.ctx 0).endAddr.toNat ∧
          (s.ctx 0).endAddr.toNat < (s.ctx 0).startAddr.toNat + 2 ∧
          (s.ctx 0).endAddr.toNat ≤ s.params.streamSize) := by decide +kernel
theorem witness_ReadsOfAnUninitialisedContextFault :
    (State.reset.ctx State.reset.cur).init = false ∧
      ∀ i ∈ [Instr.bdBool 0, .bdBit, .bdLit 0, .bdTree 63, .tdBlk 24 0 0, .tdMb 0 0 true false], i.wf = true := by decide +kernel

/-- The hypotheses of the closed form at a context: the interval kept, `k` shifts. -/
def boolPremise (c : Ctx) (prob : BitVec 8) (k : Nat) : Bool :=
  let sp := 1 + ((c.range.toNat - 1) * prob.toNat) / 256
  let r := if decide (sp * 256 ≤ c.value.toNat) then c.range.toNat - sp else sp
  decide (c.init = true ∧ 128 ≤ c.range.toNat ∧ 128 ≤ r * 2 ^ k ∧ r * 2 ^ k ≤ 255)

/-- No shift; the last shift that merges nothing; the eighth shift with a byte left and with none. -/
theorem witness_BdBoolReadsOneBit :
    (boolPremise (ctxAt 3 2 0x473A 255 0) 128 0 = true ∧ 0 + 0 ≤ 7) ∧
      (boolPremise (ctxAt 3 2 0x0E74 128 6) 200 1 = true ∧ 6 + 1 ≤ 7) ∧
      (boolPremise (ctxAt 3 2 0x0E74 128 7) 200 1 = true ∧ 8 ≤ 7 + 1 ∧
        (ctxAt 3 2 0x0E74 128 7).pos.toNat < (ctxAt 3 2 0x0E74 128 7).endAddr.toNat) ∧
      (boolPremise (ctxAt 3 3 0x0E74 128 7) 200 1 = true ∧ 8 ≤ 7 + 1 ∧
        (ctxAt 3 3 0x0E74 128 7).endAddr.toNat ≤ (ctxAt 3 3 0x0E74 128 7).pos.toNat) ∧
      boolPremise (ctxAt 3 2 0x0E74 128 1) 0 7 = false ∧ boolPremise (ctxAt 3 2 0x0000 128 1) 0 7 = true := by decide +kernel
theorem witness_BdBitEqualsBool128AndLit1 : ∃ t, exec .bdBit exhausted = .next t ∧ t.fault = true :=
  exists_of_after (p := fun t => t.fault) (by decide +kernel)
theorem witness_BdBitCompletes :
    ∀ s ∈ [reading [1, 2] (ctxAt 2 2 0x0100 128 6), reading [1, 2, 3] (ctxAt 3 2 0x0100 128 7)],
      (s.ctx s.cur).init = true ∧ 128 ≤ (s.ctx s.cur).range.toNat ∧
        ((s.ctx s.cur).bitcnt.toNat < 7 ∨ (s.ctx s.cur).pos.toNat < (s.ctx s.cur).endAddr.toNat) := by decide +kernel
/-- 8 bits with one byte left, 31 bits with four, 0 bits with none. -/
theorem witness_BdLitCompletes :
    ∀ e ∈ [(readable, 8#5), (reading [] (ctxAt 6 2 0 255 0), 31#5), (exhausted, 0#5)],
      (e.1.ctx e.1.cur).init = true ∧ 128 ≤ (e.1.ctx e.1.cur).range.toNat ∧
        (e.1.ctx e.1.cur).pos.toNat + (e.2.toNat + 7) / 8 ≤ (e.1.ctx e.1.cur).endAddr.toNat := by decide +kernel
theorem witness_BdLitIsBitsMostSignificantFirst :
    (readable.fault = false ∧ (readable.ctx readable.cur).init = true ∧
        ∃ r, Spec.bitsRead (8#5).toNat 0 readable = some r) ∧
      exhausted.fault = false ∧ (exhausted.ctx exhausted.cur).init = true ∧
        Spec.bitsRead (1#5).toNat 0 exhausted = none :=
  ⟨⟨by decide, by decide, Option.isSome_iff_exists.mp (by decide +kernel)⟩, by decide, by decide,
    Option.isNone_iff_eq_none.mp (by decide +kernel)⟩
/-- The whole tree of leaves from index 0, and the last entry node with two leaves. -/
theorem witness_BdTreeCompletesOnForwardTrees :
    let s : State := { reading [] (ctxAt 58 2 0 255 0) with tree := (List.range 64).map fun a => (a, 255#8) }
    (s.ctx s.cur).init = true ∧ 128 ≤ (s.ctx s.cur).range.toNat ∧ (0#6).toNat ≤ 62 ∧ (62#6).toNat ≤ 62 ∧
      (∀ j < 64, (s.tree.read j).toInt < 0) ∧
      (s.ctx s.cur).pos.toNat + 56 ≤ (s.ctx s.cur).endAddr.toNat := by decide +kernel

/-- The hypotheses of one step of the walk, with the entry the walk comes to. -/
def walkPremise (s : State) (start : BitVec 6) (p : Int → Bool) : Bool :=
  invCheck s && decide ((s.ctx s.cur).init = true ∧ start.toNat ≤ 62) &&
    after (.bdBool (s.tprob.read (start.toNat / 2))) s fun u =>
      !u.fault && p (s.tree.read (start.toNat + u.result.toNat)).toInt

/-- A leaf, the largest inner index, the smallest index out of range. -/
theorem witness_BdTreeWalksOneNodeAtATime :
    walkPremise (treeVector (ctxAt 4 2 0x76E7 255 0)) 0 (fun e => decide (e < 0)) = true ∧
      walkPremise { readable with tree := [(0, 62), (1, 62), (62, 255), (63, 255)] } 0
        (fun e => decide (0 ≤ e ∧ e ≤ 62)) = true ∧
      walkPremise { readable with tree := [(0, 63), (1, 63)] } 0 (fun e => decide (63 ≤ e)) = true ∧
      after (.bdTree 0) { readable with tree := [(0, 62), (1, 62), (62, 255), (63, 255)] } (fun t => !t.fault) = true := by
  decide +kernel
theorem witness_BdTreeWalksOneNodeAtATime_faulting :
    let s : State := { readable with tree := [(0, 62), (1, 62), (62, 63), (63, 127)] }
    walkPremise s 0 (fun e => decide (e = 62)) = true ∧
      after (.bdBool (s.tprob.read 0)) s (fun u => after (.bdTree 62) u fun t => t.fault) = true := by decide +kernel
/-- The first clause: the node's own read overruns. -/
theorem witness_BdTreeWalksOneNodeAtATime_overrun :
    invCheck exhausted = true ∧ (exhausted.ctx exhausted.cur).init = true ∧ (62#6).toNat ≤ 62 ∧
      after (.bdBool (exhausted.tprob.read 31)) exhausted (fun u => u.fault) = true := by decide +kernel
theorem witness_BdTree63FaultsBeforeAnyRead : (readable.ctx readable.cur).init = true := by decide +kernel
theorem witness_BdTreeEndsWithinTheBound :
    (readable.ctx readable.cur).init = true ∧ 128 ≤ (readable.ctx 0).range.toNat ∧
      (readable.ctx 0).pos.toNat ≤ (readable.ctx 0).endAddr.toNat ∧
      ∃ r, Spec.bitsOf [0, 128, 255] 0 readable = some r :=
  ⟨by decide, by decide, by decide, Option.isSome_iff_exists.mp (by decide +kernel)⟩
theorem witness_WindowRelationIsKept :
    (after (.bdSeek 0) (unread [0x47, 0x3A, 0x5C]) (fun t => (t.ctx 0).init && !t.fault) = true ∧
        after (.bdSeek 0) (unread [0xFF, 0xFF]) (fun t => (t.ctx 0).init && !t.fault) = true) ∧
      ∃ b c', readBool readable.stream 128 (readable.ctx 0) = .ok (b, c') ∧ 128 ≤ (readable.ctx 0).range.toNat ∧
        (readable.ctx 0).value.toNat % 2 ^ (readable.ctx 0).bitcnt.toNat = 0 ∧
        (readable.ctx 0).value.toNat < (readable.ctx 0).range.toNat * 256 :=
  ⟨by decide +kernel, false, _, rfl, by decide, by decide, by decide⟩

/-! ### The token decoder and the dequantizer -/

/-- The block of 95_test_vectors TD-V1, in context 0. -/
def blockVector : State :=
  { reading [0xE1, 0xF9, 0x9F, 0xAF, 0xDF, 0xEC, 0xC6, 0x00] (ctxAt 8 2 0xE1F9 255 0) with cprob := evenProbs 3 }

theorem witness_TdBlkLeavesOtherBlocksAndFlags : ∃ t, exec (.tdBlk 6 3 5) blockVector = .next t :=
  (exists_of_after (p := fun _ => true) (by decide +kernel)).imp fun _ h => h.1
theorem witness_TdBlkCompletes :
    let s := reading [] (ctxAt 268 2 0 128 7)
    (24#5).toNat ≤ 24 ∧ (s.ctx s.cur).init = true ∧ 128 ≤ (s.ctx s.cur).range.toNat ∧
      (s.ctx s.cur).pos.toNat + 266 ≤ (s.ctx s.cur).endAddr.toNat := by decide +kernel
theorem witness_TdBlkDecodesItsTokens :
    ((6#5).toNat ≤ 24 ∧ blockVector.fault = false ∧ (blockVector.ctx blockVector.cur).init = true ∧
        ∃ r, Spec.levelsOf (3#2).toNat 16 0 0 blockVector = some r) ∧
      exhausted.fault = false ∧ (exhausted.ctx exhausted.cur).init = true ∧
        Spec.levelsOf (0#2).toNat 15 0 0 exhausted = none :=
  ⟨⟨by decide, by decide, by decide, Option.isSome_iff_exists.mp (by decide +kernel)⟩, by decide, by decide,
    Option.isNone_iff_eq_none.mp (by decide +kernel)⟩
/-- 95_test_vectors TD-V2, the first TD_BLK: both neighbour flags set. -/
theorem witness_TdBlkEndsAtAnImmediateEob :
    let s : State := { reading [0xAC, 0x40, 0x00, 0x00] (ctxAt 4 2 0xAC40 255 0) with
      cprob := [(55, 200)], lnz := 0x002, anz := [(0, 0x004)] }
    (6#5).toNat ≤ 24 ∧ (s.ctx s.cur).init = true ∧ s.fault = false ∧
      s.lnz.getLsbD (Spec.lnzBit 6) = true ∧ (s.anz.read 0).getLsbD (Spec.anzBit 6) = true ∧
      after (.bdBool (s.cprob.read (((0 * 8 + 1) * 3 + 2) * 11))) s
        (fun u => !u.fault && decide (u.result = 0)) = true := by decide +kernel
theorem witness_TdMbCompletes :
    let s := reading [] (ctxAt 6652 2 0 128 7)
    (s.ctx s.cur).init = true ∧ 128 ≤ (s.ctx s.cur).range.toNat ∧
      (s.ctx s.cur).pos.toNat + 25 * 266 ≤ (s.ctx s.cur).endAddr.toNat := by decide +kernel
/-- With and without a Y2 block, over a stream of zeros: every block ends at once. -/
theorem witness_TdMbIsTheSequenceOfItsBlocks :
    ∀ hasy2 : Bool, (reading [] (ctxAt 60 2 0 255 0)).fault = false ∧
      ∃ t, exec (.tdMb 3 1023 hasy2 false) (reading [] (ctxAt 60 2 0 255 0)) = .next t ∧ t.fault = false := by
  intro hasy2
  obtain ⟨t, ht, hf⟩ := exists_of_after (i := .tdMb 3 1023 hasy2 false) (s := reading [] (ctxAt 60 2 0 255 0))
    (p := fun t => !t.fault) (by revert hasy2; decide +kernel)
  exact ⟨by decide, t, ht, by simpa using hf⟩
theorem witness_DqBlkScalesExactly : (24#5).toNat ≤ 24 := by decide +kernel

/-! ### The loop filter -/

/-- A row of eight equal pixels in the V plane, with the position at the smallest x a normal kind can read. -/
def vRow (l : List Nat) (lvl x : Nat) : State :=
  { pixels l 0 lvl x 0 with params := { streamSize := 0, pixSize := l.length } }

theorem vRow_inRange_normal (l : List Nat) (lvl : Nat) (h : l.length = 8) :
    Spec.segInRange (vRow l lvl 4) 2 .v .nmb 4 0 := by
  refine ⟨by decide, fun k h1 h2 => ?_⟩
  simp only [Spec.reach, Spec.placeAddr, Spec.pixelAddr, vRow, pixels, State.reset, h] at *
  simp
  omega

/-- Kind 2 at its smallest position in plane 2: all eight pixels exist. -/
theorem witness_LfSegFiltersTheSegment :
    let s := vRow [100, 100, 100, 100, 110, 110, 110, 110] 20 4
    (2#2).toNat ≤ 2 ∧ Spec.segInRange s 2 .v .nmb (s.lfx.toNat : Int) (s.lfy.toNat : Int) :=
  ⟨by decide, vRow_inRange_normal _ _ rfl⟩
/-- 95_test_vectors LF-V6: (a) the largest negative position; (b) Q2 is the first pixel outside PIX. -/
theorem witness_LfSegFaultsOutsidePix :
    Spec.segFails (pixels [] 8 20 1 0) 0 .v .smb (pixels [] 8 20 1 0).lfx.toNat 0 0xFFFFFFFF ∧
      (let s : State := { pixels [] 8 20 0 6 with params := { streamSize := 0, pixSize := 64 } }
       Spec.segFails s 0 .h .nmb s.lfx.toNat s.lfy.toNat 64) := by
  refine ⟨.inl ⟨by decide, rfl⟩, .inr ⟨by decide, 2, by decide, by decide, fun j h1 h2 => ?_, by decide, by decide⟩⟩
  simp only [Spec.placeAddr, Spec.pixelAddr, pixels, State.reset]
  simp
  omega
/-- LF_EDGE whose second row is the first outside PIX. -/
theorem witness_LfSegFaultsOutsidePix_edge :
    let s : State := { pixels [] 8 20 2 7 with params := { streamSize := 0, pixSize := 64 } }
    let g : Spec.SegAt := ⟨0, .v, .ssub, 2, 8⟩
    Spec.edgeSegs 0 .v .ssub s.lfx.toNat s.lfy.toNat ((2#4).toNat + 1) =
        [⟨0, .v, .ssub, 2, 7⟩] ++ g :: [⟨0, .v, .ssub, 2, 9⟩] ∧
      (∀ b ∈ ([⟨0, .v, .ssub, 2, 7⟩] : List Spec.SegAt), b.inRange s) ∧ g.fails s 64 := by
  refine ⟨by decide, fun b hb => ?_, .inr ⟨by decide, -2, by decide, by decide, fun j h1 h2 => ?_, by decide, by decide⟩⟩
  · obtain rfl := List.mem_singleton.mp hb
    refine ⟨by decide, fun k h1 h2 => ?_⟩
    simp only [Spec.reach, Spec.placeAddr, Spec.pixelAddr, pixels, State.reset] at *
    simp
    omega
  · simp only [Spec.reach] at h1
    omega
/-- LF_MB 1, 0 of the simple filter without inner edges, whose second row is the first outside PIX. -/
theorem witness_LfSegFaultsOutsidePix_macroblock :
    let s : State := { pixels [] 32 20 0 0 with lfcfg := 0x141, params := { streamSize := 0, pixSize := 18 } }
    let g : Spec.SegAt := ⟨0, .v, .smb, 16, 1⟩
    s.lfcfg.toNat / 16 ≠ 0 ∧ s.lflvl ≠ 0 ∧
      Spec.macroblockSegs (s.lfcfg.getLsbD 0) (1#10).toNat (0#10).toNat true =
        [⟨0, .v, .smb, 16, 0⟩] ++ g :: (List.range' 2 14).map (fun y => ⟨0, .v, .smb, 16, y⟩) ∧
      (∀ b ∈ ([⟨0, .v, .smb, 16, 0⟩] : List Spec.SegAt), b.inRange s) ∧ g.fails s 46 := by
  refine ⟨by decide, by decide, by decide, fun b hb => ?_,
    .inr ⟨by decide, -2, by decide, by decide, fun j h1 h2 => ?_, by decide, by decide⟩⟩
  · obtain rfl := List.mem_singleton.mp hb
    refine ⟨by decide, fun k h1 h2 => ?_⟩
    simp only [Spec.reach, Spec.placeAddr, Spec.pixelAddr, pixels, State.reset] at *
    simp
    omega
  · simp only [Spec.reach] at h1
    omega
/-- P3 and Q3 of a normal segment lie outside the bytes it may write; an edge and a macroblock leave byte 0. -/
theorem witness_LfCommandsWriteOnlyTheirPixels :
    let s := vRow [100, 100, 100, 100, 110, 110, 110, 110] 20 4
    (after (.lfSeg 2 .v .nmb) s (fun t => !t.fault) = true ∧ 0 ∉ s.segMayWrite (s.segAtXY 2 .v .nmb) ∧
        7 ∉ s.segMayWrite (s.segAtXY 2 .v .nmb)) ∧
      (after (.lfEdge 2 .v .nsub 15) s (fun t => !t.fault) = true ∧ 1 ∉ s.segsMayWrite (edgeOps 2 .v .nsub 4 0 16)) ∧
      (after (.lfMb 0 0 true) { s with lfcfg := 0x141 } (fun t => !t.fault) = true ∧
        0 ∉ s.segsMayWrite (macroblockOps true 0 0 true)) := by decide +kernel
theorem witness_SegMayWriteOnlyNearTheEdge :
    let s := vRow [100, 100, 100, 100, 110, 110, 110, 110] 20 4
    (s.segAtXY 2 .v .nmb).pl ≤ 2 ∧ 1 ∈ s.segMayWrite (s.segAtXY 2 .v .nmb) ∧
      6 ∈ s.segMayWrite (s.segAtXY 2 .v .nmb) := by decide +kernel
theorem witness_LfSegLeavesEqualPixels :
    let s := vRow [128, 128, 128, 128, 128, 128, 128, 128] 63 4
    (2#2).toNat ≤ 2 ∧
      (∀ k ∈ ([-4, -3, -2, -1, 0, 1, 2, 3] : List Int),
        s.pix.read (Spec.placeAddr s 2 .v s.lfx.toNat s.lfy.toNat k).toNat = 128#8) ∧
      after (.lfSeg 2 .v .nmb) s (fun t => !t.fault) = true := by decide +kernel
/-- A step of 97 between P0 and Q0 at level 63: 2 * 97 is one more than the largest EMB (43_lf R217 d). -/
theorem witness_LfSegLeavesSharpEdges :
    let s := vRow [100, 100, 100, 100, 197, 100, 100, 100] 63 4
    Spec.segInRange s 2 .v .nmb (s.lfx.toNat : Int) (s.lfy.toNat : Int) ∧
      Spec.edgeLimit .nmb 63 0 < |(100 : Int) - 197| * 2 + |(100 : Int) - 100| / 2 ∧
      (s.pix.read 3).toNat = 100 ∧ (s.pix.read 4).toNat = 197 :=
  ⟨vRow_inRange_normal _ _ rfl, by decide, by decide, by decide⟩
/-- All sixteen rows of an edge over overlapping rows (stride 0). -/
theorem witness_LfEdgeCompletes :
    let s := vRow [100, 100, 100, 100, 110, 110, 110, 110] 20 4
    ∀ k : Nat, k ≤ (15#4).toNat → Spec.segInRange s 2 .v .nmb (s.lfx.toNat : Int) ((s.lfy.toNat + k : Nat) : Int) := by
  intro s k _
  refine ⟨by show (4 : Int) ≤ 4; decide, fun j h1 h2 => ?_⟩
  simp only [s, Spec.reach, Spec.placeAddr, Spec.pixelAddr, vRow, pixels, State.reset] at *
  simp
  omega
theorem witness_LfEdgeIsTheSequenceOfItsSegs :
    let s : State := { vRow [100, 100, 100, 100, 110, 110, 110, 110] 20 4 with lfy := 16368 }
    s.fault = false ∧ s.lfy.toNat + (15#4).toNat < 2 ^ 14 ∧ after (.lfEdge 2 .v .nmb 15) s (fun t => !t.fault) = true := by
  decide +kernel
/-- An edge that runs past the 14-bit register: rows 16383 to 16398, all at one address range (stride 0). -/
theorem witness_LfEdgeIsTheSequenceOfItsSegs_unwrapped :
    let s : State := { vRow [100, 100, 100, 100, 110, 110, 110, 110] 20 4 with lfy := 16383 }
    s.fault = false ∧ ¬s.lfy.toNat + (15#4).toNat < 2 ^ 14 ∧
      after (.lfEdge 2 .v .nmb 15) s (fun t => !t.fault) = true := by decide +kernel
theorem witness_LfMbIsGatedByTheLevels :
    ({ State.reset with lfcfg := 0x00F, lflvl := 63 } : State).lfcfg.toNat / 16 = 0 ∧
      ({ State.reset with lfcfg := 0x3FF } : State).lflvl = 0 := by decide
/-- The smallest PIX that holds the macroblock 0, 0 with YSTRIDE 16, UVSTRIDE 8 and the planes one after the other. -/
theorem witness_LfMbCompletes :
    let s : State := { State.reset with
      ystride := 16, uvstride := 8, ubase := 256, vbase := 320, params := { streamSize := 0, pixSize := 384 } }
    Spec.pixelAddr s 0 15 15 < s.params.pixSize ∧ Spec.pixelAddr s 1 7 7 < s.params.pixSize ∧
      Spec.pixelAddr s 2 7 7 < s.params.pixSize ∧ s.lfcfg.getLsbD 0 = false := by decide
/-- LF_MB 1, 0 of the simple filter without inner edges: the pixels of its one edge exist, its last pixel does not. -/
theorem witness_LfMbCompletes_by_segs :
    let s : State := { pixels [] 0 20 0 0 with lfcfg := 0x141, params := { streamSize := 0, pixSize := 18 } }
    ∀ g ∈ Spec.macroblockSegs (s.lfcfg.getLsbD 0) (1#10).toNat (0#10).toNat true, g.inRange s := by
  intro s g hg
  rw [show Spec.macroblockSegs (s.lfcfg.getLsbD 0) (1#10).toNat (0#10).toNat true =
    (List.range 16).map (fun y => ⟨0, .v, .smb, 16, y⟩) from by decide] at hg
  obtain ⟨y, -, rfl⟩ := List.mem_map.mp hg
  refine ⟨by show (2 : Int) ≤ 16; decide, fun k h1 h2 => ?_⟩
  simp only [s, Spec.reach, Spec.placeAddr, Spec.pixelAddr, pixels, State.reset] at *
  simp
  omega
theorem witness_LfMbIsTheSequenceOfItsEdges :
    let s : State := { State.reset with lfcfg := 0x140, lflvl := 20, ystride := 32, uvstride := 16 }
    s.fault = false ∧ s.lfcfg.toNat / 16 ≠ 0 ∧ s.lflvl ≠ 0 ∧
      after (.lfMb 1 1 true) s (fun t => !t.fault) = true := by decide +kernel

end

end Sys2Proof.Tests
end

section
/-! PROOFS. The two ends of a command: what every command can have written when it completes or raises its fault, and that it always does one of the two (30_encoding R104; 60_exceptions R257). -/

namespace Sys2Proof.Machine

/-! ## What a command can leave behind -/

/-- A context after a read: the range registers and INIT stay, and a read that completed keeps its invariant (10_state R37, R39). -/
structure Ctx.Moved (done : Bool) (streamSize : Nat) (c c' : Ctx) : Prop where
  startAddr : c'.startAddr = c.startAddr
  endAddr   : c'.endAddr = c.endAddr
  init      : c'.init = c.init
  ok        : done = true → c.ok streamSize → c'.ok streamSize

theorem Ctx.Moved.refl (done : Bool) (n : Nat) (c : Ctx) : c.Moved done n c := ⟨rfl, rfl, rfl, fun _ => id⟩

/-- Free values stand only where a command faulted (60_exceptions R257). -/
theorem Ctx.moved_scramble (size n : Nat) (c : Ctx) : c.Moved false size (c.scramble n) :=
  ⟨rfl, rfl, rfl, nofun⟩

/-- Every completed read keeps the invariant of its context (10_state R39; 40_bd R139). -/
theorem Ctx.Read.moved {c c' : Ctx} {n : Nat} (h : c.Read c' n) (done : Bool) (size : Nat) : c.Moved done size c' := by
  obtain ⟨m, -, ha⟩ := h.adv
  refine ⟨ha.startAddr, ha.endAddr, ha.init, fun _ hok hinit => ?_⟩
  obtain ⟨hstart, hpos, hend, hrange, hzeros⟩ := hok (ha.init ▸ hinit)
  refine ⟨?_, ha.inRange hpos, ha.endAddr ▸ hend, h.range hrange, h.zeros hrange hzeros⟩
  rw [ha.startAddr]
  exact hstart.trans ha.pos_le

/-- The contexts of `bd` are those of the state, each moved by reads at most. -/
def State.CtxsMoved (s : State) (done : Bool) (bd : Vector Ctx 9) : Prop :=
  ∀ k : Fin 9, (s.ctx k).Moved done s.params.streamSize bd[k]

theorem State.ctxsMoved_refl (s : State) (done : Bool) : s.CtxsMoved done s.bd := fun _ => .refl ..

/-- Only the current context moves. -/
theorem State.ctxsMoved_set {s : State} {done : Bool} {c : Ctx} (h : s.curCtx.Moved done s.params.streamSize c) :
    s.CtxsMoved done (s.setCtx s.cur c).bd := by
  intro k
  show (s.ctx k).Moved done s.params.streamSize ((s.setCtx s.cur c).ctx k)
  by_cases hk : k = s.cur
  · subst hk
    rw [State.ctx_setCtx_same]
    exact h
  · rw [State.ctx_setCtx_ne _ _ hk]
    exact .refl ..

/-- What a command may have written by the time it completes (`done`) or raises its fault: one constructor per set of places
(10_state R20 to R48; 60_exceptions R257). Canonical memories stay canonical. -/
inductive State.Writes (s : State) (done : Bool) : Instr → State → Prop
  | nothing (i : Instr) : Writes s done i s
  | bdSel (ctx : BitVec 4) (k : Fin 9) : Writes s done (.bdSel ctx) { s with cur := k }
  | bdSeek {ctx : BitVec 4} {k : Fin 9} {c : Ctx} {n : Nat} (hstart : c.startAddr = (s.ctx k).startAddr)
      (hend : c.endAddr = (s.ctx k).endAddr) (hok : done = true → c.ok s.params.streamSize) :
      Writes s done (.bdSeek ctx) { s.setCtx k c with freeIx := n }
  | read {i : Instr} {bd : Vector Ctx 9} {v : Word} {n : Nat}
      (hi : i.opcode ∈ [.bdBit, .bdBool, .bdLit, .bdTree]) (hbd : s.CtxsMoved done bd) :
      Writes s done i { s with bd := bd, result := v, freeIx := n }
  | level {i : Instr} {v : BitVec 6} (hi : i.opcode ∈ [.lfSetlvl, .lfAdjlvl]) : Writes s done i { s with lflvl := v }
  | lfSetx (coord : BitVec 14) : Writes s done (.lfSetx coord) { s with lfx := coord }
  | lfSety (coord : BitVec 14) : Writes s done (.lfSety coord) { s with lfy := coord }
  | tdRst : Writes s done .tdRst { s with lnz := 0, anz := s.anz.clear 0 1024 }
  | tdNewrow : Writes s done .tdNewrow { s with lnz := 0 }
  | tdBlk {blk : BitVec 5} {type : BitVec 2} {col : BitVec 10} {bd : Vector Ctx 9} {v : Word} {l a : BitVec 9}
      {qcoef : Memory 16} {n : Nat} (hbd : s.CtxsMoved done bd)
      (hq : Memory.wf 400 s.qcoef → Memory.wf 400 qcoef) :
      Writes s done (.tdBlk blk type col) { s with
        bd := bd, result := v, lnz := l, anz := s.anz.write col.toNat a, qcoef := qcoef, freeIx := n }
  | dqBlk {blk : BitVec 5} {type seg : BitVec 2} {coef : Memory 32}
      (hc : Memory.wf 400 s.coef → Memory.wf 400 coef) :
      Writes s done (.dqBlk blk type seg) { s with coef := coef }
  | tdMb {seg : BitVec 2} {col : BitVec 10} {hasy2 skip : Bool} {bd : Vector Ctx 9} {v : Word} {l a : BitVec 9}
      {qcoef : Memory 16} {coef : Memory 32} {n : Nat} (hbd : s.CtxsMoved done bd)
      (hq : Memory.wf 400 s.qcoef → Memory.wf 400 qcoef)
      (hc : Memory.wf 400 s.coef → Memory.wf 400 coef) :
      Writes s done (.tdMb seg col hasy2 skip) { s with
        bd := bd, result := v, lnz := l, anz := s.anz.write col.toNat a, qcoef := qcoef, coef := coef, freeIx := n }
  | pix {i : Instr} {pix : Memory 8} {n : Nat} (hi : i.opcode ∈ [.lfSeg, .lfEdge, .lfMb])
      (hp : Memory.wf s.params.pixSize s.pix → Memory.wf s.params.pixSize pix) :
      Writes s done i { s with pix := pix, freeIx := n }

/-- The two ends of a command: it completes, or it raises a fault that is not ILLEGAL_CMD (30_encoding R104; 60_exceptions
R255). -/
def State.Ends (s : State) (i : Instr) (t : State) : Prop :=
  (∃ u, s.Writes true i u ∧ t = u.complete) ∨
    ∃ u e, s.Writes false i u ∧ e.name ≠ FaultName.illegalCmd ∧ t = u.raise (encode i) e

theorem State.Ends.of_complete {s u : State} {i : Instr} (h : s.Writes true i u) : s.Ends i u.complete :=
  .inl ⟨u, h, rfl⟩

theorem State.Ends.of_raise {s u : State} {i : Instr} {e : Trap} (h : s.Writes false i u)
    (he : e.name ≠ .illegalCmd) : s.Ends i (u.raise (encode i) e) := .inr ⟨u, e, h, he, rfl⟩

/-- A check that fails before the command changes anything (60_exceptions R255). -/
theorem State.Ends.of_check (s : State) (i : Instr) {name : FaultName} (info : Word)
    (hn : name ≠ .illegalCmd := by decide) : s.Ends i (s.raise (encode i) ⟨name, info⟩) := .of_raise (.nothing i) hn

theorem FaultName.ne_illegalCmd {a b : FaultName} (h : a = b) (hb : b ≠ .illegalCmd := by decide) : a ≠ .illegalCmd :=
  h ▸ hb

/-! ## The Boolean decoder -/

theorem bdRead_ends {i : Instr} {s t : State} {read : Ctx → Except Trap (Word × Ctx)}
    (hi : i.opcode ∈ [.bdBit, .bdBool, .bdLit, .bdTree])
    (hok : ∀ v c, read s.curCtx = .ok (v, c) → ∃ n, s.curCtx.Read c n)
    (herr : ∀ e, read s.curCtx = .error e → e.name ≠ .illegalCmd) (h : bdRead i s read = .next t) : s.Ends i t := by
  rcases bdRead_cases h with ⟨-, rfl⟩ | ⟨-, v, c, hv, rfl⟩ | ⟨-, e, he, rfl⟩
  · exact .of_check ..
  · obtain ⟨n, hr⟩ := hok v c hv
    exact .of_complete (.read (n := s.freeIx) hi (s.ctxsMoved_set (hr.moved true _)))
  · exact .of_raise (.read hi (s.ctxsMoved_set (s.curCtx.moved_scramble _ _))) (herr e he)

theorem readBoolWord_bdRead_ends {i : Instr} {s t : State} {p : BitVec 8}
    (hi : i.opcode ∈ [.bdBit, .bdBool, .bdLit, .bdTree]) (h : bdRead i s (readBoolWord s.stream p) = .next t) :
    s.Ends i t := by
  refine bdRead_ends hi (fun v c hv => ?_) (fun e he => ?_) h
  · obtain ⟨b, hb, -⟩ := readBoolWord_ok hv
    exact ⟨7, readBool_read hb⟩
  · exact FaultName.ne_illegalCmd (readBool_error_name (readBoolWord_error.mp he))

theorem execBdLit_ends {n : BitVec 5} {s t : State} (h : execBdLit n s = .next t) : s.Ends (.bdLit n) t := by
  refine bdRead_ends (by simp [Instr.opcode]) (fun v c hv => ?_) (fun e he => ?_) h
  · obtain ⟨k, hk, -⟩ := readLitWord_ok hv
    exact ⟨_, readBits_read hk⟩
  · exact FaultName.ne_illegalCmd (readBits_error_name (readLitWord_error.mp he))

theorem execBdTree_ends {start : BitVec 6} {s t : State} (h : execBdTree start s = .next t) :
    s.Ends (.bdTree start) t := by
  rcases execBdTree_cases h with ⟨-, -, rfl⟩ | ⟨-, h⟩
  · exact .of_check ..
  · refine bdRead_ends (by simp [Instr.opcode]) (fun v c hv => ?_) (fun e he => ?_) h
    · have hr := treeWalk_read hv
      exact ⟨_, hr⟩
    · rcases treeWalk_error_name he with hn | hn
      · exact FaultName.ne_illegalCmd hn
      · exact FaultName.ne_illegalCmd hn

/-- A completed seek leaves a context that meets its invariant (40_bd R138). -/
theorem seek_ctx_ok {stream : Memory 8} {c c' : Ctx} {streamSize : Nat} (h : seek stream c = .ok c')
    (hse : c.startAddr.toNat ≤ c.endAddr.toNat) (hsize : c.endAddr.toNat ≤ streamSize) : c'.ok streamSize := by
  obtain ⟨hle, rfl⟩ := seek_ok h hse
  have hpos : (c.startAddr + 2).toNat = c.startAddr.toNat + 2 := by
    have := c.endAddr.isLt
    rw [BitVec.toNat_add, show (2 : Word).toNat = 2 from rfl]
    omega
  exact fun _ => ⟨hpos.ge, hpos.trans_le hle, hsize, by show 128 ≤ 255; decide, Nat.mod_one _⟩

theorem execBdSeek_ends {ctx : BitVec 4} {s t : State} (h : execBdSeek ctx s = .next t) : s.Ends (.bdSeek ctx) t := by
  rcases execBdSeek_cases h with ⟨-, rfl⟩ | ⟨-, rfl⟩ | ⟨hse, hsize, ⟨c, hc, rfl⟩ | ⟨e, he, rfl⟩⟩
  · exact .of_check ..
  · exact .of_check ..
  · have hok := seek_ctx_ok hc hse hsize
    obtain ⟨-, rfl⟩ := seek_ok hc hse
    exact .of_complete (.bdSeek (n := s.freeIx) rfl rfl fun _ => hok)
  · exact .of_raise (.bdSeek rfl rfl nofun) (FaultName.ne_illegalCmd (seek_error_name he))

/-! ## The token decoder -/

theorem tdBlk_qcoef_wf {stream cprob : Memory 8} {blk t n : Nat} {a a' : Work} {nz : Bool}
    (h : tdBlk rom stream cprob blk t a = .ok (n, nz, a')) (hb : blk ≤ 24) (hq : Memory.wf 400 a.qcoef) :
    Memory.wf 400 a'.qcoef := by
  obtain ⟨levels, -, hn, hn16, -, -, ha⟩ := tdBlk_ok h
  rw [ha]
  refine Memory.wf_writeSeq _ hq ?_
  rw [blockLevels_length (by omega)]
  unfold coefIx
  omega

theorem tdBlocks_wf {stream cprob : Memory 8} {dqf : Memory 16} {seg : Nat} {blocks : List (Nat × Nat)}
    {any any' : Bool} {a a' : Work} (h : tdBlocks rom stream cprob dqf seg blocks any a = .ok (any', a'))
    (hb : ∀ b ∈ blocks, b.1 ≤ 24) :
    (Memory.wf 400 a.qcoef → Memory.wf 400 a'.qcoef) ∧ (Memory.wf 400 a.coef → Memory.wf 400 a'.coef) := by
  constructor
  · refine fun hq => tdBlocks_induct (fun a => Memory.wf 400 a.qcoef) h hq fun b hbm a1 n nz a2 hq h1 => ?_
    exact tdBlk_qcoef_wf (a' := a2) h1 (hb b hbm) hq
  · refine fun hc => tdBlocks_induct (fun a => Memory.wf 400 a.coef) h hc fun b hbm a1 n nz a2 hc h1 => ?_
    obtain ⟨_, -, -, -, -, -, ha⟩ := tdBlk_ok h1
    refine dqBlk_wf _ _ _ _ _ (hb b hbm) ?_
    rw [ha]
    exact hc

theorem blkLegal_iff {blk : BitVec 5} : blkLegal blk = true ↔ blk.toNat ≤ 24 := by simp [blkLegal]

theorem coefIx_range_lt {blk : Nat} (hb : blk ≤ 24) : ∀ a ∈ List.range' (coefIx blk 0) 16, a < 400 := by
  intro a ha
  obtain ⟨j, hj, rfl⟩ := List.mem_range'.mp ha
  unfold coefIx
  omega

/-- The working set of a block, put back: COEF is not among its places. -/
theorem State.putWork_eq {s : State} {a : Work} (h : a.coef = s.coef) (col : Nat) (v : Word) :
    ({ s.putWork col a with result := v } : State) = { s with
      bd := (s.setCtx s.cur a.ctx).bd, result := v, lnz := a.lnz, anz := s.anz.write col a.anz, qcoef := a.qcoef
      freeIx := s.freeIx } := by
  simp only [State.putWork, State.setCtx, h]

theorem execTdBlk_ends {blk : BitVec 5} {type : BitVec 2} {col : BitVec 10} {s t : State}
    (h : execTdBlk blk type col s = .next t) : s.Ends (.tdBlk blk type col) t := by
  rcases execTdBlk_cases h with ⟨-, rfl⟩ | ⟨-, rfl⟩ | ⟨hw, -, ⟨n, nz, a, ha, rfl⟩ | ⟨e, he, rfl⟩⟩
  · exact .of_check ..
  · exact .of_check ..
  · have hq := tdBlk_qcoef_wf ha (blkLegal_iff.mp hw)
    obtain ⟨_, hr, -, -, -, -, heq⟩ := tdBlk_ok ha
    have hcoef : a.coef = s.coef := congrArg Work.coef heq
    rw [State.putWork_eq hcoef]
    exact .of_complete (.tdBlk (s.ctxsMoved_set (hr.moved true _)) hq)
  · exact .of_raise (.tdBlk (s.ctxsMoved_set (s.curCtx.moved_scramble _ _))
      fun hq => Memory.wf_scramble _ _ hq (coefIx_range_lt (blkLegal_iff.mp hw)))
      (FaultName.ne_illegalCmd (tdBlk_error_name he))

theorem execTdMb_ends {seg : BitVec 2} {col : BitVec 10} {hasy2 skip : Bool} {s t : State}
    (h : execTdMb seg col hasy2 skip s = .next t) : s.Ends (.tdMb seg col hasy2 skip) t := by
  cases skip with
  | true =>
    rw [execTdMb_skip] at h
    obtain rfl := Host.Outcome.next.inj h
    exact .of_complete (.tdMb (n := s.freeIx) (s.ctxsMoved_refl true) (Memory.wf_clear 0 400) (Memory.wf_clear 0 400))
  | false =>
    rcases execTdMb_cases h with ⟨-, rfl⟩ | ⟨-, ⟨any, a, ha, rfl⟩ | ⟨e, he, rfl⟩⟩
    · exact .of_check ..
    · have hr := tdBlocks_read ha
      obtain ⟨hq, hc⟩ := tdBlocks_wf ha fun b hb => ((macroblockBlocks_bounds hasy2).2 b hb).1
      cases hasy2 with
      | true => exact .of_complete (.tdMb (n := s.freeIx) (s.ctxsMoved_set (hr.moved true _)) hq hc)
      | false =>
        exact .of_complete (.tdMb (n := s.freeIx) (s.ctxsMoved_set (hr.moved true _))
          (fun h => hq (Memory.wf_clear _ 16 h)) fun h => hc (Memory.wf_clear _ 16 h))
    · have hall {w : Nat} {m : Memory w} (n : Nat) (hm : Memory.wf 400 m) :
          Memory.wf 400 (m.scramble n (List.range 400)) := Memory.wf_scramble _ _ hm fun a ha => List.mem_range.mp ha
      exact .of_raise (.tdMb (s.ctxsMoved_set (s.curCtx.moved_scramble _ _)) (hall _) (hall _))
        (FaultName.ne_illegalCmd (tdBlocks_error_name he))

/-! ## The dequantizer and the loop filter -/

theorem execDqBlk_ends {blk : BitVec 5} {type seg : BitVec 2} {s t : State} (h : execDqBlk blk type seg s = .next t) :
    s.Ends (.dqBlk blk type seg) t := by
  unfold execDqBlk at h
  rcases guardLegal_cases h with ⟨-, rfl⟩ | ⟨hw, h⟩
  · exact .of_check ..
  · obtain rfl := Host.Outcome.next.inj h
    exact .of_complete (.dqBlk (dqBlk_wf _ _ _ _ _ (blkLegal_iff.mp hw)))

theorem runSegs_ends {i : Instr} {ops : List SegOp} {s t : State} (hi : i.opcode ∈ [.lfSeg, .lfEdge, .lfMb])
    (h : runSegs i s ops = .next t) : s.Ends i t := by
  rcases runSegs_cases h with ⟨pix, hpix, rfl⟩ | ⟨e, he, rfl⟩
  · exact .of_complete (.pix (n := s.freeIx) hi (segs_wf hpix))
  · exact .of_raise (.pix hi (s.scramblePix_spec ops).2) (FaultName.ne_illegalCmd (segs_error_name he))

theorem execLfSeg_ends {plane : BitVec 2} {dir : Dir} {kind : Kind} {s t : State}
    (h : execLfSeg plane dir kind s = .next t) : s.Ends (.lfSeg plane dir kind) t := by
  rcases execLfSeg_cases h with ⟨-, rfl⟩ | ⟨pix, hpix, rfl⟩ | ⟨e, he, rfl⟩
  · exact .of_check ..
  · exact .of_complete (.pix (n := s.freeIx) (by simp [Instr.opcode]) (seg_wf hpix))
  · exact .of_raise (.nothing _) (FaultName.ne_illegalCmd (seg_error_name he))

theorem execLfEdge_ends {plane : BitVec 2} {dir : Dir} {kind : Kind} {lenm1 : BitVec 4} {s t : State}
    (h : execLfEdge plane dir kind lenm1 s = .next t) : s.Ends (.lfEdge plane dir kind lenm1) t := by
  rcases execLfEdge_cases h with ⟨-, rfl⟩ | h
  · exact .of_check ..
  · exact runSegs_ends (by simp [Instr.opcode]) h

theorem execLfMb_ends {mbx mby : BitVec 10} {noinner : Bool} {s t : State} (h : execLfMb mbx mby noinner s = .next t) :
    s.Ends (.lfMb mbx mby noinner) t := by
  rcases execLfMb_cases h with ⟨-, rfl⟩ | ⟨-, h⟩
  · exact .of_complete (.nothing _)
  · exact runSegs_ends (by simp [Instr.opcode]) h

/-! ## Every command -/

theorem execBdSel_ends {ctx : BitVec 4} {s t : State} (h : execBdSel ctx s = .next t) : s.Ends (.bdSel ctx) t := by
  unfold execBdSel at h
  rcases guardLegal_cases h with ⟨-, rfl⟩ | ⟨-, h⟩
  · exact .of_check ..
  · obtain rfl := Host.Outcome.next.inj h
    exact .of_complete (.bdSel _ _)

/-- A command that has one completed outcome only. -/
theorem State.Ends.of_completed {s t u : State} {i : Instr} (h : completed u = .next t) (hw : s.Writes true i u) :
    s.Ends i t := by
  obtain rfl := Host.Outcome.next.inj h
  exact .of_complete hw

/-- Whatever a command leaves behind is one of its two ends (30_encoding R104; 60_exceptions R255, R257). -/
theorem exec_ends {i : Instr} {s t : State} (h : exec i s = .next t) : s.Ends i t := by
  cases i with
  | nop => exact .of_completed h (.nothing _)
  | bdSel ctx => exact execBdSel_ends h
  | bdSeek ctx => exact execBdSeek_ends h
  | bdBit => exact readBoolWord_bdRead_ends (by simp [Instr.opcode]) h
  | bdBool prob => exact readBoolWord_bdRead_ends (by simp [Instr.opcode]) h
  | bdLit n => exact execBdLit_ends h
  | bdTree start => exact execBdTree_ends h
  | tdRst => exact .of_completed h .tdRst
  | tdNewrow => exact .of_completed h .tdNewrow
  | tdBlk blk type col => exact execTdBlk_ends h
  | dqBlk blk type seg => exact execDqBlk_ends h
  | tdMb seg col hasy2 skip => exact execTdMb_ends h
  | lfSetlvl lvl => exact .of_completed h (.level (by simp [Instr.opcode]))
  | lfAdjlvl delta => exact .of_completed h (.level (by simp [Instr.opcode]))
  | lfSetx coord => exact .of_completed h (.lfSetx coord)
  | lfSety coord => exact .of_completed h (.lfSety coord)
  | lfSeg plane dir kind => exact execLfSeg_ends h
  | lfEdge plane dir kind lenm1 => exact execLfEdge_ends h
  | lfMb mbx mby noinner => exact execLfMb_ends h

/-! ## A command always ends in a next state -/

theorem guardLegal_next {i : Instr} {s : State} {body : Host.Outcome State Fault Refusal} (h : ∃ t, body = .next t) :
    ∃ t, guardLegal i s body = .next t := by
  unfold guardLegal
  split
  · exact h
  · exact ⟨_, rfl⟩

theorem bdRead_next (i : Instr) (s : State) (read : Ctx → Except Trap (Word × Ctx)) : ∃ t, bdRead i s read = .next t := by
  unfold bdRead
  split
  · split <;> exact ⟨_, rfl⟩
  · exact ⟨_, rfl⟩

theorem runSegs_next (i : Instr) (s : State) (ops : List SegOp) : ∃ t, runSegs i s ops = .next t := by
  unfold runSegs
  split <;> exact ⟨_, rfl⟩

theorem execBdSeek_next (ctx : BitVec 4) (s : State) : ∃ t, execBdSeek ctx s = .next t := by
  refine guardLegal_next ?_
  split
  · split <;> exact ⟨_, rfl⟩
  · exact ⟨_, rfl⟩

theorem execBdTree_next (start : BitVec 6) (s : State) : ∃ t, execBdTree start s = .next t := by
  unfold execBdTree
  split
  · exact ⟨_, rfl⟩
  · exact bdRead_next ..

theorem execTdBlk_next (blk : BitVec 5) (type : BitVec 2) (col : BitVec 10) (s : State) :
    ∃ t, execTdBlk blk type col s = .next t := by
  refine guardLegal_next ?_
  split
  · split <;> exact ⟨_, rfl⟩
  · exact ⟨_, rfl⟩

theorem execTdMb_next (seg : BitVec 2) (col : BitVec 10) (hasy2 skip : Bool) (s : State) :
    ∃ t, execTdMb seg col hasy2 skip s = .next t := by
  unfold execTdMb
  dsimp only
  split
  · exact ⟨_, rfl⟩
  · split
    · split <;> exact ⟨_, rfl⟩
    · exact ⟨_, rfl⟩

theorem execLfSeg_next (plane : BitVec 2) (dir : Dir) (kind : Kind) (s : State) :
    ∃ t, execLfSeg plane dir kind s = .next t := by
  refine guardLegal_next ?_
  split <;> exact ⟨_, rfl⟩

theorem execLfMb_next (mbx mby : BitVec 10) (noinner : Bool) (s : State) :
    ∃ t, execLfMb mbx mby noinner s = .next t := by
  unfold execLfMb
  split
  · exact ⟨_, rfl⟩
  · exact runSegs_next ..

/-- No command stops the machine (60_exceptions R257). -/
theorem exec_next (i : Instr) (s : State) : ∃ t, exec i s = .next t := by
  cases i with
  | bdSel ctx => exact guardLegal_next ⟨_, rfl⟩
  | bdSeek ctx => exact execBdSeek_next ctx s
  | bdBit => exact bdRead_next ..
  | bdBool prob => exact bdRead_next ..
  | bdLit n => exact bdRead_next ..
  | bdTree start => exact execBdTree_next start s
  | tdBlk blk type col => exact execTdBlk_next blk type col s
  | dqBlk blk type seg => exact guardLegal_next ⟨_, rfl⟩
  | tdMb seg col hasy2 skip => exact execTdMb_next seg col hasy2 skip s
  | lfSeg plane dir kind => exact execLfSeg_next plane dir kind s
  | lfEdge plane dir kind lenm1 => exact guardLegal_next (runSegs_next ..)
  | lfMb mbx mby noinner => exact execLfMb_next mbx mby noinner s
  | nop | tdRst | tdNewrow | lfSetlvl lvl | lfAdjlvl delta | lfSetx coord | lfSety coord => exact ⟨_, rfl⟩

end Sys2Proof.Machine
end

section
/-! PROOFS. What a command leaves unchanged, from its two ends (O19, O21), and what TD_BLK leaves outside its block (O41). -/

namespace Sys2Proof.Machine

/-! ## What a command leaves unchanged -/

section
variable {s u : State} {done : Bool} {i : Instr}

/-- The counter and the fault fields are left to the end of the command (30_encoding R104). -/
theorem State.Writes.counter_fault (h : s.Writes done i u) :
    u.cmdcnt = s.cmdcnt ∧ u.fault = s.fault ∧ u.fcode = s.fcode ∧ u.fclass = s.fclass ∧ u.fcmd = s.fcmd ∧
      u.finfo = s.finfo := by
  cases h <;> exact ⟨rfl, rfl, rfl, rfl, rfl, rfl⟩

/-- No command writes a register or table of the host's, nor STREAM, the sizes and the host's side (10_state R32, R35, R40, R48). -/
theorem State.Writes.host_written (h : s.Writes done i u) :
    u.lfcfg = s.lfcfg ∧ u.ybase = s.ybase ∧ u.ubase = s.ubase ∧ u.vbase = s.vbase ∧ u.ystride = s.ystride ∧
      u.uvstride = s.uvstride ∧ u.tree = s.tree ∧ u.tprob = s.tprob ∧ u.dqf = s.dqf ∧ u.cprob = s.cprob ∧
      u.stream = s.stream ∧ u.params = s.params ∧ u.inbox = s.inbox ∧ u.rdata = s.rdata := by
  cases h <;> exact ⟨rfl, rfl, rfl, rfl, rfl, rfl, rfl, rfl, rfl, rfl, rfl, rfl, rfl, rfl⟩

/-- A context moves by reads, or BD_SEEK starts it (40_bd R131, R142). -/
theorem State.Writes.ctx_cases (h : s.Writes done i u) (k : Fin 9) :
    (s.ctx k).Moved done s.params.streamSize (u.ctx k) ∨
      i.opcode = .bdSeek ∧ (u.ctx k).startAddr = (s.ctx k).startAddr ∧ (u.ctx k).endAddr = (s.ctx k).endAddr ∧
        (done = true → (u.ctx k).ok s.params.streamSize) := by
  cases h with
  | @bdSeek _ j c n hstart hend hok =>
    change _ ∨ _ ∧ ((s.setCtx j c).ctx k).startAddr = _ ∧ ((s.setCtx j c).ctx k).endAddr = _ ∧
      (_ → ((s.setCtx j c).ctx k).ok _)
    by_cases hk : k = j
    · subst hk
      rw [State.ctx_setCtx_same]
      exact .inr ⟨rfl, hstart, hend, hok⟩
    · left
      show (s.ctx k).Moved done s.params.streamSize ((s.setCtx j c).ctx k)
      rw [State.ctx_setCtx_ne _ _ hk]
      exact .refl ..
  | read _ hbd => exact .inl (hbd k)
  | tdBlk hbd _ => exact .inl (hbd k)
  | tdMb hbd _ _ => exact .inl (hbd k)
  | _ => exact .inl (.refl ..)

theorem State.Writes.start_end (h : s.Writes done i u) (k : Fin 9) :
    (u.ctx k).startAddr = (s.ctx k).startAddr ∧ (u.ctx k).endAddr = (s.ctx k).endAddr := by
  rcases h.ctx_cases k with hm | ⟨-, hstart, hend, -⟩
  · exact ⟨hm.startAddr, hm.endAddr⟩
  · exact ⟨hstart, hend⟩

theorem State.Writes.init (h : s.Writes done i u) (hn : i.opcode ≠ .bdSeek) (k : Fin 9) :
    (u.ctx k).init = (s.ctx k).init := by
  rcases h.ctx_cases k with hm | ⟨hi, -⟩
  · exact hm.init
  · exact absurd hi hn

theorem State.Writes.result (h : s.Writes done i u)
    (hn : i.opcode ∉ [.bdBit, .bdBool, .bdLit, .bdTree, .tdBlk, .tdMb]) : u.result = s.result := by
  cases h with
  | read hi => exact (hn (List.mem_append_left [Opcode.tdBlk, .tdMb] hi)).elim
  | tdBlk => simp [Instr.opcode] at hn
  | tdMb => simp [Instr.opcode] at hn
  | _ => rfl

theorem State.Writes.cur (h : s.Writes done i u) (hn : i.opcode ≠ .bdSel) : u.cur = s.cur := by
  cases h with
  | bdSel => exact absurd rfl hn
  | _ => rfl

theorem State.Writes.bd (h : s.Writes done i u)
    (hn : i.opcode ∉ [.bdSeek, .bdBit, .bdBool, .bdLit, .bdTree, .tdBlk, .tdMb]) : u.bd = s.bd := by
  cases h with
  | bdSeek => simp [Instr.opcode] at hn
  | read hi => exact (hn (List.mem_cons_of_mem .bdSeek (List.mem_append_left [Opcode.tdBlk, .tdMb] hi))).elim
  | tdBlk => simp [Instr.opcode] at hn
  | tdMb => simp [Instr.opcode] at hn
  | _ => rfl

theorem State.Writes.lflvl (h : s.Writes done i u) (hn : i.opcode ∉ [.lfSetlvl, .lfAdjlvl]) : u.lflvl = s.lflvl := by
  cases h with
  | level hi => exact absurd hi hn
  | _ => rfl

theorem State.Writes.lfx (h : s.Writes done i u) (hn : i.opcode ≠ .lfSetx) : u.lfx = s.lfx := by
  cases h with
  | lfSetx => exact absurd rfl hn
  | _ => rfl

theorem State.Writes.lfy (h : s.Writes done i u) (hn : i.opcode ≠ .lfSety) : u.lfy = s.lfy := by
  cases h with
  | lfSety => exact absurd rfl hn
  | _ => rfl

theorem State.Writes.lnz (h : s.Writes done i u) (hn : i.opcode ∉ [.tdRst, .tdNewrow, .tdBlk, .tdMb]) :
    u.lnz = s.lnz := by
  cases h with
  | tdRst => simp [Instr.opcode] at hn
  | tdNewrow => simp [Instr.opcode] at hn
  | tdBlk => simp [Instr.opcode] at hn
  | tdMb => simp [Instr.opcode] at hn
  | _ => rfl

theorem State.Writes.anz (h : s.Writes done i u) (hn : i.opcode ∉ [.tdRst, .tdBlk, .tdMb]) : u.anz = s.anz := by
  cases h with
  | tdRst => simp [Instr.opcode] at hn
  | tdBlk => simp [Instr.opcode] at hn
  | tdMb => simp [Instr.opcode] at hn
  | _ => rfl

theorem State.Writes.qcoef (h : s.Writes done i u) (hn : i.opcode ∉ [.tdBlk, .tdMb]) : u.qcoef = s.qcoef := by
  cases h with
  | tdBlk => simp [Instr.opcode] at hn
  | tdMb => simp [Instr.opcode] at hn
  | _ => rfl

theorem State.Writes.coef (h : s.Writes done i u) (hn : i.opcode ∉ [.dqBlk, .tdMb]) : u.coef = s.coef := by
  cases h with
  | dqBlk => simp [Instr.opcode] at hn
  | tdMb => simp [Instr.opcode] at hn
  | _ => rfl

theorem State.Writes.pix_eq (h : s.Writes done i u) (hn : i.opcode ∉ [.lfSeg, .lfEdge, .lfMb]) : u.pix = s.pix := by
  cases h with
  | pix hi => exact absurd hi hn
  | _ => rfl

/-- A command keeps every memory canonical, completed or faulted (10_state R40, R48). -/
theorem State.Writes.memOk (h : s.Writes done i u) (hs : s.MemOk) : u.MemOk := by
  cases h with
  | tdRst => exact { hs with anz := Memory.wf_clear 0 1024 hs.anz }
  | @tdBlk _ _ col _ _ _ a _ _ _ hq =>
    exact { hs with anz := Memory.wf_write a hs.anz col.isLt, qcoef := hq hs.qcoef }
  | dqBlk hc => exact { hs with coef := hc hs.coef }
  | @tdMb _ col _ _ _ _ _ a _ _ _ _ hq hc =>
    exact { hs with anz := Memory.wf_write a hs.anz col.isLt, qcoef := hq hs.qcoef, coef := hc hs.coef }
  | pix _ hp => exact { hs with pix := hp hs.pix }
  | _ => exact { hs with }

/-- A completed command keeps the invariant of every context (10_state R39). -/
theorem State.Writes.ctx_ok (h : s.Writes true i u) (hs : ∀ k, (s.ctx k).ok s.params.streamSize) (k : Fin 9) :
    (u.ctx k).ok s.params.streamSize := by
  rcases h.ctx_cases k with hm | ⟨-, -, -, hok⟩
  · exact hm.ok rfl (hs k)
  · exact hok rfl

end

/-! ## Statements about every command -/

/-- A fault a command raises in execution has its code and its class (60_exceptions R250, R251). -/
theorem FaultName.code_cls_mem {f : FaultName} (h : f ≠ .illegalCmd) :
    (f.code, f.cls) ∈ ([(2, 3), (3, 3), (4, 3), (5, 2), (6, 3), (7, 3)] : List (BitVec 4 × BitVec 2)) := by
  cases f with
  | illegalCmd => exact absurd rfl h
  | _ => decide

/-- Settles O19: no command stops the machine, and each of its two ends writes the counter or the fault fields, not both. -/
theorem commandCompletesOrFaults : Obligations.CommandCompletesOrFaults := by
  intro i s
  obtain ⟨t, ht⟩ := exec_next i s
  refine ⟨t, ht, ?_⟩
  rcases exec_ends ht with ⟨u, hu, rfl⟩ | ⟨u, e, hu, he, rfl⟩
  · obtain ⟨hcnt, hfault⟩ := hu.counter_fault
    exact .inl ⟨congrArg (· + 1) hcnt, hfault⟩
  · exact .inr ⟨hu.counter_fault.1, rfl, rfl, FaultName.code_cls_mem he⟩

/-- Settles O21: what a command has written before its end is in its set of places, and neither end writes any of them. -/
theorem commandsWriteOnlyTheirRegisters : Obligations.CommandsWriteOnlyTheirRegisters := by
  intro i s t ht
  rcases exec_ends ht with ⟨u, hu, rfl⟩ | ⟨u, e, hu, -, rfl⟩
  · exact ⟨hu.host_written, hu.start_end, hu.result, hu.cur, hu.init, hu.bd, hu.lflvl, hu.lfx, hu.lfy, hu.lnz, hu.anz,
      hu.qcoef, hu.coef, hu.pix_eq⟩
  · exact ⟨hu.host_written, hu.start_end, hu.result, hu.cur, hu.init, hu.bd, hu.lflvl, hu.lfx, hu.lfy, hu.lnz, hu.anz,
      hu.qcoef, hu.coef, hu.pix_eq⟩

/-! ## TD_BLK leaves the other blocks -/

/-- What TD_BLK leaves outside its block: the places O41 speaks of (10_state R47; 41_td R170). -/
structure State.SameOutsideBlock (s t : State) (blk col : Nat) : Prop where
  qcoef : ∀ a, a < blk * 16 ∨ blk * 16 + 16 ≤ a → t.qcoef.read a = s.qcoef.read a
  lnz   : ∀ j, j ≠ lBit blk → t.lnz.getLsbD j = s.lnz.getLsbD j
  anz   : ∀ x, x ≠ col → t.anz.read x = s.anz.read x
  above : ∀ j, j ≠ aBit blk → (t.anz.read col).getLsbD j = (s.anz.read col).getLsbD j

theorem State.SameOutsideBlock.raise (s : State) (w : Word) (e : Trap) (blk col : Nat) :
    s.SameOutsideBlock (s.raise w e) blk col :=
  ⟨fun _ _ => rfl, fun _ _ => rfl, fun _ _ => rfl, fun _ _ => rfl⟩

/-- One flag of each of the two vectors and the entries of one block of QCOEF written. -/
theorem State.SameOutsideBlock.of_flags {s t : State} {blk col : Nat} (p q : Bool)
    (hq : ∀ a, a < blk * 16 ∨ blk * 16 + 16 ≤ a → t.qcoef.read a = s.qcoef.read a)
    (hl : t.lnz = withFlag s.lnz (lBit blk) p)
    (ha : t.anz = s.anz.write col (withFlag (s.anz.read col) (aBit blk) q)) : s.SameOutsideBlock t blk col where
  qcoef := hq
  lnz j hj := by rw [hl, withFlag_getLsbD _ _ _ (lBit_lt blk), if_neg hj]
  anz x hx := by rw [ha, Memory.read_write_ne _ _ hx]
  above j hj := by rw [ha, Memory.read_write_same, withFlag_getLsbD _ _ _ (aBit_lt blk), if_neg hj]

theorem execTdBlk_sameOutsideBlock {blk : BitVec 5} {type : BitVec 2} {col : BitVec 10} {s t : State}
    (h : execTdBlk blk type col s = .next t) : s.SameOutsideBlock t blk.toNat col.toNat := by
  rcases execTdBlk_cases h with ⟨-, rfl⟩ | ⟨-, rfl⟩ | ⟨-, -, ⟨n, nz, a, ha, rfl⟩ | ⟨e, -, rfl⟩⟩
  · exact .raise ..
  · exact .raise ..
  · obtain ⟨levels, -, hn, hn16, -, -, heq⟩ := tdBlk_ok ha
    refine .of_flags nz nz (fun b hb => ?_) (congrArg Work.lnz heq)
      (congrArg (s.anz.write col.toNat) (congrArg Work.anz heq))
    have hq : a.qcoef = _ := congrArg Work.qcoef heq
    show a.qcoef.read b = s.qcoef.read b
    rw [hq, Memory.read_writeSeq, blockLevels_length (by omega), if_neg]
    · rfl
    · unfold coefIx
      omega
  · refine .of_flags _ _ (fun b hb => Memory.read_scramble_of_not_mem _ _ _ _ ?_) rfl rfl
    rw [List.mem_range'_1]
    unfold coefIx
    omega

theorem lnzBit_eq_lBit (blk : Nat) : Spec.lnzBit blk = lBit blk := by
  unfold Spec.lnzBit lBit
  split_ifs <;> omega

theorem anzBit_eq_aBit (blk : Nat) : Spec.anzBit blk = aBit blk := by
  unfold Spec.anzBit aBit
  split_ifs <;> omega

/-- Settles O41, by the outcomes of TD_BLK: the block's sixteen entries and one bit of each flag vector are all it writes. -/
theorem tdBlkLeavesOtherBlocksAndFlags : Obligations.TdBlkLeavesOtherBlocksAndFlags := by
  intro s t blk type col h
  have hsame := execTdBlk_sameOutsideBlock h
  rw [lnzBit_eq_lBit, anzBit_eq_aBit]
  exact ⟨hsame.qcoef, hsame.lnz, hsame.anz, hsame.above⟩

end Sys2Proof.Machine
end

section
/-! PROOFS. The invariant: it holds at reset and every event keeps it (O12, O13). -/

namespace Sys2Proof.Machine

/-! ## The invariant under each event -/

theorem State.MemOk.withHost {s : State} (h : s.MemOk) (inbox : List HostEvent) (rdata : Word) :
    ({ s with inbox := inbox, rdata := rdata } : State).MemOk := { h with }

/-- The host's side of the state is free (logs 8, 9). -/
theorem State.Inv.withHost {s : State} (h : s.Inv) (inbox : List HostEvent) (rdata : Word) :
    ({ s with inbox := inbox, rdata := rdata } : State).Inv :=
  ⟨h.mem.withHost inbox rdata, h.params, h.fault, h.ctxs⟩

theorem Ctx.ok_of_init_false {c : Ctx} {streamSize : Nat} (h : c.init = false) : c.ok streamSize :=
  fun hc => absurd (hc.symm.trans h) (by decide)

/-- After a reset of the registers only the memories and the sizes matter (10_state R51; 70_reset R281). -/
theorem State.resetRegs_inv {s : State} (hm : s.MemOk) (hp : s.paramsOk) : s.resetRegs.Inv where
  mem := { hm with }
  params := hp
  fault := ⟨fun _ => ⟨rfl, rfl, rfl, rfl⟩, nofun⟩
  ctxs _ k := Ctx.ok_of_init_false (by rw [State.ctx_resetRegs]; rfl)

/-- A recorded fault leaves the contexts free (10_state R39). -/
theorem State.raise_inv {s : State} (hm : s.MemOk) (hp : s.paramsOk) (w : Word) (e : Trap) : (s.raise w e).Inv where
  mem := { hm with }
  params := hp
  fault := ⟨nofun, fun _ => ⟨e.name, rfl, rfl⟩⟩
  ctxs := nofun

theorem State.complete_inv {s : State} (h : s.Inv) : s.complete.Inv := ⟨{ h.mem with }, h.params, h.fault, h.ctxs⟩

theorem State.Writes.paramsOk {s u : State} {done : Bool} {i : Instr} (h : s.Writes done i u) (hs : s.paramsOk) :
    u.paramsOk := by
  cases h <;> exact hs

theorem State.Writes.inv {s u : State} {i : Instr} (h : s.Writes true i u) (hs : s.Inv) : u.Inv := by
  obtain ⟨-, hfault, hcode, hcls, hcmd, hinfo⟩ := h.counter_fault
  obtain ⟨-, -, -, -, -, -, -, -, -, -, -, hparams, -⟩ := h.host_written
  refine ⟨h.memOk hs.mem, h.paramsOk hs.params, ?_, fun hf k => ?_⟩
  · rw [State.faultOk, hfault, hcode, hcls, hcmd, hinfo]
    exact hs.fault
  · rw [hparams]
    exact h.ctx_ok (hs.ctxs (hfault ▸ hf)) k

/-- A command keeps the invariant, completed or faulted (10_state R39; 60_exceptions R257). -/
theorem exec_inv {i : Instr} {s t : State} (h : exec i s = .next t) (hs : s.Inv) : t.Inv := by
  rcases exec_ends h with ⟨u, hu, rfl⟩ | ⟨u, e, hu, -, rfl⟩
  · exact State.complete_inv (hu.inv hs)
  · exact State.raise_inv (hu.memOk hs.mem) (hu.paramsOk hs.params) _ _

theorem runCommand_inv {w : Word} {s t : State} (h : runCommand w s = .next t) (hs : s.Inv) : t.Inv := by
  unfold runCommand at h
  split at h
  · obtain rfl := Host.Outcome.next.inj h
    exact State.raise_inv hs.mem hs.params _ _
  · exact exec_inv h hs

/-- A context replaced by one with INIT = 0 (10_state R37). -/
theorem State.setCtx_inv {s : State} (hs : s.Inv) (k : Fin 9) {c : Ctx} (hc : c.init = false) : (s.setCtx k c).Inv where
  mem := { hs.mem with }
  params := hs.params
  fault := hs.fault
  ctxs hf j := by
    rw [State.ctx_setCtx]
    split
    · exact Ctx.ok_of_init_false hc
    · exact hs.ctxs hf j

/-- A stored register or entry keeps the invariant: entries lie inside their memory, and a new range clears INIT (10_state
R37, R40). -/
theorem State.storeLoc_inv {s : State} (hs : s.Inv) (d : Word) {loc : PortLoc} (hl : loc.inBounds) :
    (s.storeLoc d loc).Inv := by
  cases loc with
  | bdstart k => exact State.setCtx_inv hs k rfl
  | bdend k => exact State.setCtx_inv hs k rfl
  | tree i => exact ⟨{ hs.mem with tree := Memory.wf_write _ hs.mem.tree hl }, hs.params, hs.fault, hs.ctxs⟩
  | tprob i => exact ⟨{ hs.mem with tprob := Memory.wf_write _ hs.mem.tprob hl }, hs.params, hs.fault, hs.ctxs⟩
  | dqf i => exact ⟨{ hs.mem with dqf := Memory.wf_write _ hs.mem.dqf hl }, hs.params, hs.fault, hs.ctxs⟩
  | cprob i => exact ⟨{ hs.mem with cprob := Memory.wf_write _ hs.mem.cprob hl }, hs.params, hs.fault, hs.ctxs⟩
  | qcoef i => exact ⟨{ hs.mem with qcoef := Memory.wf_write _ hs.mem.qcoef hl }, hs.params, hs.fault, hs.ctxs⟩
  | coef i => exact ⟨{ hs.mem with coef := Memory.wf_write _ hs.mem.coef hl }, hs.params, hs.fault, hs.ctxs⟩
  | anz i => exact ⟨{ hs.mem with anz := Memory.wf_write _ hs.mem.anz hl }, hs.params, hs.fault, hs.ctxs⟩
  | _ => exact ⟨{ hs.mem with }, hs.params, hs.fault, hs.ctxs⟩

theorem hostWrite_inv {a : BitVec 13} {d : Word} {s t : State} (h : hostWrite a d s = .next t) (hs : s.Inv) : t.Inv := by
  unfold hostWrite at h
  split at h
  · obtain rfl := Host.Outcome.next.inj h
    split
    · exact State.resetRegs_inv hs.mem hs.params
    · exact hs
  · split at h
    · obtain rfl := Host.Outcome.next.inj h
      exact hs
    · split at h
      · exact runCommand_inv h hs
      · obtain rfl := Host.Outcome.next.inj h
        exact State.storeLoc_inv hs d (portLoc_inBounds a)

theorem State.powerOn_inv {s : State} (hs : s.Inv) : s.powerOn.Inv := by
  obtain ⟨tree, tprob, dqf, cprob, qcoef, coef, anz, n, ⟨htree, htprob, hdqf, hcprob, hqcoef, hcoef, hanz⟩, heq⟩ :=
    s.powerOn_cases
  have hm : ({ s with
      tree := tree, tprob := tprob, dqf := dqf, cprob := cprob, qcoef := qcoef, coef := coef, anz := anz
      freeIx := n } : State).MemOk :=
    ⟨htree, htprob, hdqf, hcprob, hqcoef, hcoef, hanz, hs.mem.stream, hs.mem.pix⟩
  rw [heq]
  exact State.resetRegs_inv hm hs.params

/-- A command abandoned in the middle, then reset (70_reset R282). -/
theorem State.abandon_resetRegs_inv {s : State} {i : Instr} (hi : i.wf = true) (hs : s.Inv) :
    (s.abandon i).resetRegs.Inv := by
  obtain ⟨qcoef, coef, anz, pix, n, heq, rfl, rfl, rfl, rfl⟩ := s.abandon_cases i
  obtain ⟨hqcoef, hcoef, hanz, hpix⟩ := State.abandon_wf hi hs.mem
  have hm : ({ s with
      qcoef := (s.abandon i).qcoef, coef := (s.abandon i).coef, anz := (s.abandon i).anz, pix := (s.abandon i).pix
      freeIx := n } : State).MemOk := { hs.mem with qcoef := hqcoef, coef := hcoef, anz := hanz, pix := hpix }
  rw [heq]
  exact State.resetRegs_inv hm hs.params

theorem wf_of_decode {w : Word} {i : Instr} (h : decode w = .ok i) : i.wf = true := by
  unfold decode at h
  split at h
  · cases h
  · split at h
    · cases h
    · split at h
      · next hw => exact Except.ok.inj h ▸ hw
      · cases h

theorem State.resetDuring_inv {s : State} (w : Word) (hs : s.Inv) : (s.resetDuring w).Inv := by
  unfold State.resetDuring
  split
  · exact State.powerOn_inv hs
  · split
    · exact State.resetRegs_inv hs.mem hs.params
    · next hd => exact State.abandon_resetRegs_inv (wf_of_decode hd) hs

/-- The platform's accesses succeed inside the memory only (log 10). -/
theorem next_of_ite {p : Prop} [Decidable p] {s t : State} {r : Fault}
    (h : (if p then Host.Outcome.next s else .fault r : Host.Outcome State Fault Refusal) = .next t) : p ∧ s = t := by
  split at h
  · next hp => exact ⟨hp, Host.Outcome.next.inj h⟩
  · cases h

/-- One event keeps the invariant (44_system R241). -/
theorem handle_inv {e : HostEvent} {s t : State} (h : handle e s = .next t) (hs : s.Inv) : t.Inv := by
  cases e with
  | read a =>
    obtain rfl := Host.Outcome.next.inj h
    exact hs.withHost _ _
  | write a d => exact hostWrite_inv h hs
  | powerOn =>
    obtain rfl := Host.Outcome.next.inj h
    exact State.powerOn_inv hs
  | resetDuring w =>
    obtain rfl := Host.Outcome.next.inj h
    exact State.resetDuring_inv w hs
  | streamRead a =>
    obtain ⟨-, rfl⟩ := next_of_ite h
    exact hs.withHost _ _
  | streamWrite a v =>
    obtain ⟨ha, rfl⟩ := next_of_ite h
    exact ⟨{ hs.mem with stream := Memory.wf_write v hs.mem.stream ha }, hs.params, hs.fault, hs.ctxs⟩
  | pixRead a =>
    obtain ⟨-, rfl⟩ := next_of_ite h
    exact hs.withHost _ _
  | pixWrite a v =>
    obtain ⟨ha, rfl⟩ := next_of_ite h
    exact ⟨{ hs.mem with pix := Memory.wf_write v hs.mem.pix ha }, hs.params, hs.fault, hs.ctxs⟩

/-- Settles O13, by the invariant under each event: a step is one event or none. -/
theorem everyStepKeepsTheInvariant : Obligations.EveryStepKeepsTheInvariant := by
  intro s t hs h
  unfold step at h
  split at h
  · obtain rfl := Host.Outcome.next.inj h
    exact hs
  · next e rest _ => exact handle_inv h (hs.withHost rest s.rdata)

/-- Settles O12: the reset state is its own register reset, with empty memories. -/
theorem invariantHoldsAtReset : Obligations.InvariantHoldsAtReset :=
  State.resetRegs_inv (s := State.reset)
    ⟨Memory.wf_nil _, Memory.wf_nil _, Memory.wf_nil _, Memory.wf_nil _, Memory.wf_nil _, Memory.wf_nil _,
      Memory.wf_nil _, Memory.wf_nil _, Memory.wf_nil _⟩ (by decide)

end Sys2Proof.Machine
end

section
/-! PROOFS. The register port: stored locations, read-only locations, the packed words, and single events (O6, O8, O9, O11, O14 to O18). -/

namespace Sys2Proof.Machine

/-! ## Which locations the host may write -/

/-- The width of a location the host may write and whether a read of it is sign-extended (10_state R25, R40). -/
def PortLoc.format : PortLoc → Option (Nat × Bool)
  | .lfcfg => some (10, false)
  | .lflvl => some (6, false)
  | .lfx | .lfy => some (14, false)
  | .ybase | .ubase | .vbase => some (32, false)
  | .ystride | .uvstride => some (16, false)
  | .tdlnz => some (9, false)
  | .bdstart _ | .bdend _ => some (32, false)
  | .tree _ => some (8, true)
  | .tprob _ => some (8, false)
  | .dqf _ => some (16, false)
  | .cprob _ => some (8, false)
  | .qcoef _ => some (16, true)
  | .coef _ => some (32, true)
  | .anz _ => some (9, false)
  | .id | .ctrl | .status | .cmd | .result | .cmdcnt | .fcmd | .finfo | .bdpos _ | .bdstate _ | .unmapped => none

/-- The table of R25 and R40 agrees with the map at every mapped address. -/
theorem PortLoc.writable_addr {p : PortLoc} (hb : p.inBounds) (hp : p ≠ .unmapped) :
    Spec.writable p.addr = p.format := by
  cases p with
  | unmapped => exact absurd rfl hp
  | bdstart k | bdend k | bdpos k | bdstate k =>
    clear hb hp
    revert k
    decide
  | tree i | tprob i | dqf i | cprob i | qcoef i | coef i | anz i =>
    simp only [PortLoc.inBounds] at hb
    simp only [PortLoc.addr, PortLoc.format]
    simp (disch := omega) only [Spec.writable, if_pos, if_neg]
  | _ => rfl

/-- Between the ranges of the map nothing is writable (10_state R26). -/
theorem writable_of_unmapped {a : BitVec 13} (h : portLoc a = .unmapped) : Spec.writable a.toNat = none := by
  have ha : 18 ≤ a.toNat := by
    by_contra hlt
    have hp := portLoc_of_lt (a := a) (by omega)
    rw [h] at hp
    exact absurd (List.mem_of_getElem? hp) (by decide)
  rw [portLoc_of_le ha] at h
  generalize a.toNat = n at *
  simp only [indexedLoc, ite_eq_iff, reduceCtorEq, and_false, false_or, or_self, and_true] at h
  simp (disch := omega) only [Spec.writable, if_neg]

theorem writable_eq_format (a : BitVec 13) : Spec.writable a.toNat = (portLoc a).format := by
  by_cases h : portLoc a = .unmapped
  · rw [writable_of_unmapped h, h]
    rfl
  · rw [← portLoc_addr a h, PortLoc.writable_addr (portLoc_inBounds a) h]

/-- A writable location is mapped, and is neither CTRL nor CMD (10_state R25). -/
theorem portLoc_of_writable {a : BitVec 13} (h : (Spec.writable a.toNat).isSome = true) :
    portLoc a ≠ .unmapped ∧ a ≠ ctrlAddr ∧ a ≠ cmdAddr := by
  refine ⟨fun hu => ?_, ?_, ?_⟩
  · rw [writable_of_unmapped hu] at h
    cases h
  · rintro rfl
    exact absurd h (by decide)
  · rintro rfl
    exact absurd h (by decide)

/-- A write to a location without a format is ignored (10_state R26). -/
theorem State.storeLoc_of_format_none (s : State) (d : Word) {p : PortLoc} (h : p.format = none) :
    s.storeLoc d p = s := by
  cases p with
  | id | ctrl | status | cmd | result | cmdcnt | fcmd | finfo | bdpos k | bdstate k | unmapped => rfl
  | _ => cases h

/-! ## What a write stores -/

/-- The low bits of the data, read zero-extended (10_state R26). -/
theorem setWidth_eq_narrowed (w : Nat) (d : Word) :
    (d.setWidth w).setWidth 32 = Spec.narrowed w false d := by
  apply BitVec.eq_of_toNat_eq
  simp [Spec.narrowed]

/-- The low bits of the data, read sign-extended (10_state R26, R40). -/
theorem signExtend_eq_narrowed (w : Nat) (d : Word) : (d.setWidth w).signExtend 32 = Spec.narrowed w true d :=
  congrArg (BitVec.ofInt 32) (BitVec.toInt_setWidth d)

theorem eq_narrowed_word (signed : Bool) (d : Word) : d = Spec.narrowed 32 signed d := by
  cases signed with
  | false => simpa using setWidth_eq_narrowed 32 d
  | true => simpa using signExtend_eq_narrowed 32 d

/-- A stored location reads as the low bits of the data (10_state R26, R40). -/
theorem readLoc_storeLoc_same (s : State) (d : Word) {p : PortLoc} {w : Nat} {signed : Bool}
    (h : p.format = some (w, signed)) : (s.storeLoc d p).readLoc p = Spec.narrowed w signed d := by
  cases p with
  | id | ctrl | status | cmd | result | cmdcnt | fcmd | finfo | bdpos k | bdstate k | unmapped => cases h
  | lfcfg | lflvl | lfx | lfy | ystride | uvstride | tdlnz =>
    cases h
    exact setWidth_eq_narrowed _ d
  | ybase | ubase | vbase =>
    cases h
    exact eq_narrowed_word false d
  | bdstart k | bdend k =>
    cases h
    simp only [State.storeLoc, State.readLoc, State.ctx_setCtx_same]
    exact eq_narrowed_word false d
  | tree i | qcoef i =>
    cases h
    simp only [State.storeLoc, State.readLoc, Memory.read_write_same]
    exact signExtend_eq_narrowed _ d
  | coef i =>
    cases h
    simp only [State.storeLoc, State.readLoc, Memory.read_write_same]
    exact eq_narrowed_word true d
  | tprob i | dqf i | cprob i | anz i =>
    cases h
    simp only [State.storeLoc, State.readLoc, Memory.read_write_same]
    exact setWidth_eq_narrowed _ d

/-- A host write to a writable location is taken by the store (10_state R26). -/
theorem step_write_writable {s : State} {a : BitVec 13} {d : Word} {rest : List HostEvent}
    (h : s.inbox = .write a d :: rest) (hf : s.fault = false) (hw : (Spec.writable a.toNat).isSome = true) :
    step s = .next (({ s with inbox := rest } : State).storeLoc d (portLoc a)) := by
  obtain ⟨-, hctrl, hcmd⟩ := portLoc_of_writable hw
  exact step_write_loc h hf hctrl hcmd

/-- Settles O14: the location's format is the table's row, and its store is read back through that format. -/
theorem writableLocationsReadBack : Obligations.WritableLocationsReadBack := by
  intro s a d rest w signed h hf hw
  refine ⟨_, step_write_writable h hf (by rw [hw]; rfl), ?_⟩
  rw [writable_eq_format] at hw
  exact readLoc_storeLoc_same _ d hw

/-- A location lies at one address only (10_state R25, R40). -/
theorem portLoc_injective {a b : BitVec 13} (ha : portLoc a ≠ .unmapped) (h : portLoc b = portLoc a) : b = a :=
  BitVec.eq_of_toNat_eq (by rw [← portLoc_addr b (h ▸ ha), ← portLoc_addr a ha, h])

/-- Settles O15, by `readLoc_storeLoc_ne`: distinct addresses are distinct locations, and the excepted address is BDSTATE[k]. -/
theorem hostWriteLeavesOtherLocations : Obligations.HostWriteLeavesOtherLocations := by
  intro s t a b d rest h hf hw ht hba hex
  obtain ⟨hmap, -, -⟩ := portLoc_of_writable hw
  rw [step_write_writable h hf hw] at ht
  obtain rfl := Host.Outcome.next.inj ht
  rw [← hostRead_inbox s rest b]
  refine readLoc_storeLoc_ne _ d (fun hq => hba (portLoc_injective hmap hq)) fun k hp hq => hex ?_
  have ha := portLoc_addr a hmap
  have hb := portLoc_addr b (by rw [hq]; simp)
  have hk := k.isLt
  rw [hq] at hb
  rcases hp with hp | hp
  · rw [hp] at ha
    simp only [PortLoc.addr] at ha hb
    omega
  · rw [hp] at ha
    simp only [PortLoc.addr] at ha hb
    omega

/-- Settles O16: a location outside the table has no format, so the store, or the fault state, ignores the write. -/
theorem writesToReadOnlyLocationsAreIgnored : Obligations.WritesToReadOnlyLocationsAreIgnored := by
  intro s a d rest h hw hctrl hcmd
  rw [writable_eq_format] at hw
  rcases Bool.eq_false_or_eq_true s.fault with hf | hf
  · exact step_write_fault h hf hctrl
  · rw [step_write_loc h hf hctrl hcmd, State.storeLoc_of_format_none _ d hw]

/-! ## The location at an address -/

/-- The other direction of `portLoc_addr`: at the address of a location lies that location (10_state R25, R40). -/
theorem portLoc_eq {a : BitVec 13} {p : PortLoc} (hb : p.inBounds) (hp : p ≠ .unmapped) (h : a.toNat = p.addr) :
    portLoc a = p := by
  cases p with
  | unmapped => exact absurd rfl hp
  | bdstart k | bdend k | bdpos k | bdstate k =>
    unfold portLoc
    rw [h]
    clear h hb hp
    revert k
    decide
  | tree i | tprob i | dqf i | cprob i | qcoef i | coef i | anz i =>
    simp only [PortLoc.inBounds, PortLoc.addr] at hb h
    rw [portLoc_of_le (by omega), h, indexedLoc]
    simp (disch := omega) only [if_pos, if_neg, Nat.add_sub_cancel_left]
  | _ =>
    unfold portLoc
    rw [h]
    rfl

/-- What a host read at the address of a location returns. -/
theorem hostRead_eq (s : State) {a : BitVec 13} {p : PortLoc} (hb : p.inBounds) (hp : p ≠ .unmapped)
    (h : a.toNat = p.addr) : s.hostRead a = s.readLoc p := congrArg s.readLoc (portLoc_eq hb hp h)

/-- Settles O17: the two range registers of context k, and the store that clears INIT. -/
theorem rangeWritesClearInit : Obligations.RangeWritesClearInit := by
  intro s a d rest k h hf
  constructor
  · intro ha
    have hl : portLoc a = .bdstart k := portLoc_eq trivial (by simp) ha
    rw [step_write_writable h hf (by rw [writable_eq_format, hl]; rfl), hl]
    rfl
  · intro ha
    have hl : portLoc a = .bdend k := portLoc_eq trivial (by simp) ha
    rw [step_write_writable h hf (by rw [writable_eq_format, hl]; rfl), hl]
    rfl

/-! ## The packed words -/

/-- The fields of a word laid out as STATUS is (10_state R28). -/
theorem append_six_fields (a : BitVec 20) (b c : BitVec 4) (d : BitVec 1) (e : BitVec 2) (f : Bool) :
    (a ++ b ++ c ++ d ++ e ++ BitVec.ofBool f).getLsbD 0 = f ∧
      (a ++ b ++ c ++ d ++ e ++ BitVec.ofBool f).extractLsb' 1 2 = e ∧
      (a ++ b ++ c ++ d ++ e ++ BitVec.ofBool f).getLsbD 3 = d.getLsbD 0 ∧
      (a ++ b ++ c ++ d ++ e ++ BitVec.ofBool f).extractLsb' 4 4 = c ∧
      (a ++ b ++ c ++ d ++ e ++ BitVec.ofBool f).extractLsb' 8 4 = b ∧
      (a ++ b ++ c ++ d ++ e ++ BitVec.ofBool f).extractLsb' 12 20 = a := by
  simp (disch := decide) only [BitVec.extractLsb'_append_eq_of_le, BitVec.extractLsb'_append_eq_of_add_le,
    BitVec.getLsbD_append, Nat.reduceSub, BitVec.extractLsb'_eq_self, if_pos, if_neg]
  simp

/-- The fields of a word laid out as BDSTATE is (10_state R38). -/
theorem append_five_fields (a : Bool) (b : BitVec 4) (c : BitVec 3) (d : BitVec 8) (e : BitVec 16) :
    (BitVec.ofBool a ++ b ++ c ++ d ++ e).extractLsb' 0 16 = e ∧
      (BitVec.ofBool a ++ b ++ c ++ d ++ e).extractLsb' 16 8 = d ∧
      (BitVec.ofBool a ++ b ++ c ++ d ++ e).extractLsb' 24 3 = c ∧
      (BitVec.ofBool a ++ b ++ c ++ d ++ e).extractLsb' 27 4 = b ∧
      (BitVec.ofBool a ++ b ++ c ++ d ++ e).getLsbD 31 = a := by
  simp (disch := decide) only [BitVec.extractLsb'_append_eq_of_le, BitVec.extractLsb'_append_eq_of_add_le,
    BitVec.getLsbD_append, Nat.reduceSub, BitVec.extractLsb'_eq_self, if_neg]
  simp

theorem State.status_fields (s : State) :
    s.status.getLsbD 0 = s.fault ∧ s.status.extractLsb' 1 2 = s.fclass ∧ s.status.getLsbD 3 = false ∧
      s.status.extractLsb' 4 4 = s.fcode ∧ (s.status.extractLsb' 8 4).toNat = s.cur.val ∧
      s.status.extractLsb' 12 20 = 0#20 := by
  obtain ⟨hfault, hclass, hzero, hcode, hcur, hrest⟩ :=
    append_six_fields 0#20 (BitVec.ofNat 4 s.cur.val) s.fcode 0#1 s.fclass s.fault
  have hlt := s.cur.isLt
  refine ⟨hfault, hclass, hzero, hcode, (congrArg BitVec.toNat hcur).trans ?_, hrest⟩
  rw [BitVec.toNat_ofNat]
  omega

theorem Ctx.stateWord_fields (c : Ctx) :
    c.stateWord.extractLsb' 0 16 = c.value ∧ c.stateWord.extractLsb' 16 8 = c.range ∧
      c.stateWord.extractLsb' 24 3 = c.bitcnt ∧ c.stateWord.extractLsb' 27 4 = 0#4 ∧ c.stateWord.getLsbD 31 = c.init :=
  append_five_fields ..

/-- Settles O18: STATUS and BDSTATE by their fields; the others read as they stand, extended. -/
theorem statusAndBdstateShowTheirFields : Obligations.StatusAndBdstateShowTheirFields := by
  intro s k p q hp hq
  have hpos : s.hostRead p = (s.ctx k).pos := hostRead_eq s (p := .bdpos k) trivial (by simp) hp
  have hstate : s.hostRead q = (s.ctx k).stateWord := hostRead_eq s (p := .bdstate k) trivial (by simp) hq
  rw [hstate]
  refine ⟨s.status_fields, ⟨hpos, (s.ctx k).stateWord_fields⟩,
    ⟨rfl, rfl, rfl, rfl, BitVec.toNat_setWidth_of_le (by decide), BitVec.toNat_setWidth_of_le (by decide),
      BitVec.toNat_setWidth_of_le (by decide), BitVec.toNat_setWidth_of_le (by decide)⟩,
    fun i a => ⟨fun hi ha => ?_, fun hi ha => ?_, fun hi ha => ?_⟩⟩
  · rw [hostRead_eq s (p := .qcoef i) hi (by simp) ha]
    exact BitVec.toInt_signExtend_of_le (by decide)
  · rw [hostRead_eq s (p := .coef i) hi (by simp) ha]
    rfl
  · rw [hostRead_eq s (p := .anz i) hi (by simp) ha]
    exact BitVec.toNat_setWidth_of_le (by decide)

/-! ## Single events -/

/-- Settles O6, by the write to CMD. -/
theorem stepExecutesTheDecodedCommand : Obligations.StepExecutesTheDecodedCommand := by
  intro s w i rest h hf hd
  rw [step_write_cmd h hf, runCommand, hd]

/-- Settles O8, by the write in the fault state and the read in any. -/
theorem faultStateIgnoresEverythingButCtrl : Obligations.FaultStateIgnoresEverythingButCtrl := by
  intro s rest
  refine ⟨fun hf a d ha h => step_write_fault h hf ha, fun a h => ?_⟩
  rw [step_read h, hostRead_inbox]

/-- Settles O9, by the write to CTRL: the reset values of the registers are those of the spec's list. -/
theorem softResetClearsTheRegistersOnly : Obligations.SoftResetClearsTheRegistersOnly := by
  intro s d rest h
  constructor
  · intro hd
    rw [step_write_ctrl h, if_pos hd]
    rfl
  · intro hd
    rw [step_write_ctrl h, if_neg (by rw [hd]; decide)]

/-- After reset every location but ID reads 0 (10_state R51; log 2). -/
theorem readLoc_reset {p : PortLoc} (h : p ≠ .id) : State.reset.readLoc p = 0 := by
  cases p with
  | id => exact absurd rfl h
  | bdstart k | bdend k | bdpos k | bdstate k =>
    simp only [State.readLoc, State.ctx_reset]
    rfl
  | _ => rfl

/-- Settles O11: no address but 0 is that of ID. -/
theorem resetRegistersReadTheirResetValues : Obligations.ResetRegistersReadTheirResetValues := by
  refine ⟨rfl, fun a ha _ => readLoc_reset fun hid => ?_⟩
  have hz := portLoc_addr a (by rw [hid]; simp)
  rw [hid, PortLoc.addr] at hz
  omega

end Sys2Proof.Machine
end

section
/-! PROOFS. STREAM outside the range of the context a command works on has no influence on the command (O23; 20_memory R80). -/

namespace Sys2Proof.Machine

/-! ## The same command over another STREAM -/

/-- The state with another STREAM. -/
def State.withStream (s : State) (m : Memory 8) : State := { s with stream := m }

@[simp] theorem State.withStream_ctx (s : State) (m : Memory 8) (k : Fin 9) : (s.withStream m).ctx k = s.ctx k := rfl
@[simp] theorem State.withStream_curCtx (s : State) (m : Memory 8) : (s.withStream m).curCtx = s.curCtx := rfl
@[simp] theorem State.withStream_stream (s : State) (m : Memory 8) : (s.withStream m).stream = m := rfl
@[simp] theorem State.withStream_dqf (s : State) (m : Memory 8) : (s.withStream m).dqf = s.dqf := rfl
@[simp] theorem State.withStream_cprob (s : State) (m : Memory 8) : (s.withStream m).cprob = s.cprob := rfl
@[simp] theorem State.withStream_pix (s : State) (m : Memory 8) : (s.withStream m).pix = s.pix := rfl
@[simp] theorem State.withStream_segAtXY (s : State) (m : Memory 8) (plane : BitVec 2) (dir : Dir) (kind : Kind) :
    (s.withStream m).segAtXY plane dir kind = s.segAtXY plane dir kind := rfl
@[simp] theorem State.withStream_work (s : State) (m : Memory 8) (col : Nat) : (s.withStream m).work col = s.work col := rfl

/-- An outcome with its next state changed. -/
def mapNext (f : State → State) : Host.Outcome State Fault Refusal → Host.Outcome State Fault Refusal
  | .next t => .next (f t)
  | .fault r => .fault r
  | .refused r => .refused r

/-- A command over the stream `m` does what it does over the state's own, and leaves `m` there. -/
def State.SameOver (s : State) (m : Memory 8) (run : State → Host.Outcome State Fault Refusal) : Prop :=
  run (s.withStream m) = mapNext (·.withStream m) (run s)

/-- Two streams that agree on the range [START, END) of a context (20_memory R80). -/
def Ctx.AgreeInRange (c : Ctx) (m m' : Memory 8) : Prop :=
  ∀ a, c.startAddr.toNat ≤ a → a < c.endAddr.toNat → m.read a = m'.read a

/-- The cursor of an initialised context lies inside its range, so it fetches bytes of the range only (10_state R39). -/
theorem Ctx.AgreeInRange.agree {c : Ctx} {m m' : Memory 8} {size : Nat} (h : c.AgreeInRange m m') (hok : c.ok size)
    (hi : c.init = true) : c.Agree m m' := by
  obtain ⟨hstart, -⟩ := hok hi
  exact fun a hpos hend => h a (by omega) hend

theorem Ctx.agreeInRange_write {c : Ctx} {a : Nat} (h : a < c.startAddr.toNat ∨ c.endAddr.toNat ≤ a) (m : Memory 8)
    (v : Byte) : c.AgreeInRange m (m.write a v) :=
  fun b hstart hend => (Memory.read_write_ne m v (by omega)).symm

section
variable {s : State} {m : Memory 8}

/-- A check decides the same way in both runs. -/
theorem mapNext_ite {f : State → State} {p : Prop} [Decidable p] {a a' b b' : Host.Outcome State Fault Refusal}
    (ha : p → a' = mapNext f a) (hb : ¬p → b' = mapNext f b) :
    (if p then a' else b') = mapNext f (if p then a else b) := by
  split
  · next h => exact ha h
  · next h => exact hb h

theorem guardLegal_withStream {i : Instr} {body body' : Host.Outcome State Fault Refusal}
    (h : body' = mapNext (·.withStream m) body) :
    guardLegal i (s.withStream m) body' = mapNext (·.withStream m) (guardLegal i s body) :=
  mapNext_ite (fun _ => h) (fun _ => rfl)

/-! ## Commands that read through a context -/

/-- A read command depends on what its read answers from the current context (40_bd R134). -/
theorem bdRead_withStream {i : Instr} {read read' : Ctx → Except Trap (Word × Ctx)}
    (h : s.curCtx.init = true → read' s.curCtx = read s.curCtx) :
    bdRead i (s.withStream m) read' = mapNext (·.withStream m) (bdRead i s read) := by
  refine mapNext_ite (fun hi => ?_) (fun _ => rfl)
  rw [State.withStream_curCtx, h hi]
  cases read s.curCtx <;> rfl

theorem readBoolWord_congr (p : BitVec 8) {c : Ctx} {m m' : Memory 8} (h : c.Agree m m') :
    readBoolWord m p c = readBoolWord m' p c := by
  unfold readBoolWord
  rw [readBool_congr p h]

theorem readLitWord_congr (n : Nat) {c : Ctx} {m m' : Memory 8} (h : c.Agree m m') :
    readLitWord m n c = readLitWord m' n c := by
  unfold readLitWord
  rw [readBits_congr _ 0 h]

theorem execBdSeek_withStream {ctx : BitVec 4} (h : (s.ctx (Fin.ofNat 9 ctx.toNat)).AgreeInRange s.stream m) :
    s.SameOver m (execBdSeek ctx) := by
  refine guardLegal_withStream (mapNext_ite (fun hc => ?_) (fun _ => rfl))
  rw [State.withStream_ctx, State.withStream_stream, ← seek_congr (c := s.ctx _) (BitVec.le_def.mp hc.1) h]
  cases seek s.stream (s.ctx _) <;> rfl

/-- The free values of TD_MB's write set do not depend on STREAM (log 4). -/
theorem State.scrambleTdMb_withStream (col : Nat) :
    (s.withStream m).scrambleTdMb col = (s.scrambleTdMb col).withStream m := by
  dsimp only [State.scrambleTdMb, State.withStream, State.setCtx, State.curCtx, State.ctx]

section
variable (h : s.curCtx.init = true → s.curCtx.Agree s.stream m)
include h

theorem execBdBool_withStream (p : BitVec 8) : s.SameOver m (execBdBool p) :=
  bdRead_withStream fun hi => (readBoolWord_congr p (h hi)).symm

theorem execBdBit_withStream : s.SameOver m execBdBit :=
  bdRead_withStream fun hi => (readBoolWord_congr _ (h hi)).symm

theorem execBdLit_withStream (n : BitVec 5) : s.SameOver m (execBdLit n) :=
  bdRead_withStream fun hi => (readLitWord_congr _ (h hi)).symm

theorem execBdTree_withStream (start : BitVec 6) : s.SameOver m (execBdTree start) :=
  mapNext_ite (fun _ => rfl) fun _ => bdRead_withStream fun hi => (treeWalk_congr _ _ _ _ (h hi)).symm

theorem execTdBlk_withStream (blk : BitVec 5) (type : BitVec 2) (col : BitVec 10) :
    s.SameOver m (execTdBlk blk type col) := by
  refine guardLegal_withStream (mapNext_ite (fun hi => ?_) (fun _ => rfl))
  rw [State.withStream_stream, State.withStream_cprob, State.withStream_work,
    ← tdBlk_congr (a := s.work col.toNat) _ _ _ (h hi)]
  cases tdBlk rom s.stream s.cprob _ _ (s.work _) <;> rfl

theorem execTdMb_withStream (seg : BitVec 2) (col : BitVec 10) (hasy2 skip : Bool) :
    s.SameOver m (execTdMb seg col hasy2 skip) := by
  cases skip with
  | true => rfl
  | false =>
    refine mapNext_ite (fun hi => ?_) (fun _ => rfl)
    have ha : (if hasy2 then s.work col.toNat else clearY2 (s.work col.toNat)).ctx = s.curCtx := by
      cases hasy2 <;> rfl
    rw [State.scrambleTdMb_withStream, State.withStream_stream, State.withStream_cprob, State.withStream_dqf,
      State.withStream_work, ← tdBlocks_congr _ _ _ _ _ (ha ▸ h hi)]
    cases tdBlocks rom s.stream s.cprob s.dqf _ _ _ (if hasy2 then s.work _ else clearY2 (s.work _)) <;> rfl

end

/-! ## Commands of the loop filter -/

theorem State.SameFilter.segsMayWrite {s t : State} (h : s.SameFilter t) (ops : List SegOp) :
    t.segsMayWrite ops = s.segsMayWrite ops := by
  unfold State.segsMayWrite State.segMayWrite
  simp only [h.pxAddr]

theorem State.sameFilter_withStream (s : State) (m : Memory 8) : s.SameFilter (s.withStream m) :=
  ⟨rfl, rfl, rfl, rfl, rfl, rfl, rfl, rfl⟩

theorem State.scramblePix_withStream (ops : List SegOp) :
    (s.withStream m).scramblePix ops = (s.scramblePix ops).withStream m := by
  unfold State.scramblePix
  rw [(s.sameFilter_withStream m).segsMayWrite]
  rfl

theorem runSegs_withStream (i : Instr) (ops : List SegOp) : s.SameOver m (runSegs i · ops) := by
  simp only [State.SameOver, runSegs, (s.sameFilter_withStream m).segs, State.scramblePix_withStream, State.withStream_pix]
  cases s.segs ops s.pix <;> rfl

theorem execLfSeg_withStream (plane : BitVec 2) (dir : Dir) (kind : Kind) :
    s.SameOver m (execLfSeg plane dir kind) := by
  refine guardLegal_withStream ?_
  rw [(s.sameFilter_withStream m).seg, State.withStream_segAtXY, State.withStream_pix]
  cases s.seg (s.segAtXY plane dir kind) s.pix <;> rfl

theorem execLfMb_withStream (mbx mby : BitVec 10) (noinner : Bool) : s.SameOver m (execLfMb mbx mby noinner) :=
  mapNext_ite (fun _ => rfl) (fun _ => runSegs_withStream _ _)

/-! ## Every command -/

/-- A command does the same over two streams that agree on the range of the context it works on (20_memory R80). -/
theorem exec_withStream {i : Instr} (hok : ∀ k, (s.ctx k).ok s.params.streamSize)
    (h : ∀ k, Spec.touched i s = some k → (s.ctx k).AgreeInRange s.stream m) : s.SameOver m (exec i) := by
  have hcur (ht : Spec.touched i s = some s.cur) (hi : s.curCtx.init = true) : s.curCtx.Agree s.stream m :=
    (h _ ht).agree (hok s.cur) hi
  cases i with
  | bdSeek ctx => exact execBdSeek_withStream (h _ rfl)
  | bdBit => exact execBdBit_withStream (hcur rfl)
  | bdBool p => exact execBdBool_withStream (hcur rfl) p
  | bdLit n => exact execBdLit_withStream (hcur rfl) n
  | bdTree start => exact execBdTree_withStream (hcur rfl) start
  | tdBlk blk type col => exact execTdBlk_withStream (hcur rfl) blk type col
  | tdMb seg col hasy2 skip => exact execTdMb_withStream (hcur rfl) seg col hasy2 skip
  | bdSel ctx | dqBlk blk type seg => exact guardLegal_withStream rfl
  | lfSeg plane dir kind => exact execLfSeg_withStream plane dir kind
  | lfEdge plane dir kind lenm1 => exact guardLegal_withStream (runSegs_withStream _ _)
  | lfMb mbx mby noinner => exact execLfMb_withStream mbx mby noinner
  | nop | tdRst | tdNewrow | lfSetlvl lvl | lfAdjlvl delta | lfSetx coord | lfSety coord => rfl

end

/-- No command writes STREAM (10_state R48). -/
theorem exec_stream {i : Instr} {s t : State} (h : exec i s = .next t) : t.stream = s.stream := by
  obtain ⟨u, hw, rfl⟩ | ⟨u, e, hw, -, rfl⟩ := exec_ends h <;>
    obtain ⟨-, -, -, -, -, -, -, -, -, -, hstream, -⟩ := hw.host_written <;> exact hstream

/-- Settles O23: the written byte lies outside the range, so the two streams agree on it. -/
theorem streamOutsideTheRangeIsNotRead : Obligations.StreamOutsideTheRangeIsNotRead := by
  intro i s t a v hinv hf hrange ht
  have hsame : s.SameOver (s.stream.write a v) (exec i) :=
    exec_withStream (hinv.ctxs hf) fun k hk => Ctx.agreeInRange_write (hrange k hk) s.stream v
  rw [exec_stream ht]
  exact hsame.trans (congrArg (mapNext _) ht)

end Sys2Proof.Machine
end

section
/-! PROOFS. Where the pixels of a Seg lie in the spec's terms, and which Segs fault: the bytes a Seg may write (O52), the first Seg that fails (O50), a macroblock inside PIX (O58). -/

namespace Sys2Proof.Machine

/-! ## Addresses in the spec's terms (20_memory R81) -/

theorem pixelAddr_eq (s : State) (pl : Nat) {x y : Int} (hx : 0 ≤ x) (hy : 0 ≤ y) :
    Spec.pixelAddr s pl x y = ((s.planeBase pl + y.toNat * s.planeStride pl + x.toNat : Nat) : Int) := by
  rcases pl with _ | _ | pl <;>
    simp [Spec.pixelAddr, State.planeBase, State.planeStride, Int.toNat_of_nonneg hx, Int.toNat_of_nonneg hy]

section
variable {s : State} {pl : Nat} {dir : Dir} {x y : Int} {p : Px}

theorem pixAddr_of_pixelAddr_lt (hx : 0 ≤ x) (hy : 0 ≤ y) (h : Spec.pixelAddr s pl x y < s.params.pixSize) :
    ∃ a, s.pixAddr pl x y = .ok a := by
  rw [pixelAddr_eq s pl hx hy] at h
  exact ⟨_, pixAddr_of_lt hx hy (Int.ofNat_lt.mp h)⟩

theorem pixAddr_of_le_pixelAddr (hx : 0 ≤ x) (hy : 0 ≤ y) (h : s.params.pixSize ≤ Spec.pixelAddr s pl x y) :
    s.pixAddr pl x y = .error ⟨.pixRange, BitVec.ofInt 32 (Spec.pixelAddr s pl x y)⟩ := by
  rw [pixelAddr_eq s pl hx hy] at h ⊢
  rw [BitVec.ofInt_natCast]
  exact pixAddr_of_le hx hy (Int.ofNat_le.mp h)

/-- A pixel at or before one that exists, in its row and column, exists. -/
theorem pixAddr_of_le_last {X Y : Int} (hx : 0 ≤ x) (hy : 0 ≤ y) (hX : x ≤ X) (hY : y ≤ Y)
    (h : Spec.pixelAddr s pl X Y < s.params.pixSize) : ∃ a, s.pixAddr pl x y = .ok a := by
  refine pixAddr_of_pixelAddr_lt hx hy (lt_of_le_of_lt ?_ h)
  rw [pixelAddr_eq s pl hx hy, pixelAddr_eq s pl (hx.trans hX) (hy.trans hY)]
  have hrow : y.toNat * s.planeStride pl ≤ Y.toNat * s.planeStride pl := Nat.mul_le_mul_right _ (by omega)
  omega

/-! ## The pixels of a segment -/

/-- A pixel left of or above the picture (43_lf R206). -/
theorem pxAddr_of_neg (hp : Spec.across dir x y + p.offset < 0) :
    s.pxAddr pl dir x y p = .error ⟨.pixRange, 0xFFFFFFFF⟩ := by
  cases dir with
  | v => exact pixAddr_of_neg (.inl hp)
  | h => exact pixAddr_of_neg (.inr hp)

theorem pxAddr_of_placeAddr_lt (hx : 0 ≤ x) (hy : 0 ≤ y) (hp : 0 ≤ Spec.across dir x y + p.offset)
    (h : Spec.placeAddr s pl dir x y p.offset < s.params.pixSize) : ∃ a, s.pxAddr pl dir x y p = .ok a := by
  cases dir with
  | v => exact pixAddr_of_pixelAddr_lt hp hy h
  | h => exact pixAddr_of_pixelAddr_lt hx hp h

theorem pxAddr_of_le_placeAddr (hx : 0 ≤ x) (hy : 0 ≤ y) (hp : 0 ≤ Spec.across dir x y + p.offset)
    (h : s.params.pixSize ≤ Spec.placeAddr s pl dir x y p.offset) :
    s.pxAddr pl dir x y p = .error ⟨.pixRange, BitVec.ofInt 32 (Spec.placeAddr s pl dir x y p.offset)⟩ := by
  cases dir with
  | v => exact pixAddr_of_le_pixelAddr hp hy h
  | h => exact pixAddr_of_le_pixelAddr hx hp h

/-- A checked pixel address is the address of its place. -/
theorem placeAddr_of_pxAddr_ok {a : Nat} (h : s.pxAddr pl dir x y p = .ok a) :
    0 ≤ Spec.across dir x y + p.offset ∧ (a : Int) = Spec.placeAddr s pl dir x y p.offset ∧ a < s.params.pixSize := by
  cases dir with
  | v =>
    obtain ⟨hx, hy, rfl, hlt⟩ := pixAddr_ok h
    exact ⟨hx, (pixelAddr_eq s pl hx hy).symm, hlt⟩
  | h =>
    obtain ⟨hx, hy, rfl, hlt⟩ := pixAddr_ok h
    exact ⟨hy, (pixelAddr_eq s pl hx hy).symm, hlt⟩

theorem pxAddr_eq_pxPlace {op : SegOp} (h : ∃ a, s.pxAddr op.pl op.dir op.x op.y p = .ok a) :
    s.pxAddr op.pl op.dir op.x op.y p = .ok (s.pxPlace op p) := by
  obtain ⟨a, ha⟩ := h
  simp only [State.pxPlace, ha]

end

/-! ## The places a kind reads and may write (43_lf R205, R206, R217 b) -/

theorem offset_of_mem_kindPixels : ∀ kind, ∀ p ∈ kindPixels kind,
    -Spec.reach kind ≤ p.offset ∧ p.offset < Spec.reach kind := by
  intro kind; cases kind <;> decide

theorem offset_of_mem_kindMayWrite : ∀ kind, ∀ p ∈ kindMayWrite kind,
    -Spec.writeReach kind ≤ p.offset ∧ p.offset < Spec.writeReach kind := by
  intro kind; cases kind <;> decide

/-- Every kind lists its pixels from the P side to the Q side. -/
theorem kindPixels_sorted : ∀ kind, (kindPixels kind).Pairwise fun p q => p.offset < q.offset := by
  intro kind; cases kind <;> decide

theorem exists_px_at : ∀ kind, ∀ k ∈ Finset.Ico (-Spec.reach kind) (Spec.reach kind),
    ∃ p ∈ kindPixels kind, p.offset = k := by
  intro kind; cases kind <;> decide

/-- The pixels of a kind, cut at the one at place `k`: those before it lie at the places below `k`. -/
theorem kindPixels_split {kind : Kind} {k : Int} (hlo : -Spec.reach kind ≤ k) (hhi : k < Spec.reach kind) :
    ∃ before p after, kindPixels kind = before ++ p :: after ∧ p.offset = k ∧
      ∀ q ∈ before, -Spec.reach kind ≤ q.offset ∧ q.offset < k := by
  obtain ⟨p, hp, rfl⟩ := exists_px_at kind k (Finset.mem_Ico.mpr ⟨hlo, hhi⟩)
  obtain ⟨before, after, hsplit⟩ := List.append_of_mem hp
  have hsorted := kindPixels_sorted kind
  rw [hsplit] at hsorted
  refine ⟨before, p, after, hsplit, rfl, fun q hq => ⟨?_, ?_⟩⟩
  · exact (offset_of_mem_kindPixels kind q (by simp [hsplit, hq])).1
  · exact (List.pairwise_append.mp hsorted).2.2 q hq p List.mem_cons_self

/-- Settles O52: a byte of the write set is the checked address of a pixel the kind may write. -/
theorem segMayWriteOnlyNearTheEdge : Obligations.SegMayWriteOnlyNearTheEdge := by
  intro s op a _ ha
  obtain ⟨p, hp, hpa⟩ := List.mem_filterMap.mp ha
  have hok : s.pxAddr op.pl op.dir op.x op.y p = .ok a := by
    cases h : s.pxAddr op.pl op.dir op.x op.y p with
    | error t => rw [h] at hpa; cases hpa
    | ok b => rw [h] at hpa; exact congrArg Except.ok (Option.some.inj hpa)
  obtain ⟨hlo, hhi⟩ := offset_of_mem_kindMayWrite op.kind p hp
  obtain ⟨hnonneg, haddr, hlt⟩ := placeAddr_of_pxAddr_ok hok
  exact ⟨p.offset, hlo, hhi, hnonneg, haddr, hlt⟩

/-! ## The spec's Segs as the model's -/

/-- The model's form of a Seg of the spec. -/
def segOp (g : Spec.SegAt) : SegOp := { pl := g.pl, dir := g.dir, kind := g.kind, x := g.x, y := g.y }

theorem edgeOps_eq (pl : Nat) (dir : Dir) (kind : Kind) (x y len : Nat) :
    edgeOps pl dir kind x y len = (Spec.edgeSegs pl dir kind x y len).map segOp := by
  unfold edgeOps Spec.edgeSegs
  rw [List.map_map]
  refine List.map_congr_left fun k _ => ?_
  cases dir <;> simp [segOp]

theorem planeOps_eq {size : Nat} (hs : size = 16 ∨ size = 8) (pl : Nat) (km ks : Kind) (mbx mby : Nat) (noinner : Bool) :
    planeOps pl size km ks mbx mby noinner = (Spec.planeSegs pl size km ks mbx mby noinner).map segOp := by
  have hinner : innerOffsets size = if size = 16 then [4, 8, 12] else [4] := by
    rcases hs with rfl | rfl <;> rfl
  simp only [planeOps, Spec.planeSegs, Spec.planeEdges, hinner, ← Nat.cast_mul, ← Nat.cast_add, edgeOps_eq,
    Nat.pos_iff_ne_zero, ite_not, List.flatMap_append, List.map_append, List.flatMap_map, List.map_flatMap]
  split_ifs <;> simp

theorem macroblockOps_eq (simple : Bool) (mbx mby : Nat) (noinner : Bool) :
    macroblockOps simple mbx mby noinner = (Spec.macroblockSegs simple mbx mby noinner).map segOp := by
  cases simple <;> simp [macroblockOps, Spec.macroblockSegs, planeOps_eq]

section
variable {s : State} {g : Spec.SegAt}

theorem pxAddr_of_inRange (h : g.inRange s) :
    ∀ p ∈ kindPixels g.kind, ∃ a, s.pxAddr g.pl g.dir g.x g.y p = .ok a := by
  intro p hp
  obtain ⟨hreach, hlt⟩ := h
  obtain ⟨hlo, hhi⟩ := offset_of_mem_kindPixels g.kind p hp
  exact pxAddr_of_placeAddr_lt (by omega) (by omega) (by omega) (hlt _ hlo hhi)

/-- The checks stop at a pixel that does not exist when the pixels of the kind at lower places do. -/
theorem checkPixels_of_place {op : SegOp} {k : Int} {t : Trap} (hlo : -Spec.reach op.kind ≤ k)
    (hhi : k < Spec.reach op.kind)
    (hbefore : ∀ q : Px, -Spec.reach op.kind ≤ q.offset → q.offset < k →
      ∃ a, s.pxAddr op.pl op.dir op.x op.y q = .ok a)
    (hk : ∀ p : Px, p.offset = k → s.pxAddr op.pl op.dir op.x op.y p = .error t) :
    s.checkPixels op (kindPixels op.kind) = .error t := by
  obtain ⟨before, p, after, hsplit, hp, hb⟩ := kindPixels_split hlo hhi
  rw [hsplit]
  exact checkPixels_of_first before p after (fun q hq => hbefore q (hb q hq).1 (hb q hq).2) (hk p hp)

/-- A Seg that fails raises PIX_RANGE with the FINFO of its first failing pixel (43_lf R206). -/
theorem seg_of_segFails {op : SegOp} {info : Word} (hx : 0 ≤ op.x) (hy : 0 ≤ op.y)
    (h : Spec.segFails s op.pl op.dir op.kind op.x op.y info) (pix : Memory 8) :
    s.seg op pix = .error ⟨.pixRange, info⟩ := by
  have hcheck : s.checkPixels op (kindPixels op.kind) = .error ⟨.pixRange, info⟩ := by
    rcases h with ⟨hneg, rfl⟩ | ⟨hreach, k, hlo, hhi, hbefore, hk, rfl⟩
    · have hpos : -Spec.reach op.kind < Spec.reach op.kind := by cases op.kind <;> decide
      exact checkPixels_of_place le_rfl hpos (fun q _ _ => by omega) fun p hp => pxAddr_of_neg (by omega)
    · refine checkPixels_of_place hlo hhi (fun q hqlo hqlt => ?_) ?_
      · exact pxAddr_of_placeAddr_lt hx hy (by omega) (hbefore _ hqlo hqlt)
      · rintro p rfl
        exact pxAddr_of_le_placeAddr hx hy (by omega) hk
  unfold State.seg
  rw [hcheck]

/-- The first Seg that fails decides the fault of a sequence (43_lf R214, R215). -/
theorem segs_of_fails {before : List Spec.SegAt} (after : List Spec.SegAt) {info : Word}
    (hb : ∀ b ∈ before, b.inRange s) (h : g.fails s info) (pix : Memory 8) :
    s.segs ((before ++ g :: after).map segOp) pix = .error ⟨.pixRange, info⟩ := by
  obtain ⟨pix', hpix'⟩ := segs_succeeds (s := s) (before.map segOp) pix fun op hop p hp => by
    obtain ⟨b, hbm, rfl⟩ := List.mem_map.mp hop
    exact pxAddr_eq_pxPlace (pxAddr_of_inRange (hb b hbm) p hp)
  rw [List.map_append, List.map_cons]
  exact segs_of_first _ hpix' (seg_of_segFails (op := segOp g) (Int.natCast_nonneg _) (Int.natCast_nonneg _) h pix')

end

/-! ## The 2D commands -/

theorem runSegs_error {i : Instr} {s : State} {ops : List SegOp} {t : Trap} (h : s.segs ops s.pix = .error t) :
    runSegs i s ops = .next ((s.scramblePix ops).raise (encode i) t) := by
  simp only [runSegs, h, faulted]

theorem runSegs_ok {i : Instr} {s : State} {ops : List SegOp} {pix : Memory 8} (h : s.segs ops s.pix = .ok pix) :
    runSegs i s ops = .next ({ s with pix := pix } : State).complete := by
  simp only [runSegs, h, completed]

/-- A 2D operation faults with the FINFO of its first Seg that fails, and changes PIX only (60_exceptions R257). -/
theorem runSegs_of_fails {i : Instr} {s : State} {ops : List SegOp} {before after : List Spec.SegAt} {g : Spec.SegAt}
    {info : Word} (hops : ops = (before ++ g :: after).map segOp) (hb : ∀ b ∈ before, b.inRange s) (h : g.fails s info) :
    ∃ pix n, runSegs i s ops = .next (Spec.faultFields { s with pix := pix, freeIx := n } 7 3 (encode i) info) :=
  ⟨_, _, runSegs_error (hops ▸ segs_of_fails after hb h s.pix)⟩

theorem planeLegal_iff {plane : BitVec 2} : planeLegal plane = true ↔ plane.toNat ≤ 2 := by simp [planeLegal]

theorem State.baselvl_eq_zero_iff (s : State) : s.baselvl = 0 ↔ s.lfcfg.toNat / 16 = 0 := by
  have hlt := s.lfcfg.isLt
  rw [State.baselvl, BitVec.toNat_eq, BitVec.extractLsb'_toNat, Nat.shiftRight_eq_div_pow]
  show s.lfcfg.toNat / 16 % 64 = 0 ↔ _
  omega

/-- Settles O50: the checks stop at the first failing pixel of a Seg, the Segs at the first failing one of the command. -/
theorem lfSegFaultsOutsidePix : Obligations.LfSegFaultsOutsidePix := by
  intro s info
  refine ⟨fun plane dir kind hpl h => ?_, fun plane dir kind lenm1 before after g hpl hsegs hb h => ?_,
    fun mbx mby noinner before after g hbase hlvl hsegs hb h => ?_⟩
  · have hseg : s.seg (s.segAtXY plane dir kind) s.pix = .error ⟨.pixRange, info⟩ :=
      seg_of_segFails (Int.natCast_nonneg _) (Int.natCast_nonneg _) h s.pix
    exact (guardLegal_of_wf (i := .lfSeg plane dir kind) (planeLegal_iff.mpr hpl)).trans (by rw [hseg]; rfl)
  · obtain ⟨pix, n, hrun⟩ := runSegs_of_fails ((edgeOps_eq ..).trans (congrArg _ hsegs)) hb h
    exact ⟨pix, n, (guardLegal_of_wf (i := .lfEdge plane dir kind lenm1) (planeLegal_iff.mpr hpl)).trans hrun⟩
  · obtain ⟨pix, n, hrun⟩ := runSegs_of_fails ((macroblockOps_eq ..).trans (congrArg _ hsegs)) hb h
    have hgate : ¬(s.baselvl = 0 ∨ s.lflvl = 0) := by
      rw [s.baselvl_eq_zero_iff]
      exact not_or.mpr ⟨hbase, hlvl⟩
    exact ⟨pix, n, (if_neg hgate).trans hrun⟩

/-! ## A macroblock inside PIX -/

/-- Where the last pixel of a plane's macroblock exists, every pixel of its Segs does (43_lf R215). -/
theorem planeOps_pxAddr {s : State} {pl size : Nat} {km ks : Kind} {mbx mby : Nat} {noinner : Bool} {X Y : Int}
    (hs : 8 ≤ size) (hX : ((size * mbx : Nat) : Int) + size - 1 ≤ X) (hY : ((size * mby : Nat) : Int) + size - 1 ≤ Y)
    (hlast : Spec.pixelAddr s pl X Y < s.params.pixSize) :
    ∀ op ∈ planeOps pl size km ks mbx mby noinner, ∀ p, ∃ a, s.pxAddr op.pl op.dir op.x op.y p = .ok a := by
  intro op hop p
  obtain ⟨rfl, -, hx0, hx1, hy0, hy1, hv, hh⟩ := planeOps_mem hs hop
  have hp : -4 ≤ p.offset ∧ p.offset ≤ 3 := by cases p <;> decide
  cases hdir : op.dir with
  | v =>
    have hx := hv hdir
    exact pixAddr_of_le_last (by omega) (by omega) (by omega) (by omega) hlast
  | h =>
    have hy := hh hdir
    exact pixAddr_of_le_last (by omega) (by omega) (by omega) (by omega) hlast

theorem macroblockOps_pxAddr {s : State} {mbx mby : Nat} {noinner : Bool}
    (hluma : Spec.pixelAddr s 0 (16 * mbx + 15) (16 * mby + 15) < s.params.pixSize)
    (hchroma : s.simple = false → Spec.pixelAddr s 1 (8 * mbx + 7) (8 * mby + 7) < s.params.pixSize ∧
      Spec.pixelAddr s 2 (8 * mbx + 7) (8 * mby + 7) < s.params.pixSize) :
    ∀ op ∈ macroblockOps s.simple mbx mby noinner, ∀ p, ∃ a, s.pxAddr op.pl op.dir op.x op.y p = .ok a := by
  have hplane0 {km ks : Kind} := planeOps_pxAddr (s := s) (km := km) (ks := ks) (mbx := mbx) (mby := mby)
    (noinner := noinner) (size := 16) (by decide) (by push_cast; omega) (by push_cast; omega) hluma
  intro op hop
  cases hsimple : s.simple with
  | true =>
    rw [hsimple] at hop
    exact hplane0 op hop
  | false =>
    obtain ⟨hu, hv⟩ := hchroma hsimple
    simp only [hsimple, macroblockOps, Bool.false_eq_true, if_false, List.mem_append] at hop
    rcases hop with (hop | hop) | hop
    · exact hplane0 op hop
    · exact planeOps_pxAddr (by decide) (by push_cast; omega) (by push_cast; omega) hu op hop
    · exact planeOps_pxAddr (by decide) (by push_cast; omega) (by push_cast; omega) hv op hop

/-- LF_MB completes when every pixel of its Segs exists; gated, it completes without any (43_lf R215, R216). -/
theorem execLfMb_of_pxAddr {s : State} {mbx mby : BitVec 10} {noinner : Bool}
    (h : ∀ op ∈ macroblockOps s.simple mbx.toNat mby.toNat noinner, ∀ p ∈ kindPixels op.kind,
      ∃ a, s.pxAddr op.pl op.dir op.x op.y p = .ok a) :
    ∃ pix, execLfMb mbx mby noinner s = .next { s with pix := pix, cmdcnt := s.cmdcnt + 1 } := by
  unfold execLfMb
  split
  · exact ⟨s.pix, rfl⟩
  · obtain ⟨pix, hpix⟩ := segs_succeeds (s := s) _ s.pix fun op hop p hp => pxAddr_eq_pxPlace (h op hop p hp)
    exact ⟨pix, runSegs_ok hpix⟩

/-- Settles O58: either hypothesis gives every pixel the command reads. -/
theorem lfMbCompletes : Obligations.LfMbCompletes := by
  intro s mbx mby noinner h
  refine execLfMb_of_pxAddr ?_
  rcases h with hsegs | ⟨hluma, hchroma⟩
  · rw [macroblockOps_eq]
    intro op hop
    obtain ⟨g, hg, rfl⟩ := List.mem_map.mp hop
    exact pxAddr_of_inRange (hsegs g hg)
  · exact fun op hop p _ => macroblockOps_pxAddr hluma hchroma op hop p

end Sys2Proof.Machine
end

section
/-! PROOFS. Encoding and decoding: what the decoder answers by opcode, reserved bits and operand range (O1, O2, O4, O5), the table's match and mask (O3), and the step of a word that does not decode (O7). -/

namespace Sys2Proof

/-! ## What the decoder answers -/

/-- On a word whose opcode is `o` the decoder tests the reserved bits, then the operand range (30_encoding R104). -/
theorem decode_of_opcode {w : Word} {o : Opcode} (h : w.extractLsb' 24 8 = o.code) :
    decode w =
      if w &&& o.reserved ≠ 0#32 then .error .reservedBit
      else if (o.fields w).wf then .ok (o.fields w)
      else .error .operandRange := by
  unfold decode
  rw [h, Opcode.ofByte_code]

theorem decode_eq_reservedBit {w : Word} {o : Opcode} (h : w.extractLsb' 24 8 = o.code) (hr : w &&& o.reserved ≠ 0#32) :
    decode w = .error .reservedBit := by
  rw [decode_of_opcode h, if_pos hr]

theorem decode_eq_operandRange {w : Word} {o : Opcode} (h : w.extractLsb' 24 8 = o.code)
    (hr : w &&& o.reserved = 0#32) (hwf : (o.fields w).wf = false) : decode w = .error .operandRange := by
  rw [decode_of_opcode h, if_neg (not_not_intro hr), hwf, if_neg Bool.false_ne_true]

theorem decode_eq_fields {w : Word} {o : Opcode} (h : w.extractLsb' 24 8 = o.code) (hr : w &&& o.reserved = 0#32)
    (hwf : (o.fields w).wf = true) : decode w = .ok (o.fields w) := by
  rw [decode_of_opcode h, if_neg (not_not_intro hr), if_pos hwf]

theorem Opcode.ofByte_eq_none {b : BitVec 8} (h : ∀ o : Opcode, o.code ≠ b) : Opcode.ofByte b = none :=
  List.find?_eq_none.mpr fun o _ ho => h o (beq_iff_eq.mp ho)

/-- A word without an opcode of the table is ILLEGAL_CMD with its opcode byte (30_encoding R104). -/
theorem decode_eq_illegalCmd {w : Word} (h : Opcode.ofByte (w.extractLsb' 24 8) = none) :
    decode w = .error (.illegalCmd (w.extractLsb' 24 8)) := by
  unfold decode
  rw [h]

/-- A word that decodes has an opcode of the table and no reserved bit, and gives its fields (30_encoding R104). -/
theorem fields_of_decode {w : Word} {i : Instr} (h : decode w = .ok i) :
    ∃ o : Opcode, w.extractLsb' 24 8 = o.code ∧ w &&& o.reserved = 0#32 ∧ o.fields w = i := by
  cases ho : Opcode.ofByte (w.extractLsb' 24 8) with
  | none =>
    rw [decode_eq_illegalCmd ho] at h
    cases h
  | some o =>
    have hop := (Opcode.code_of_ofByte ho).symm
    rw [decode_of_opcode hop] at h
    split_ifs at h with hres hwf
    exact ⟨o, hop, not_not.mp hres, Except.ok.inj h⟩

/-- Settles O1: an encoding has its command's opcode, no reserved bit and its command's fields. -/
theorem decodeOfEncodeReturnsTheCommand : Obligations.DecodeOfEncodeReturnsTheCommand := by
  intro i hwf
  have hfields := encode_fields i
  calc decode (encode i)
      = .ok (i.opcode.fields (encode i)) := decode_eq_fields (encode_opcode i) (encode_reserved i) (by rw [hfields, hwf])
    _ = .ok i := by rw [hfields]

/-- Settles O2: a word that decodes has an opcode of the table and no reserved bit, so its fields encode to it. -/
theorem encodeOfDecodeReturnsTheWord : Obligations.EncodeOfDecodeReturnsTheWord := by
  intro w i h
  obtain ⟨o, hop, hres, rfl⟩ := fields_of_decode h
  exact ⟨encode_fields_of_word w o hop hres, Machine.wf_of_decode h⟩

/-! ## The table's `match` and `mask` -/

/-- The mask of bits 31:24 leaves the opcode (30_encoding R100). -/
theorem and_opcodeMask (w : Word) : w &&& 0xFF000000#32 = w.extractLsb' 24 8 ++ 0#24 :=
  have hw : w = w.extractLsb' 24 8 ++ w.extractLsb' 0 24 := by
    rw [BitVec.extractLsb'_append_extractLsb'_eq_extractLsb' (start₁ := 0) (len₁ := 24) rfl, BitVec.extractLsb'_eq_self]
  calc w &&& 0xFF000000#32
      = (w.extractLsb' 24 8 ++ w.extractLsb' 0 24) &&& (BitVec.allOnes 8 ++ 0#24) := congrArg (· &&& 0xFF000000#32) hw
    _ = w.extractLsb' 24 8 ++ 0#24 := by rw [BitVec.and_append, BitVec.and_allOnes, BitVec.and_zero]

theorem opcode_eq_iff_and_opcodeMask {w : Word} {c : BitVec 8} :
    w.extractLsb' 24 8 = c ↔ w &&& 0xFF000000#32 = c ++ 0#24 := by
  rw [and_opcodeMask]
  exact (BitVec.append_left_inj (0#24)).symm

theorem or_and_cancel_left (a b : Word) : (a ||| b) &&& a = a := by
  ext j hj
  rw [BitVec.getElem_and, BitVec.getElem_or, Bool.and_comm]
  cases a[j] <;> rfl

/-- A test under two masks at once, for a value under the first that has nothing under the second. -/
theorem and_or_eq_iff {w m a b : Word} (ha : m &&& a = m) (hb : m &&& b = 0#32) :
    w &&& (a ||| b) = m ↔ w &&& a = m ∧ w &&& b = 0#32 := by
  constructor
  · rintro rfl
    rw [BitVec.and_assoc] at ha hb
    rw [or_and_cancel_left] at ha
    rw [BitVec.or_comm, or_and_cancel_left] at hb
    exact ⟨ha, hb⟩
  · rintro ⟨ha, hb⟩
    rw [BitVec.and_or_distrib_left, ha, hb, BitVec.or_zero]

namespace Spec.Row

section
variable {r : Row} (hr : r ∈ rows)
include hr

/-- The column `match` of the table is the opcode above zeros (30_encoding R105). -/
theorem mtch_eq : r.mtch = r.op.code ++ 0#24 := by
  revert r
  decide

/-- The column `mask` of the table is the opcode's bits and the reserved bits (30_encoding R105). -/
theorem mask_eq : r.mask = 0xFF000000#32 ||| r.op.reserved := by
  revert r
  decide

/-- `match` has no bit outside the opcode, so none in a reserved place (30_encoding R105). -/
theorem mtch_and : r.mtch &&& 0xFF000000#32 = r.mtch ∧ r.mtch &&& r.op.reserved = 0#32 := by
  revert r
  decide

/-- The legal range of the table is that of the command's operands (30_encoding R102). -/
theorem legal_eq_wf (w : Word) : r.legal w = (r.op.fields w).wf := by
  revert r
  simp [rows, legal, Opcode.fields, Instr.wf, ctxLegal, blkLegal, planeLegal]

theorem opcode_iff {w : Word} : w.extractLsb' 24 8 = r.op.code ↔ w &&& 0xFF000000#32 = r.mtch := by
  rw [mtch_eq hr, opcode_eq_iff_and_opcodeMask]

/-- A word selects a row when it has the row's opcode and no reserved bit of its command (30_encoding R105). -/
theorem selects_iff {w : Word} : w &&& r.mask = r.mtch ↔ w.extractLsb' 24 8 = r.op.code ∧ w &&& r.op.reserved = 0#32 := by
  obtain ⟨hop, hres⟩ := mtch_and hr
  rw [mask_eq hr, and_or_eq_iff hop hres, opcode_iff hr]

end

end Spec.Row

/-- Settles O3: a row selects by opcode and reserved bits, which the decoder tests first, and then by the operand range. -/
theorem decodeFollowsMatchAndMask : Obligations.DecodeFollowsMatchAndMask := by
  intro r hr w
  have hsel := Spec.Row.selects_iff hr (w := w)
  rw [Spec.Row.legal_eq_wf hr]
  refine ⟨fun h hwf => ?_, fun h hwf => ?_, fun h hne => ?_⟩
  · obtain ⟨hop, hres⟩ := hsel.mp h
    exact ⟨_, decode_eq_fields hop hres hwf, Opcode.fields_opcode r.op w⟩
  · obtain ⟨hop, hres⟩ := hsel.mp h
    exact decode_eq_operandRange hop hres hwf
  · have hop := (Spec.Row.opcode_iff hr).mpr h
    exact decode_eq_reservedBit hop fun hres => hne (hsel.mpr ⟨hop, hres⟩)

/-! ## The opcode bytes of no command -/

/-- The opcodes of the table lie outside the three gaps of 30_encoding R106. -/
theorem Opcode.code_not_in_gaps (o : Opcode) :
    ¬ ((7 ≤ o.code.toNat ∧ o.code.toNat ≤ 0x0F) ∨ (0x15 ≤ o.code.toNat ∧ o.code.toNat ≤ 0x1F) ∨ 0x27 ≤ o.code.toNat) := by
  cases o <;> decide

/-- Settles O4: no opcode of the table lies in the three gaps. -/
theorem opcodesOutsideTheTableAreIllegal : Obligations.OpcodesOutsideTheTableAreIllegal := by
  intro w op hgap
  exact decode_eq_illegalCmd (Opcode.ofByte_eq_none fun o ho => o.code_not_in_gaps (ho ▸ hgap))

/-- Settles O5, by evaluation: the words are fixed. -/
theorem workedEncodingsDecode : Obligations.WorkedEncodingsDecode := by
  unfold Obligations.WorkedEncodingsDecode
  decide

/-! ## The step of a word that does not decode -/

namespace Machine

theorem step_write_undecodable {s : State} {w : Word} {rest : List HostEvent} {e : DecodeError}
    (h : s.inbox = .write cmdAddr w :: rest) (hf : s.fault = false) (hd : decode w = .error e) :
    step s = .next (({ s with inbox := rest } : State).raise w (decodeTrap e)) := by
  rw [step_write_cmd h hf, runCommand, hd]

/-- Settles O7: the step raises the fault of the decoder's answer, and `raise` writes the five fields. -/
theorem decodeFaultsChangeOnlyTheFaultFields : Obligations.DecodeFaultsChangeOnlyTheFaultFields := by
  intro s w rest h hf
  refine ⟨fun op hd => ?_, fun hd => step_write_undecodable h hf hd, fun hd => step_write_undecodable h hf hd⟩
  rw [BitVec.ofNat_toNat]
  exact step_write_undecodable h hf hd

end Machine

end Sys2Proof
end

section
/-! PROOFS. Contexts are independent (O22; 40_bd R142): a command neither reads nor writes a context it does not work on. -/

namespace Sys2Proof.Machine

/-! ## Two contexts replaced -/

/-- Different contexts may be replaced in either order. -/
theorem State.setCtx_comm (s : State) {j k : Fin 9} (c d : Ctx) (h : j ≠ k) :
    (s.setCtx j c).setCtx k d = (s.setCtx k d).setCtx j c := by
  have hv : j.val ≠ k.val := fun e => h (Fin.ext e)
  simp only [State.setCtx, Vector.set_comm _ _ hv]

/-- Of two replacements of one context the second stays. -/
theorem State.setCtx_setCtx (s : State) (k : Fin 9) (c d : Ctx) : (s.setCtx k c).setCtx k d = s.setCtx k d := by
  simp only [State.setCtx, Vector.set_set]

/-- Replacing a context by itself changes nothing. -/
theorem State.setCtx_self (s : State) (k : Fin 9) : s.setCtx k (s.ctx k) = s := by
  simp only [State.setCtx, State.ctx, Fin.getElem_fin, Vector.set_getElem_self]

/-! ## The same command with another context replaced -/

/-- A command does with context `j` replaced what it does without, and leaves the replacement there. -/
def State.SameBeside (s : State) (j : Fin 9) (c : Ctx) (run : State → Host.Outcome State Fault Refusal) : Prop :=
  run (s.setCtx j c) = mapNext (·.setCtx j c) (run s)

section
variable {s : State} {j : Fin 9} {c : Ctx}

theorem guardLegal_setCtx {i : Instr} {body body' : Host.Outcome State Fault Refusal}
    (h : body' = mapNext (·.setCtx j c) body) :
    guardLegal i (s.setCtx j c) body' = mapNext (·.setCtx j c) (guardLegal i s body) :=
  mapNext_ite (fun _ => h) (fun _ => rfl)

theorem State.scrambleSeek_setCtx {k : Fin 9} (h : j ≠ k) :
    (s.setCtx j c).scrambleSeek k = (s.scrambleSeek k).setCtx j c := by
  unfold State.scrambleSeek
  rw [State.ctx_setCtx_ne _ _ h.symm, State.setCtx_comm _ _ _ h]
  rfl

theorem execBdSeek_setCtx {ctx : BitVec 4} (h : j ≠ Fin.ofNat 9 ctx.toNat) : s.SameBeside j c (execBdSeek ctx) := by
  refine guardLegal_setCtx ?_
  rw [State.ctx_setCtx_ne _ _ h.symm]
  refine mapNext_ite (fun _ => ?_) (fun _ => rfl)
  rw [State.scrambleSeek_setCtx h, State.setCtx_stream]
  cases seek s.stream (s.ctx _) with
  | error t => rfl
  | ok c' => exact congrArg (fun u : State => completed u) (State.setCtx_comm _ _ _ h)

section
variable (h : j ≠ s.cur)
include h

theorem State.curCtx_setCtx_ne : (s.setCtx j c).curCtx = s.curCtx := State.ctx_setCtx_ne _ _ h.symm

theorem State.scrambleRead_setCtx : (s.setCtx j c).scrambleRead = s.scrambleRead.setCtx j c := by
  unfold State.scrambleRead
  rw [State.curCtx_setCtx_ne h, State.setCtx_cur, State.setCtx_comm _ _ _ h]
  rfl

/-- A read command works on the current context alone (40_bd R134, R142). -/
theorem bdRead_setCtx {i : Instr} (read : Ctx → Except Trap (Word × Ctx)) :
    bdRead i (s.setCtx j c) read = mapNext (·.setCtx j c) (bdRead i s read) := by
  unfold bdRead
  rw [State.curCtx_setCtx_ne h, State.scrambleRead_setCtx h, State.setCtx_cur]
  refine mapNext_ite (fun _ => ?_) (fun _ => rfl)
  cases read s.curCtx with
  | error t => rfl
  | ok r => exact congrArg (fun u : State => completed { u with result := r.1 }) (State.setCtx_comm _ _ _ h)

theorem execBdTree_setCtx (start : BitVec 6) : s.SameBeside j c (execBdTree start) := by
  unfold State.SameBeside execBdTree
  rw [State.curCtx_setCtx_ne h]
  exact mapNext_ite (fun _ => rfl) fun _ => bdRead_setCtx h _

theorem State.work_setCtx (col : Nat) : (s.setCtx j c).work col = s.work col := by
  unfold State.work
  rw [State.curCtx_setCtx_ne h]
  rfl

theorem State.putWork_setCtx (col : Nat) (a : Work) : (s.setCtx j c).putWork col a = (s.putWork col a).setCtx j c := by
  unfold State.putWork
  rw [State.setCtx_cur, State.setCtx_comm _ _ _ h]
  rfl

theorem State.scrambleTdBlk_setCtx (blk col : Nat) :
    (s.setCtx j c).scrambleTdBlk blk col = (s.scrambleTdBlk blk col).setCtx j c := by
  simp only [State.scrambleTdBlk, State.curCtx_setCtx_ne h, State.setCtx_cur, State.setCtx_comm _ _ _ h]
  rfl

theorem State.scrambleTdMb_setCtx (col : Nat) :
    (s.setCtx j c).scrambleTdMb col = (s.scrambleTdMb col).setCtx j c := by
  simp only [State.scrambleTdMb, State.curCtx_setCtx_ne h, State.setCtx_cur, State.setCtx_comm _ _ _ h]
  dsimp only [State.setCtx]

theorem execTdBlk_setCtx (blk : BitVec 5) (type : BitVec 2) (col : BitVec 10) :
    s.SameBeside j c (execTdBlk blk type col) := by
  refine guardLegal_setCtx ?_
  rw [State.curCtx_setCtx_ne h, State.work_setCtx h, State.scrambleTdBlk_setCtx h, State.setCtx_stream,
    State.setCtx_cprob]
  refine mapNext_ite (fun _ => ?_) (fun _ => rfl)
  cases tdBlk rom s.stream s.cprob blk.toNat type.toNat (s.work col.toNat) with
  | error t => rfl
  | ok r =>
    exact congrArg (fun u : State => completed { u with result := BitVec.ofNat 32 r.1 })
      (State.putWork_setCtx h col.toNat r.2.2)

theorem execTdMb_setCtx (seg : BitVec 2) (col : BitVec 10) (hasy2 skip : Bool) :
    s.SameBeside j c (execTdMb seg col hasy2 skip) := by
  cases skip with
  | true => rfl
  | false =>
    unfold State.SameBeside execTdMb
    rw [State.curCtx_setCtx_ne h, State.work_setCtx h, State.scrambleTdMb_setCtx h, State.setCtx_stream,
      State.setCtx_cprob, State.setCtx_dqf]
    refine mapNext_ite nofun fun _ => mapNext_ite (fun _ => ?_) fun _ => rfl
    dsimp only
    cases tdBlocks rom s.stream s.cprob s.dqf seg.toNat (macroblockBlocks hasy2) false
        (if hasy2 then s.work col.toNat else clearY2 (s.work col.toNat)) with
    | error t => rfl
    | ok r =>
      exact congrArg (fun u : State => completed { u with result := BitVec.ofNat 32 r.1.toNat })
        (State.putWork_setCtx h col.toNat r.2)

end

/-! ## The loop filter -/

theorem State.sameFilter_setCtx : s.SameFilter (s.setCtx j c) := ⟨rfl, rfl, rfl, rfl, rfl, rfl, rfl, rfl⟩

theorem State.scramblePix_setCtx (ops : List SegOp) : (s.setCtx j c).scramblePix ops = (s.scramblePix ops).setCtx j c := by
  unfold State.scramblePix
  rw [State.sameFilter_setCtx.segsMayWrite]
  rfl

theorem runSegs_setCtx (i : Instr) (ops : List SegOp) :
    runSegs i (s.setCtx j c) ops = mapNext (·.setCtx j c) (runSegs i s ops) := by
  unfold runSegs
  rw [State.sameFilter_setCtx.segs, State.scramblePix_setCtx, State.setCtx_pix]
  cases s.segs ops s.pix <;> rfl

theorem State.segAtXY_setCtx (plane : BitVec 2) (dir : Dir) (kind : Kind) :
    (s.setCtx j c).segAtXY plane dir kind = s.segAtXY plane dir kind := rfl

theorem execLfSeg_setCtx (plane : BitVec 2) (dir : Dir) (kind : Kind) : s.SameBeside j c (execLfSeg plane dir kind) := by
  refine guardLegal_setCtx ?_
  rw [State.sameFilter_setCtx.seg, State.segAtXY_setCtx, State.setCtx_pix]
  cases s.seg (s.segAtXY plane dir kind) s.pix <;> rfl

/-! ## Every command -/

/-- A command does the same whatever stands in a context it does not work on (40_bd R142). -/
theorem exec_setCtx {i : Instr} (h : some j ≠ Spec.touched i s) : s.SameBeside j c (exec i) := by
  have hne {k : Fin 9} (ht : Spec.touched i s = some k) : j ≠ k := fun e => h (e ▸ ht.symm)
  cases i with
  | bdSeek ctx => exact execBdSeek_setCtx (hne rfl)
  | bdBit | bdBool p | bdLit n => exact bdRead_setCtx (hne rfl) _
  | bdTree start => exact execBdTree_setCtx (hne rfl) start
  | tdBlk blk type col => exact execTdBlk_setCtx (hne rfl) blk type col
  | tdMb seg col hasy2 skip => exact execTdMb_setCtx (hne rfl) seg col hasy2 skip
  | bdSel ctx | dqBlk blk type seg => exact guardLegal_setCtx rfl
  | lfSeg plane dir kind => exact execLfSeg_setCtx plane dir kind
  | lfEdge plane dir kind lenm1 => exact guardLegal_setCtx (runSegs_setCtx _ _)
  | lfMb mbx mby noinner => exact mapNext_ite (fun _ => rfl) fun _ => runSegs_setCtx _ _
  | nop | tdRst | tdNewrow | lfSetlvl lvl | lfAdjlvl delta | lfSetx coord | lfSety coord => rfl

end

/-- Settles O22: the command runs alike with the context replaced, and replacing it by itself shows that it stays. -/
theorem contextsAreIndependent : Obligations.ContextsAreIndependent := by
  intro i s t j hj ht
  have hrun (c : Ctx) : exec i (s.setCtx j c) = .next (t.setCtx j c) :=
    (exec_setCtx hj).trans (congrArg (mapNext _) ht)
  have hself := hrun (s.ctx j)
  rw [State.setCtx_self, ht] at hself
  refine ⟨?_, hrun⟩
  rw [Host.Outcome.next.inj hself, State.ctx_setCtx_same]

end Sys2Proof.Machine
end

section
/-! PROOFS. The FINFO of BD_OVERRUN is the END of the context that was reading (O24; 60_exceptions R256). -/

namespace Sys2Proof.Machine

/-- A seek over a range that starts no later than it ends faults with END (40_bd R131). -/
theorem seek_error {stream : Memory 8} {c : Ctx} {e : Trap} (h : seek stream c = .error e)
    (hse : c.startAddr.toNat ≤ c.endAddr.toNat) : e = ⟨.bdOverrun, c.endAddr⟩ := by
  by_cases hle : c.startAddr.toNat + 2 ≤ c.endAddr.toNat
  · rw [seek_of_le hle] at h
    cases h
  · rw [seek_of_lt hse (by omega)] at h
    exact (Except.error.inj h).symm

/-! ## What a recorded BD_OVERRUN says -/

/-- If a BD_OVERRUN is recorded in `t`, FINFO is `a`. -/
def State.OverrunAt (t : State) (a : Word) : Prop := t.fault = true → t.fcode = 5 → t.finfo = a

/-- Of the faults only BD_OVERRUN has code 5 (60_exceptions R250). -/
theorem FaultName.code_eq_five {f : FaultName} (h : f.code = 5) : f = .bdOverrun := by
  revert h
  cases f <;> decide

theorem State.OverrunAt.of_complete {u : State} {a : Word} (h : u.fault = false) : u.complete.OverrunAt a :=
  fun hf => absurd (h.symm.trans hf) Bool.false_ne_true

theorem State.OverrunAt.of_raise {u : State} {w a : Word} {e : Trap} (h : e.name = .bdOverrun → e.info = a) :
    (u.raise w e).OverrunAt a := fun _ hc => h (FaultName.code_eq_five hc)

/-- A fault that is not BD_OVERRUN. -/
theorem State.OverrunAt.of_other {u : State} {w a info : Word} {name : FaultName}
    (h : name ≠ .bdOverrun := by decide) : (u.raise w ⟨name, info⟩).OverrunAt a := .of_raise fun hn => absurd hn h

/-! ## The reading commands -/

section
variable {s t : State}

theorem execBdSeek_overrunAt {ctx : BitVec 4} (hf : s.fault = false) (h : execBdSeek ctx s = .next t) :
    t.OverrunAt (s.ctx (Fin.ofNat 9 ctx.toNat)).endAddr := by
  rcases execBdSeek_cases h with ⟨-, rfl⟩ | ⟨-, rfl⟩ | ⟨hse, -, ⟨c, -, rfl⟩ | ⟨e, he, rfl⟩⟩
  · exact .of_other
  · exact .of_other
  · exact .of_complete hf
  · exact .of_raise fun _ => congrArg Trap.info (seek_error he hse)

/-- A read command records the BD_OVERRUN of its read (60_exceptions R257). -/
theorem bdRead_overrunAt {i : Instr} {read : Ctx → Except Trap (Word × Ctx)} (hf : s.fault = false)
    (hread : s.curCtx.init = true → ∀ e, read s.curCtx = .error e → e.name = .bdOverrun → e.info = s.curCtx.endAddr)
    (h : bdRead i s read = .next t) : t.OverrunAt s.curCtx.endAddr := by
  rcases bdRead_cases h with ⟨-, rfl⟩ | ⟨-, v, c, -, rfl⟩ | ⟨hi, e, he, rfl⟩
  · exact .of_other
  · exact .of_complete hf
  · exact .of_raise (hread hi e he)

variable (hf : s.fault = false) (hpos : s.curCtx.init = true → s.curCtx.pos.toNat ≤ s.curCtx.endAddr.toNat)
include hf hpos

theorem readBoolWord_bdRead_overrunAt {i : Instr} {p : BitVec 8} (h : bdRead i s (readBoolWord s.stream p) = .next t) :
    t.OverrunAt s.curCtx.endAddr :=
  bdRead_overrunAt hf
    (fun hi _ he _ => congrArg Trap.info (readBool_error (readBoolWord_error.mp he) (hpos hi))) h

theorem execBdLit_overrunAt {n : BitVec 5} (h : execBdLit n s = .next t) : t.OverrunAt s.curCtx.endAddr :=
  bdRead_overrunAt hf
    (fun hi _ he _ => congrArg Trap.info (readBits_error (readLitWord_error.mp he) (hpos hi))) h

theorem execBdTree_overrunAt {start : BitVec 6} (h : execBdTree start s = .next t) : t.OverrunAt s.curCtx.endAddr := by
  rcases execBdTree_cases h with ⟨-, -, rfl⟩ | ⟨-, h⟩
  · exact .of_other
  · refine bdRead_overrunAt hf (fun hi e he hn => ?_) h
    have hstart : start.toNat ≤ 127 := by omega
    rcases treeWalk_error he (hpos hi) hstart with rfl | ⟨j, -, -, rfl⟩
    · rfl
    · cases hn

theorem execTdBlk_overrunAt {blk : BitVec 5} {type : BitVec 2} {col : BitVec 10}
    (h : execTdBlk blk type col s = .next t) : t.OverrunAt s.curCtx.endAddr := by
  rcases execTdBlk_cases h with ⟨-, rfl⟩ | ⟨-, rfl⟩ | ⟨-, hi, ⟨n, nz, a, -, rfl⟩ | ⟨e, he, rfl⟩⟩
  · exact .of_other
  · exact .of_other
  · exact .of_complete hf
  · exact .of_raise fun _ => congrArg Trap.info (tdBlk_error he (hpos hi))

theorem execTdMb_overrunAt {seg : BitVec 2} {col : BitVec 10} {hasy2 skip : Bool}
    (h : execTdMb seg col hasy2 skip s = .next t) : t.OverrunAt s.curCtx.endAddr := by
  cases skip with
  | true =>
    rw [execTdMb_skip] at h
    obtain rfl := Host.Outcome.next.inj h
    exact .of_complete hf
  | false =>
    rcases execTdMb_cases h with ⟨-, rfl⟩ | ⟨hi, ⟨any, a, -, rfl⟩ | ⟨e, he, rfl⟩⟩
    · exact .of_other
    · exact .of_complete hf
    · have hctx : (if hasy2 then s.work col.toNat else clearY2 (s.work col.toNat)).ctx = s.curCtx := by
        cases hasy2 <;> rfl
      have herr := tdBlocks_error he (by rw [hctx]; exact hpos hi)
      rw [hctx] at herr
      exact .of_raise fun _ => congrArg Trap.info herr

end

/-- Settles O24: the invariant keeps the cursor inside the range, where a read can fail at END only. -/
theorem overrunInfoIsTheEndOfTheRange : Obligations.OverrunInfoIsTheEndOfTheRange := by
  intro i s t k hinv hf htouched ht
  have hpos (hi : s.curCtx.init = true) : s.curCtx.pos.toNat ≤ s.curCtx.endAddr.toNat := by
    obtain ⟨-, hpos, -⟩ := hinv.ctxs hf s.cur hi
    exact hpos
  cases i with
  | bdSeek ctx => cases htouched; exact execBdSeek_overrunAt hf ht
  | bdBit => cases htouched; exact readBoolWord_bdRead_overrunAt hf hpos ht
  | bdBool p => cases htouched; exact readBoolWord_bdRead_overrunAt hf hpos ht
  | bdLit n => cases htouched; exact execBdLit_overrunAt hf hpos ht
  | bdTree start => cases htouched; exact execBdTree_overrunAt hf hpos ht
  | tdBlk blk type col => cases htouched; exact execTdBlk_overrunAt hf hpos ht
  | tdMb seg col hasy2 skip => cases htouched; exact execTdMb_overrunAt hf hpos ht
  | _ => cases htouched

end Sys2Proof.Machine
end

section
/-! PROOFS. The commands that write one register (O26), the checks made before a command changes anything (O30, O38), and BD_SEEK (O29). -/

namespace Sys2Proof.Machine

/-! ## Context numbers -/

theorem ctxLegal_of_eq {ctx : BitVec 4} {k : Fin 9} (h : ctx.toNat = k.val) : ctxLegal ctx = true :=
  decide_eq_true (by omega)

theorem ofNat_ctx {ctx : BitVec 4} {k : Fin 9} (h : ctx.toNat = k.val) : Fin.ofNat 9 ctx.toNat = k := by
  rw [h]
  exact Fin.ofNat_val_eq_self k

/-! ## Commands that write one register -/

/-- Settles O26: BD_SEL with a legal context number, and the four commands without a check. -/
theorem registerCommandsWriteOneRegister : Obligations.RegisterCommandsWriteOneRegister := by
  refine fun s => ⟨fun ctx k h => ?_, rfl, fun _ => rfl, fun _ => rfl, fun _ => rfl⟩
  refine (guardLegal_of_wf (i := .bdSel ctx) (ctxLegal_of_eq h)).trans ?_
  rw [ofNat_ctx h]
  rfl

/-! ## The checks of the reading commands -/

/-- BD_TREE with START up to 62 is a read command: the index is checked at the nodes (40_bd R137). -/
theorem execBdTree_of_le {start : BitVec 6} {s : State} (h : start.toNat ≤ 62) :
    execBdTree start s =
      bdRead (.bdTree start) s fun c => treeWalk s.stream s.tree s.tprob (walkBound c) start.toNat c :=
  if_neg fun hc => absurd hc.2 (by omega)

theorem execBdTree_of_lt {start : BitVec 6} {s : State} (hi : s.curCtx.init = true) (h : 62 < start.toNat) :
    execBdTree start s = faulted (.bdTree start) s ⟨.treeRange, start.setWidth 32⟩ :=
  if_pos ⟨hi, h⟩

/-- A context that is not initialised is found before START is looked at (40_bd R137, R145). -/
theorem execBdTree_uninit {start : BitVec 6} {s : State} (hi : s.curCtx.init = false) :
    execBdTree start s = .next (s.raise (encode (.bdTree start)) ⟨.bdUninit, BitVec.ofNat 32 s.cur.val⟩) := by
  unfold execBdTree
  rw [if_neg (by simp [hi]), bdRead_uninit hi]

theorem execTdBlk_uninit {blk : BitVec 5} {type : BitVec 2} {col : BitVec 10} {s : State}
    (hw : (Instr.tdBlk blk type col).wf = true) (hi : s.curCtx.init = false) :
    execTdBlk blk type col s =
      .next (s.raise (encode (.tdBlk blk type col)) ⟨.bdUninit, BitVec.ofNat 32 s.cur.val⟩) :=
  (guardLegal_of_wf hw).trans (if_neg (by simp [hi]))

theorem execTdMb_uninit {seg : BitVec 2} {col : BitVec 10} {hasy2 : Bool} {s : State} (hi : s.curCtx.init = false) :
    execTdMb seg col hasy2 false s =
      .next (s.raise (encode (.tdMb seg col hasy2 false)) ⟨.bdUninit, BitVec.ofNat 32 s.cur.val⟩) := by
  unfold execTdMb
  simp only [Bool.false_eq_true, if_false, hi, faulted]

/-- Settles O30: each of the six commands tests INIT before anything else but the operand range. -/
theorem readsOfAnUninitialisedContextFault : Obligations.ReadsOfAnUninitialisedContextFault := by
  rintro s i hw (⟨p, rfl⟩ | rfl | ⟨n, rfl⟩ | ⟨st, rfl⟩ | ⟨b, t, c, rfl⟩ | ⟨sg, c, h, rfl⟩) hi
  · exact bdRead_uninit hi
  · exact bdRead_uninit hi
  · exact bdRead_uninit hi
  · exact execBdTree_uninit hi
  · exact execTdBlk_uninit hw hi
  · exact execTdMb_uninit hi

/-- Settles O38: the index is above 62, so the fault comes before the read. -/
theorem bdTree63FaultsBeforeAnyRead : Obligations.BdTree63FaultsBeforeAnyRead :=
  fun _ hi => execBdTree_of_lt hi (by decide)

/-! ## BD_SEEK -/

/-- BD_SEEK whose range fits STREAM starts the range (40_bd R131). -/
theorem execBdSeek_of_range {ctx : BitVec 4} {k : Fin 9} {s : State} (hk : ctx.toNat = k.val)
    (hse : (s.ctx k).startAddr.toNat ≤ (s.ctx k).endAddr.toNat)
    (hsize : (s.ctx k).endAddr.toNat ≤ s.params.streamSize) :
    execBdSeek ctx s =
      match seek s.stream (s.ctx k) with
      | .error t => faulted (.bdSeek ctx) (s.scrambleSeek k) t
      | .ok c' => completed (s.setCtx k c') := by
  refine (guardLegal_of_wf (i := .bdSeek ctx) (ctxLegal_of_eq hk)).trans ?_
  rw [ofNat_ctx hk]
  exact if_pos ⟨BitVec.le_def.mpr hse, hsize⟩

theorem execBdSeek_of_not_range {ctx : BitVec 4} {k : Fin 9} {s : State} (hk : ctx.toNat = k.val)
    (h : ¬((s.ctx k).startAddr.toNat ≤ (s.ctx k).endAddr.toNat ∧ (s.ctx k).endAddr.toNat ≤ s.params.streamSize)) :
    execBdSeek ctx s = faulted (.bdSeek ctx) s ⟨.bdRange, BitVec.ofNat 32 k.val⟩ := by
  refine (guardLegal_of_wf (i := .bdSeek ctx) (ctxLegal_of_eq hk)).trans ?_
  rw [ofNat_ctx hk]
  exact if_neg h

/-- A word moved on by a number. -/
theorem add_ofNat_eq {w : Nat} (x : BitVec w) (k : Nat) : x + BitVec.ofNat w k = BitVec.ofNat w (x.toNat + k) := by
  rw [BitVec.ofNat_add, BitVec.ofNat_toNat, BitVec.setWidth_eq]

/-- Two bytes as one number, the first one above (40_bd R131). -/
theorem append_bytes (hi lo : Byte) : (hi ++ lo : BitVec 16).toNat = hi.toNat * 256 + lo.toNat := by
  rw [BitVec.toNat_append, ← Nat.shiftLeft_add_eq_or_of_lt lo.isLt, Nat.shiftLeft_eq]

/-- Settles O29, by the seek over a range of two bytes or more, the range check, and the seek over a shorter range. -/
theorem bdSeekStartsTheRange : Obligations.BdSeekStartsTheRange := by
  intro s ctx k hk c
  refine ⟨fun hlen hsize => ?_, fun hrange => ?_, fun hse hlen hsize => ?_⟩
  · refine (execBdSeek_of_range hk ((Nat.le_add_right _ 2).trans hlen) hsize).trans ?_
    rw [seek_of_le hlen]
    have hpos : c.startAddr + 2 = BitVec.ofNat 32 (c.startAddr.toNat + 2) := add_ofNat_eq c.startAddr 2
    have hvalue : s.stream.read c.startAddr.toNat ++ s.stream.read (c.startAddr.toNat + 1) = BitVec.ofNat 16
        ((s.stream.read c.startAddr.toNat).toNat * 256 + (s.stream.read (c.startAddr.toNat + 1)).toNat) := by
      rw [← append_bytes, BitVec.ofNat_toNat, BitVec.setWidth_eq]
    rw [← hpos, ← hvalue]
    rfl
  · exact execBdSeek_of_not_range hk hrange
  · have hrun : execBdSeek ctx s = faulted (.bdSeek ctx) (s.scrambleSeek k) ⟨.bdOverrun, c.endAddr⟩ := by
      rw [execBdSeek_of_range hk hse hsize, seek_of_lt hse hlen]
    exact ⟨_, _, _, _, _, hrun⟩

end Sys2Proof.Machine
end

section
/-! PROOFS. One read: BD_BOOL in closed form (O31), the window relation (O40), BD_BIT beside BD_BOOL 128 and BD_LIT 1 (O32), and how far BD_BIT and BD_LIT read (O33, O34). -/

namespace Sys2Proof.Machine

/-! ## The decision in closed form (40_bd R133) -/

/-- The bit of a read: VALUE against `split`. -/
def chosenBit (p : BitVec 8) (c : Ctx) : Bool := decide (split c.range p * 256 ≤ c.value.toNat)

/-- RANGE of the chosen part of the interval. -/
def chosenRange (p : BitVec 8) (c : Ctx) : Nat :=
  if chosenBit p c then c.range.toNat - split c.range p else split c.range p

/-- VALUE inside the chosen part of the interval. -/
def chosenValue (p : BitVec 8) (c : Ctx) : Nat :=
  if chosenBit p c then c.value.toNat - split c.range p * 256 else c.value.toNat

theorem decideBit_eq {p : BitVec 8} {c : Ctx} (h : 128 ≤ c.range.toNat) :
    decideBit p c = (chosenBit p c, { c with
      range := BitVec.ofNat 8 (chosenRange p c), value := BitVec.ofNat 16 (chosenValue p c) }) := by
  obtain ⟨hstart, hend, hpos, hbitcnt, hinit⟩ := decideBit_fields p c
  have key : (decideBit p c).1 = chosenBit p c ∧ (decideBit p c).2.range.toNat = chosenRange p c ∧
      (decideBit p c).2.value.toNat = chosenValue p c := by
    unfold chosenRange chosenValue chosenBit
    rcases decideBit_spec (p := p) h with ⟨hle, hb, hr, hv⟩ | ⟨hlt, hb, hr, hv⟩
    · simp [hle, hb, hr, hv]
    · simp [Nat.not_le.mpr hlt, hb, hr, hv]
  obtain ⟨hb, hr, hv⟩ := key
  rw [← hb, ← hr, ← hv, BitVec.ofNat_toNat, BitVec.ofNat_toNat, BitVec.setWidth_eq, BitVec.setWidth_eq, ← hstart,
    ← hend, ← hpos, ← hbitcnt, ← hinit]

/-! ## ReadBool in closed form (40_bd R133) -/

theorem ofNat_shiftLeft_eq (w v k : Nat) : BitVec.ofNat w v <<< k = BitVec.ofNat w (v * 2 ^ k) := by
  apply BitVec.eq_of_toNat_eq
  rw [BitVec.toNat_shiftLeft, BitVec.toNat_ofNat, BitVec.toNat_ofNat, Nat.shiftLeft_eq, Nat.mod_mul_mod]

/-- Seven shifts bring every RANGE above 0 to 128 or more (40_bd R141). -/
theorem shifts_le_seven {r k : Nat} (hlo : 128 ≤ r * 2 ^ k) (hhi : r * 2 ^ k ≤ 255) : k ≤ 7 := by
  have hr : 1 ≤ r := Nat.pos_of_ne_zero fun h => by simp [h] at hlo
  have hk : 2 ^ k < 2 ^ 8 := by nlinarith [Nat.le_mul_of_pos_left (2 ^ k) hr]
  have := (Nat.pow_lt_pow_iff_right (by norm_num)).mp hk
  omega

section
variable {stream : Memory 8} {p : BitVec 8} {c : Ctx} {k : Nat} (hr : 128 ≤ c.range.toNat)
  (hlo : 128 ≤ chosenRange p c * 2 ^ k) (hhi : chosenRange p c * 2 ^ k ≤ 255)
include hr hlo hhi

theorem decideBit_range_eq : (decideBit p c).2.range.toNat = chosenRange p c := by
  have := Nat.le_mul_of_pos_right (chosenRange p c) (Nat.two_pow_pos k)
  rw [decideBit_eq hr, BitVec.toNat_ofNat]
  omega

/-- A read whose shifts bring no byte in. -/
theorem readBool_no_fetch (hb : c.bitcnt.toNat + k ≤ 7) :
    readBool stream p c = .ok (chosenBit p c, { c with
      range := BitVec.ofNat 8 (chosenRange p c * 2 ^ k), value := BitVec.ofNat 16 (chosenValue p c * 2 ^ k)
      bitcnt := BitVec.ofNat 3 (c.bitcnt.toNat + k) }) := by
  have hd := decideBit_range_eq hr hlo hhi
  have hn := normalise_no_fetch (stream := stream) k 7 (decideBit p c).2 (shifts_le_seven hlo hhi) (by rwa [hd])
    (by rwa [hd]) (by rw [decideBit_eq hr]; exact hb)
  rw [readBool, hn, decideBit_eq hr]
  simp only [ofNat_shiftLeft_eq, add_ofNat_eq]

/-- A read whose eighth shift since the last merge brings in the byte at POS. -/
theorem readBool_fetch (hb : 8 ≤ c.bitcnt.toNat + k) (hp : c.pos.toNat < c.endAddr.toNat) :
    readBool stream p c = .ok (chosenBit p c, { c with
      pos := BitVec.ofNat 32 (c.pos.toNat + 1)
      range := BitVec.ofNat 8 (chosenRange p c * 2 ^ k)
      value := BitVec.ofNat 16 (chosenValue p c * 2 ^ k) |||
        BitVec.ofNat 16 ((stream.read c.pos.toNat).toNat * 2 ^ (c.bitcnt.toNat + k - 8))
      bitcnt := BitVec.ofNat 3 (c.bitcnt.toNat + k - 8) }) := by
  have hd := decideBit_range_eq hr hlo hhi
  have hn := normalise_fetch (stream := stream) k 7 (decideBit p c).2 (shifts_le_seven hlo hhi) (by rwa [hd])
    (by rwa [hd]) (by rw [decideBit_eq hr]; exact hb) (shifts_le_seven hlo hhi) (by rw [decideBit_eq hr]; exact hp)
  rw [readBool, hn, decideBit_eq hr]
  simp only [ofNat_shiftLeft_eq, ← add_ofNat_eq c.pos 1, ← BitVec.ofNat_toNat 16 (stream.read c.pos.toNat)]
  rfl

/-- A read whose eighth shift since the last merge finds no byte. -/
theorem readBool_overrun (hb : 8 ≤ c.bitcnt.toNat + k) (hp : c.endAddr.toNat ≤ c.pos.toNat) :
    readBool stream p c = .error ⟨.bdOverrun, c.pos⟩ := by
  have hd := decideBit_range_eq hr hlo hhi
  have hn := normalise_overrun (stream := stream) k 7 (decideBit p c).2 (shifts_le_seven hlo hhi) (by rwa [hd])
    (by rwa [hd]) (by rw [decideBit_eq hr]; exact hb) (by rw [decideBit_eq hr]; exact hp)
  rw [readBool, hn, decideBit_eq hr]

end

/-! ## The commands of one read -/

theorem ofNat_toNat_bool (b : Bool) : BitVec.ofNat 32 b.toNat = if b then 1 else 0 := by cases b <;> rfl

/-- A one-bit read command that completes (40_bd R134). -/
theorem bdRead_readBool_ok {i : Instr} {s : State} {p : BitVec 8} {b : Bool} {c : Ctx}
    (hi : (s.ctx s.cur).init = true) (h : readBool s.stream p (s.ctx s.cur) = .ok (b, c)) :
    bdRead i s (readBoolWord s.stream p) = .next { s with
      result := if b then 1 else 0, bd := s.bd.set s.cur c, cmdcnt := s.cmdcnt + 1 } := by
  have hw : readBoolWord s.stream p s.curCtx = .ok (BitVec.ofNat 32 b.toNat, c) := by
    rw [readBoolWord, State.curCtx, h]
  rw [bdRead_ok hi hw, ofNat_toNat_bool]
  rfl

theorem bdRead_readBool_error {i : Instr} {s : State} {p : BitVec 8} {e : Trap} (hi : (s.ctx s.cur).init = true)
    (h : readBool s.stream p (s.ctx s.cur) = .error e) :
    bdRead i s (readBoolWord s.stream p) = .next (s.scrambleRead.raise (encode i) e) :=
  bdRead_error hi (readBoolWord_error.mpr h)

/-- Settles O31: the three closed forms of ReadBool, by whether the eighth shift falls due and a byte is left. -/
theorem bdBoolReadsOneBit : Obligations.BdBoolReadsOneBit := by
  intro s prob k c sp bit r v hi hr hlo hhi
  exact ⟨fun hb => bdRead_readBool_ok hi (readBool_no_fetch hr hlo hhi hb),
    fun hb hp => bdRead_readBool_ok hi (readBool_fetch hr hlo hhi hb hp),
    fun hb hp => ⟨_, bdRead_readBool_error hi (readBool_overrun hr hlo hhi hb hp), rfl, rfl, rfl, rfl, rfl⟩⟩

/-- The same read under the word of another command: only FCMD of a fault tells them apart (60_exceptions R257). -/
theorem bdRead_rename {i : Instr} (j : Instr) {s t : State} {read : Ctx → Except Trap (Word × Ctx)}
    (h : bdRead i s read = .next t) :
    bdRead j s read = .next (if t.fault ∧ t.cmdcnt = s.cmdcnt then { t with fcmd := encode j } else t) := by
  rcases bdRead_cases h with ⟨hi, rfl⟩ | ⟨hi, v, c, hv, rfl⟩ | ⟨hi, e, he, rfl⟩
  · rw [bdRead_uninit hi, if_pos ⟨rfl, rfl⟩]
    rfl
  · have hcnt : s.cmdcnt + 1 ≠ s.cmdcnt := by simp
    rw [bdRead_ok hi hv, if_neg fun hf => hcnt hf.2]
  · rw [bdRead_error hi he, if_pos ⟨rfl, rfl⟩]
    rfl

/-- A literal of one bit is one read at probability 128 (40_bd R135, R140). -/
theorem readLitWord_one (stream : Memory 8) : readLitWord stream 1 = readBoolWord stream 128#8 := by
  funext c
  simp only [readLitWord, readBoolWord, List.replicate_one, readBits_cons]
  cases readBool stream 128#8 c with
  | error t => rfl
  | ok r => simp only [readBits, Nat.zero_mul, Nat.zero_add]

/-- Settles O32: the three commands make the same read. -/
theorem bdBitEqualsBool128AndLit1 : Obligations.BdBitEqualsBool128AndLit1 := by
  intro s t h
  have hlit : exec (.bdLit 1) s = bdRead (.bdLit 1) s (readBoolWord s.stream 128#8) := by
    rw [← readLitWord_one]
    rfl
  exact ⟨bdRead_rename (.bdBool 128) h, hlit.trans (bdRead_rename (.bdLit 1) h)⟩

/-! ## Reads at probability 128 -/

/-- At probability 128 the chosen part is at least 64 long, so one shift is enough (40_bd R135). -/
theorem decideBit_half_range {c : Ctx} (hr : 128 ≤ c.range.toNat) : 64 ≤ (decideBit 128#8 c).2.range.toNat := by
  have hlt := c.range.isLt
  have hs : split c.range 128#8 = 1 + (c.range.toNat - 1) / 2 := by
    unfold split
    rw [show (128#8).toNat = 128 from rfl]
    omega
  rcases decideBit_spec (p := 128#8) hr with ⟨-, -, h, -⟩ | ⟨-, -, h, -⟩ <;> omega

theorem shiftOnce_ok_of_left {stream : Memory 8} {c : Ctx}
    (h : c.bitcnt.toNat < 7 ∨ c.pos.toNat < c.endAddr.toNat) : ∃ c', shiftOnce stream c = .ok c' := by
  by_cases h7 : c.bitcnt = 7#3
  · refine ⟨_, shiftOnce_of_lt h7 (h.resolve_left fun hlt => ?_)⟩
    rw [h7] at hlt
    exact absurd hlt (by decide)
  · exact ⟨_, shiftOnce_of_ne h7⟩

theorem normalise_of_range {stream : Memory 8} {fuel : Nat} {c : Ctx} (h : 128 ≤ c.range.toNat) :
    normalise stream fuel c = .ok c := by
  cases fuel with
  | zero => rfl
  | succ fuel =>
    rw [normalise_succ, if_neg]
    rw [BitVec.lt_def]
    exact Nat.not_lt.mpr h

/-- From RANGE 64 on the loop makes one shift at most. -/
theorem normalise_ok_of_left {stream : Memory 8} {fuel : Nat} {c : Ctx} (hr : 64 ≤ c.range.toNat)
    (h : c.bitcnt.toNat < 7 ∨ c.pos.toNat < c.endAddr.toNat) : ∃ c', normalise stream (fuel + 1) c = .ok c' := by
  rw [normalise_succ]
  split
  · next hlt =>
    obtain ⟨c1, h1⟩ := shiftOnce_ok_of_left (stream := stream) h
    obtain ⟨-, hdouble, -⟩ := shiftOnce_ok h1
    have hrange : 128 ≤ c1.range.toNat := by
      rw [hdouble, range_double hlt]
      omega
    rw [h1]
    exact ⟨c1, normalise_of_range hrange⟩
  · exact ⟨c, rfl⟩

/-- A read at probability 128 succeeds while a shift or a byte is left (40_bd R135). -/
theorem readBool_half_ok_of_left {stream : Memory 8} {c : Ctx} (hr : 128 ≤ c.range.toNat)
    (h : c.bitcnt.toNat < 7 ∨ c.pos.toNat < c.endAddr.toNat) : ∃ b c', readBool stream 128#8 c = .ok (b, c') := by
  obtain ⟨-, hend, hpos, hbitcnt, -⟩ := decideBit_fields 128#8 c
  obtain ⟨c', h1⟩ := normalise_ok_of_left (stream := stream) (fuel := 6) (decideBit_half_range hr)
    (by rwa [hend, hpos, hbitcnt])
  exact ⟨_, c', by rw [readBool, h1]⟩

/-- `n` shifts fetch at most ceil(n / 8) bytes (40_bd R136). -/
theorem Ctx.Adv.pos_le_add {c c' : Ctx} {n : Nat} (h : c.Adv c' n) : c'.pos.toNat ≤ c.pos.toNat + (n + 7) / 8 := by
  have hs := h.shifted
  have hb := c.bitcnt.isLt
  unfold Ctx.shifted at hs
  omega

/-- Settles O33: at probability 128 a read shifts at most once, so it needs one shift or byte and fetches one byte at most. -/
theorem bdBitCompletes : Obligations.BdBitCompletes := by
  intro s hi hr hleft
  obtain ⟨b, c, h⟩ := readBool_half_ok_of_left (stream := s.stream) hr hleft
  obtain ⟨n, hn, ha⟩ := readBool_half_adv h hr
  have hpos := ha.pos_le_add
  exact ⟨b, c, bdRead_readBool_ok hi h, by omega, readBool_range h hr, ha.init.trans hi⟩

/-- A literal that is read leaves its value in RESULT (40_bd R135). -/
theorem execBdLit_ok {n : BitVec 5} {s : State} {v : Nat} {c : Ctx} (hi : (s.ctx s.cur).init = true)
    (h : readBits s.stream (List.replicate n.toNat 128#8) 0 (s.ctx s.cur) = .ok (v, c)) :
    execBdLit n s = .next { s with
      result := BitVec.ofNat 32 v, bd := s.bd.set s.cur c, cmdcnt := s.cmdcnt + 1 } := by
  have hw : readLitWord s.stream n.toNat s.curCtx = .ok (BitVec.ofNat 32 v, c) := by
    rw [readLitWord, State.curCtx, h]
  exact bdRead_ok hi hw

/-- The value of a literal of `n` bits is below 2^n (40_bd R135). -/
theorem readLit_lt {stream : Memory 8} {n v : Nat} {c c' : Ctx}
    (h : readBits stream (List.replicate n 128#8) 0 c = .ok (v, c')) : v < 2 ^ n := by
  have hv := (readBits_bounds h).2
  rwa [List.length_replicate, Nat.zero_add, Nat.one_mul] at hv

/-- Settles O34: `n` reads at probability 128 make at most `n` shifts, which ceil(n / 8) bytes cover. -/
theorem bdLitCompletes : Obligations.BdLitCompletes := by
  intro s n hi hr hleft
  have hb := (s.ctx s.cur).bitcnt.isLt
  obtain ⟨v, c, h⟩ := readBits_half_succeeds (stream := s.stream) n.toNat 0 hr (by unfold Ctx.shifted; omega)
  obtain ⟨m, hm, ha⟩ := readBits_half_adv h hr
  have hpos := ha.pos_le_add
  have hv := readLit_lt h
  refine ⟨_, c, execBdLit_ok hi h, ?_, by omega, ?_⟩
  · rw [BitVec.toNat_ofNat]
    exact (Nat.mod_le _ _).trans_lt hv
  · rintro rfl
    obtain ⟨rfl, rfl⟩ := Prod.mk.inj (Except.ok.inj h)
    exact ⟨rfl, rfl⟩

/-! ## The window relation (40_bd R138) -/

/-- VALUE lies below the top of the interval. -/
def Ctx.Window (c : Ctx) : Prop := c.value.toNat < c.range.toNat * 256

/-- The BITCNT low bits of VALUE are 0. -/
def Ctx.Zeros (c : Ctx) : Prop := c.value.toNat % 2 ^ c.bitcnt.toNat = 0

theorem decideBit_window {p : BitVec 8} {c : Ctx} (hr : 128 ≤ c.range.toNat) (h : c.Window) :
    (decideBit p c).2.Window := by
  unfold Ctx.Window at h ⊢
  rcases decideBit_spec (p := p) hr with ⟨hle, -, hrange, hv⟩ | ⟨hlt, -, hrange, hv⟩
  · omega
  · rw [hv, hrange]
    exact hlt

/-- `split * 256` is a multiple of every power of two up to 2^8, so the decision keeps the zeros. -/
theorem decideBit_zeros {p : BitVec 8} {c : Ctx} (hr : 128 ≤ c.range.toNat) (h : c.Zeros) :
    (decideBit p c).2.Zeros := by
  obtain ⟨-, -, -, hbitcnt, -⟩ := decideBit_fields p c
  unfold Ctx.Zeros at h ⊢
  rw [hbitcnt]
  rcases decideBit_spec (p := p) hr with ⟨-, -, -, hv⟩ | ⟨-, -, -, hv⟩
  · have hd : 2 ^ c.bitcnt.toNat ∣ 256 := pow_dvd_pow 2 (show c.bitcnt.toNat ≤ 8 by omega)
    rw [hv]
    exact Nat.mod_eq_zero_of_dvd (Nat.dvd_sub (Nat.dvd_of_mod_eq_zero h) (hd.mul_left _))
  · rwa [hv]

/-- A byte merged below eight zeros is added. -/
theorem double_or_byte {v : BitVec 16} {b : Byte} (hv : v.toNat % 128 = 0) (hlt : v.toNat < 32768) :
    (v <<< 1 ||| b.setWidth 16).toNat = v.toNat * 2 + b.toNat := by
  obtain ⟨q, hq⟩ := Nat.dvd_of_mod_eq_zero hv
  have hb := b.isLt
  have hdouble : (v <<< 1).toNat = q <<< 8 := by
    rw [BitVec.toNat_shiftLeft, Nat.shiftLeft_eq, Nat.shiftLeft_eq]
    omega
  rw [BitVec.toNat_or, hdouble, BitVec.toNat_setWidth, Nat.mod_eq_of_lt (by omega),
    ← Nat.shiftLeft_add_eq_or_of_lt hb, Nat.shiftLeft_eq]
  omega

/-- A shift of an interval below 128 keeps the window: VALUE is doubled like RANGE, and a merged byte fills zeros. -/
theorem shiftOnce_window {stream : Memory 8} {c c' : Ctx} (h : shiftOnce stream c = .ok c') (hr : c.range < 128#8)
    (hz : c.Zeros) (hw : c.Window) : c'.Window := by
  have hlt : c.range.toNat < 128 := hr
  unfold Ctx.Window at hw ⊢
  obtain ⟨-, hrange, ⟨-, -, hv, -⟩ | ⟨h7, -, -, -, hv⟩⟩ := shiftOnce_ok h
  · rw [hrange, range_double hr, hv, BitVec.toNat_shiftLeft, Nat.shiftLeft_eq]
    omega
  · have hz7 : c.value.toNat % 128 = 0 := by
      unfold Ctx.Zeros at hz
      rwa [h7] at hz
    have hb := (stream.read c.pos.toNat).isLt
    rw [hrange, range_double hr, hv, double_or_byte hz7 (by omega)]
    omega

theorem normalise_window {stream : Memory 8} {fuel : Nat} {c c' : Ctx} (h : normalise stream fuel c = .ok c')
    (hz : c.Zeros) (hw : c.Window) : c'.Window := by
  induction fuel generalizing c with
  | zero => obtain rfl := Except.ok.inj h; exact hw
  | succ fuel ih =>
    rw [normalise_succ] at h
    split at h
    · next hr =>
      split at h
      · cases h
      · next c1 h1 => exact ih h (shiftOnce_zeros h1 hz) (shiftOnce_window h1 hr hz hw)
    · obtain rfl := Except.ok.inj h
      exact hw

theorem readBool_window {stream : Memory 8} {p : BitVec 8} {c c' : Ctx} {b : Bool}
    (h : readBool stream p c = .ok (b, c')) (hr : 128 ≤ c.range.toNat) (hz : c.Zeros) (hw : c.Window) : c'.Window :=
  normalise_window (readBool_ok h).2 (decideBit_zeros hr hz) (decideBit_window hr hw)

/-- The loaded word lies below 255 * 256 exactly when its first byte is not 0xFF (40_bd R138). -/
theorem append_bytes_lt_iff (hi lo : Byte) : (hi ++ lo : BitVec 16).toNat < 255 * 256 ↔ hi ≠ 0xFF#8 := by
  have hlo := lo.isLt
  have hhi := hi.isLt
  rw [append_bytes, ne_eq, ← BitVec.toNat_inj, show (0xFF#8).toNat = 255 from rfl]
  omega

/-- A completed BD_SEEK has loaded its context (40_bd R131). -/
theorem execBdSeek_completed {ctx : BitVec 4} {k : Fin 9} {s t : State} (hk : ctx.toNat = k.val)
    (h : execBdSeek ctx s = .next t) (ht : t.fault = false) :
    (t.ctx k).range = 255#8 ∧ (t.ctx k).value =
      s.stream.read (s.ctx k).startAddr.toNat ++ s.stream.read ((s.ctx k).startAddr.toNat + 1) := by
  rcases execBdSeek_cases h with ⟨-, rfl⟩ | ⟨-, rfl⟩ | ⟨hse, -, ⟨c, hc, rfl⟩ | ⟨e, -, rfl⟩⟩
  · cases ht
  · cases ht
  · rw [ofNat_ctx hk] at hse hc ⊢
    obtain ⟨-, rfl⟩ := seek_ok hc hse
    rw [State.ctx_complete, State.ctx_setCtx_same]
    exact ⟨rfl, rfl⟩
  · cases ht

/-- Settles O40: the first byte decides after BD_SEEK, and the decision and every shift keep the relation. -/
theorem windowRelationIsKept : Obligations.WindowRelationIsKept := by
  refine ⟨fun s t ctx k hk h _ _ ht => ?_, fun stream p c c' b hr hz hw h => readBool_window h hr hz hw⟩
  obtain ⟨hrange, hvalue⟩ := execBdSeek_completed hk h ht
  rw [hrange, hvalue]
  exact append_bytes_lt_iff _ _

end Sys2Proof.Machine
end

section
/-! PROOFS. Reads counted in commands: what BD_BOOL and BD_BIT answer one after the other is what the reads inside one command answer (O35, O43; 40_bd R134, R135; 41_td R170). -/

namespace Sys2Proof.Machine

/-! ## A state between two reads -/

/-- The state after reads through BD[CUR]: the current context, RESULT and CMDCNT may differ (40_bd R134). -/
def State.atRead (s : State) (c : Ctx) (v n : Word) : State := { s.setCtx s.cur c with result := v, cmdcnt := n }

theorem State.atRead_self (s : State) : s.atRead (s.ctx s.cur) s.result s.cmdcnt = s := by
  unfold State.atRead
  rw [State.setCtx_self]

@[simp] theorem State.atRead_ctx_cur (s : State) (c : Ctx) (v n : Word) :
    (s.atRead c v n).ctx (s.atRead c v n).cur = c := State.ctx_setCtx_same s s.cur c

/-- One more read replaces the current context once more. -/
theorem State.atRead_complete (s : State) (c c' : Ctx) (v v' n : Word) :
    { s.atRead c v n with result := v', bd := (s.atRead c v n).bd.set (s.atRead c v n).cur c', cmdcnt := n + 1 } =
      s.atRead c' v' (n + 1) :=
  congrArg (fun u : State => { u with result := v', cmdcnt := n + 1 }) (s.setCtx_setCtx s.cur c c')

/-! ## Answers of commands and of reads -/

/-- What commands answered from the state `s` mirrors what reads answered from its current context: both fail, or both answer, with
related values, and the commands leave the context the reads leave. -/
inductive State.Mirrors {α β : Type} (s : State) (R : α → β → Prop) :
    Option (α × State) → Except Trap (β × Ctx) → Prop
  | fails (e : Trap) : Mirrors s R none (.error e)
  | answers {x : α} {y : β} {c : Ctx} (v n : Word) (hR : R x y) (hi : c.init = true) :
      Mirrors s R (some (x, s.atRead c v n)) (.ok (y, c))

section
variable {α β α' β' : Type} {s : State} {R : α → β → Prop} {R' : α' → β' → Prop} {o : Option (α × State)}
  {e : Except Trap (β × Ctx)}

/-- One answer after the other. -/
theorem State.Mirrors.bind {f : α × State → Option (α' × State)} {g : β × Ctx → Except Trap (β' × Ctx)}
    (h : s.Mirrors R o e)
    (hfg : ∀ x y c v n, R x y → c.init = true → s.Mirrors R' (f (x, s.atRead c v n)) (g (y, c))) :
    s.Mirrors R' (o.bind f) (e.bind g) := by
  cases h with
  | fails t => exact .fails t
  | answers v n hR hi => exact hfg _ _ _ v n hR hi

/-- A value computed from the answer. -/
theorem State.Mirrors.map {f : α → α'} {g : β → β'} (h : s.Mirrors R o e) (hfg : ∀ x y, R x y → R' (f x) (g y)) :
    s.Mirrors R' (o.map fun r => (f r.1, r.2)) (e.bind fun r => .ok (g r.1, r.2)) := by
  cases h with
  | fails t => exact .fails t
  | answers v n hR hi => exact .answers v n (hfg _ _ hR) hi

/-- More is known of the value of a read that succeeded. -/
theorem State.Mirrors.imp {R₂ : α → β → Prop} (h : s.Mirrors R o e)
    (hR : ∀ x y c, e = .ok (y, c) → R x y → R₂ x y) : s.Mirrors R₂ o e := by
  cases h with
  | fails t => exact .fails t
  | answers v n h hi => exact .answers v n (hR _ _ _ rfl h) hi

theorem State.Mirrors.of_some {x : α} {u : State} (h : s.Mirrors R (some (x, u)) e) :
    ∃ y c v n, e = .ok (y, c) ∧ u = s.atRead c v n ∧ R x y := by
  cases h with
  | answers v n hR hi => exact ⟨_, _, v, n, rfl, rfl, hR⟩

theorem State.Mirrors.of_none (h : s.Mirrors R none e) : ∃ t, e = .error t := by
  cases h with
  | fails t => exact ⟨t, rfl⟩

end

/-! ## One bit -/

section
variable {s : State} (hf : s.fault = false)
include hf

/-- BD_BOOL answers what ReadBool answers (40_bd R134). -/
theorem bitOf_mirrors (p : Byte) {c : Ctx} (v n : Word) (hi : c.init = true) :
    s.Mirrors (fun x b => x = b.toNat) (Spec.bitOf p (s.atRead c v n)) (readBool s.stream p c) := by
  have hinit : ((s.atRead c v n).ctx (s.atRead c v n).cur).init = true := by rwa [State.atRead_ctx_cur]
  unfold Spec.bitOf
  cases h : readBool s.stream p c with
  | error e =>
    have hrun : exec (.bdBool p) (s.atRead c v n) = _ :=
      bdRead_readBool_error hinit (by rw [State.atRead_ctx_cur]; exact h)
    rw [hrun]
    exact .fails e
  | ok r =>
    obtain ⟨b, c'⟩ := r
    obtain ⟨m, -, ha⟩ := readBool_adv h
    have hrun : exec (.bdBool p) (s.atRead c v n) = _ :=
      bdRead_readBool_ok hinit (by rw [State.atRead_ctx_cur]; exact h)
    have hstep : exec (.bdBool p) (s.atRead c v n) = .next (s.atRead c' (if b then 1 else 0) (n + 1)) :=
      hrun.trans (congrArg _ (s.atRead_complete c c' v _ n))
    have hnf : ¬(s.atRead c' (if b then 1 else 0) (n + 1)).fault = true := by
      show ¬s.fault = true
      simp [hf]
    rw [hstep]
    dsimp only
    rw [if_neg hnf]
    exact .answers _ _ (by cases b <;> rfl) (ha.init.trans hi)

end

/-- A recorded fault stays, so no bit is answered (60_exceptions R257). -/
theorem bitOf_of_fault {s : State} (hf : s.fault = true) (p : Byte) : Spec.bitOf p s = none := by
  obtain ⟨t, ht⟩ := exec_next (.bdBool p) s
  have htf : t.fault = true := by
    rcases exec_ends ht with ⟨u, hw, rfl⟩ | ⟨u, e, -, -, rfl⟩
    · obtain ⟨-, hfault, -⟩ := hw.counter_fault
      exact hfault.trans hf
    · rfl
  rw [Spec.bitOf, ht]
  exact if_pos htf

/-! ## Several bits -/

theorem readBits_cons_bind (stream : Memory 8) (p : Byte) (ps : List Byte) (acc : Nat) (c : Ctx) :
    readBits stream (p :: ps) acc c =
      (readBool stream p c).bind fun r => readBits stream ps (acc * 2 + r.1.toNat) r.2 := by
  rw [readBits_cons]
  cases readBool stream p c <;> rfl

/-- BD_BIT is BD_BOOL 128 (40_bd R140). -/
theorem bitsRead_succ (k acc : Nat) (u : State) :
    Spec.bitsRead (k + 1) acc u = (Spec.bitOf 128 u).bind fun r => Spec.bitsRead k (acc * 2 + r.1) r.2 := by
  obtain ⟨t, ht⟩ := exec_next .bdBit u
  obtain ⟨hbool, -⟩ := bdBitEqualsBool128AndLit1 u t ht
  rw [Spec.bitsRead, Spec.bitOf, ht, hbool]
  cases hf : t.fault with
  | true => split_ifs <;> simp [hf]
  | false => simp [hf]

section
variable {s : State} (hf : s.fault = false)
include hf

theorem bitsOf_mirrors (ps : List Byte) (acc : Nat) {c : Ctx} (v n : Word) (hi : c.init = true) :
    s.Mirrors Eq (Spec.bitsOf ps acc (s.atRead c v n)) (readBits s.stream ps acc c) := by
  induction ps generalizing acc c v n with
  | nil => exact .answers v n rfl hi
  | cons p ps ih =>
    rw [readBits_cons_bind]
    refine (bitOf_mirrors hf p v n hi).bind fun x b c' v' n' hx hi' => ?_
    subst hx
    exact ih _ v' n' hi'

theorem bitsRead_mirrors (k acc : Nat) {c : Ctx} (v n : Word) (hi : c.init = true) :
    s.Mirrors Eq (Spec.bitsRead k acc (s.atRead c v n)) (readBits s.stream (List.replicate k 128#8) acc c) := by
  induction k generalizing acc c v n with
  | zero => exact .answers v n rfl hi
  | succ k ih =>
    rw [bitsRead_succ, List.replicate_succ, readBits_cons_bind]
    refine (bitOf_mirrors hf 128#8 v n hi).bind fun x b c' v' n' hx hi' => ?_
    subst hx
    exact ih _ v' n' hi'

end

/-- What a recorded BD_OVERRUN looks like (60_exceptions R250, R251, R257). -/
theorem State.raise_overrun {u : State} {w : Word} {e : Trap} (h : e.name = .bdOverrun) :
    (u.raise w e).fault = true ∧ (u.raise w e).fcode = 5 ∧ (u.raise w e).fclass = 2 := by
  rw [State.raise_fcode, State.raise_fclass, h]
  exact ⟨rfl, rfl, rfl⟩

/-- Settles O35: the BD_BIT commands mirror the reads of the literal. -/
theorem bdLitIsBitsMostSignificantFirst : Obligations.BdLitIsBitsMostSignificantFirst := by
  intro s n hf hi
  have hmirror := bitsRead_mirrors hf n.toNat 0 s.result s.cmdcnt hi
  rw [State.atRead_self] at hmirror
  refine ⟨fun v u hread => ?_, fun hread => ?_⟩
  · rw [hread] at hmirror
    obtain ⟨y, c, _, _, hbits, rfl, rfl⟩ := hmirror.of_some
    exact ⟨readLit_lt hbits, execBdLit_ok hi hbits⟩
  · rw [hread] at hmirror
    obtain ⟨e, he⟩ := hmirror.of_none
    obtain ⟨hfault, hcode, hclass⟩ := State.raise_overrun (u := s.scrambleRead) (w := encode (.bdLit n))
      (readBits_error_name he)
    exact ⟨_, bdRead_error hi (readLitWord_error.mpr he), hfault, hcode, hclass, rfl⟩

/-! ## One token -/

/-- The number of a token in the order EOB last (41_td R163). -/
def tokenNumber : Config.Token → Nat
  | .eob => 11
  | .dct m => m.val
  | .cat j => 5 + j.val

/-- A child of CTREE as the rows write it: an inner node by its number, a leaf as 100 plus its token's. -/
def childNumber : Config.Child → Nat
  | .inner k => k.val
  | .leaf tok => 100 + tokenNumber tok

theorem tokenNumber_eq_eleven_iff (tok : Config.Token) : tokenNumber tok = 11 ↔ tok = .eob := by
  cases tok with
  | eob => simp [tokenNumber]
  | dct m => simp [tokenNumber]; omega
  | cat j => simp [tokenNumber]; omega

theorem tokenNumber_eq_iff (tok : Config.Token) (m : Fin 5) : tokenNumber tok = m.val ↔ tok = .dct m := by
  cases tok with
  | eob => simp [tokenNumber]; omega
  | dct m' => simp [tokenNumber, Fin.ext_iff]
  | cat j => simp [tokenNumber]; omega

theorem tokenNumber_eq_zero_iff (tok : Config.Token) : tokenNumber tok = 0 ↔ tok = .dct 0 := tokenNumber_eq_iff tok 0

theorem tokenNumber_eq_one_iff (tok : Config.Token) : tokenNumber tok = 1 ↔ tok = .dct 1 := tokenNumber_eq_iff tok 1

/-- The rows of CTREE are the model's nodes (41_td R163). -/
theorem ctree_child : ∀ (k : Fin 11) (b : Bool),
    (if b.toNat = 0 then (Spec.ctree.getD k.val (0, 0)).1 else (Spec.ctree.getD k.val (0, 0)).2) =
      childNumber (romChild rom k b) := by decide

theorem walkToken_succ_bind (stream : Memory 8) (prob : Nat → Byte) (fuel : Nat) (k : Fin 11) (c : Ctx) :
    walkToken rom stream prob (fuel + 1) k c =
      (readBool stream (prob k.val) c).bind fun r =>
        match romChild rom k r.1 with
        | .leaf tok => .ok (tok, r.2)
        | .inner k' => walkToken rom stream prob fuel k' r.2 := by
  rw [walkToken_succ]
  cases readBool stream (prob k.val) c <;> rfl

section
variable {s : State} (hf : s.fault = false)
include hf

/-- The walk to a token, both ways with as many passes as the node is deep (41_td R170, R176). -/
theorem tokenOf_mirrors (prob : Nat → Byte) {fuel fuel' : Nat} {k : Fin 11} {c : Ctx} (v n : Word)
    (hfuel : tokenDepth k ≤ fuel) (hfuel' : tokenDepth k ≤ fuel') (hi : c.init = true) :
    s.Mirrors (fun x tok => x = tokenNumber tok) (Spec.tokenOf prob fuel k.val (s.atRead c v n))
      (walkToken rom s.stream prob fuel' k c) := by
  induction fuel generalizing fuel' k c v n with
  | zero => exact absurd (tokenDepth_pos k) (by omega)
  | succ fuel ih =>
    obtain ⟨f, rfl⟩ := Nat.exists_eq_add_of_le' ((tokenDepth_pos k).trans hfuel')
    rw [walkToken_succ_bind]
    refine (bitOf_mirrors hf (prob k.val) v n hi).bind fun x b c' v' n' hx hi' => ?_
    subst hx
    dsimp only
    rw [ctree_child]
    cases hchild : romChild rom k b with
    | leaf tok =>
      rw [if_pos (show 100 ≤ childNumber (.leaf tok) from Nat.le_add_right _ _)]
      exact .answers v' n' (Nat.add_sub_cancel_left ..) hi'
    | inner k' =>
      have hdepth := tokenDepth_child _ _ _ hchild
      rw [if_neg (Nat.not_le.mpr (show childNumber (.inner k') < 100 from k'.isLt.trans (by decide)))]
      exact ih v' n' (by omega) (by omega) hi'

end

/-! ## The level of a token -/

/-- The magnitude of a token, its extra bits read as BD_BOOL commands (41_td R166, R170). -/
def magOf (tok : Nat) (s : State) : Option (Nat × State) :=
  if tok ≤ 4 then some (tok, s)
  else (Spec.bitsOf (Spec.pcat.getD (tok - 5) []) 0 s).map fun r => (Spec.catbase.getD (tok - 5) 0 + r.1, r.2)

theorem levelOf_eq (tok : Nat) (s : State) :
    Spec.levelOf tok s =
      if tok = 0 then some (0, s)
      else (magOf tok s).bind fun m =>
        (Spec.bitOf 128 m.2).map fun r => (if r.1 = 1 then -(m.1 : Int) else m.1, r.2) := rfl

theorem tokenMag_cat (stream : Memory 8) (j : Fin 6) (c : Ctx) :
    tokenMag rom stream (.cat j) c =
      (readBits stream rom.cats[j].probs 0 c).bind fun r => .ok (rom.cats[j].base + r.1, r.2) := by
  unfold tokenMag
  dsimp only
  cases readBits stream rom.cats[j].probs 0 c <;> rfl

theorem tokenLevel_of_ne (stream : Memory 8) {tok : Config.Token} (h : tok ≠ .dct 0) (c : Ctx) :
    tokenLevel rom stream tok c =
      (tokenMag rom stream tok c).bind fun m =>
        (readBool stream 128#8 m.2).bind fun r => .ok (if r.1 then -(m.1 : Int) else m.1, r.2) := by
  unfold tokenLevel
  rw [if_neg h]
  cases tokenMag rom stream tok c with
  | error e => rfl
  | ok m => simp only [Except.bind]; cases readBool stream 128#8 m.2 <;> rfl

/-- CATBASE and PCAT (41_td R166). -/
theorem category_eq : ∀ j : Fin 6, Spec.pcat.getD j.val [] = rom.cats[j].probs ∧
    Spec.catbase.getD j.val 0 = rom.cats[j].base := by decide

section
variable {s : State} (hf : s.fault = false)
include hf

theorem magOf_mirrors {tok : Config.Token} (ht : tok ≠ .eob) {c : Ctx} (v n : Word) (hi : c.init = true) :
    s.Mirrors Eq (magOf (tokenNumber tok) (s.atRead c v n)) (tokenMag rom s.stream tok c) := by
  cases tok with
  | eob => exact absurd rfl ht
  | dct m =>
    rw [magOf, if_pos (show tokenNumber (.dct m) ≤ 4 from Nat.le_of_lt_succ m.isLt)]
    exact .answers v n rfl hi
  | cat j =>
    obtain ⟨hprobs, hbase⟩ := category_eq j
    rw [magOf, if_neg (Nat.not_le.mpr (show 4 < tokenNumber (.cat j) from Nat.le_add_right 5 _)),
      show tokenNumber (.cat j) - 5 = j.val from Nat.add_sub_cancel_left .., hprobs, hbase, tokenMag_cat]
    exact (bitsOf_mirrors hf _ 0 v n hi).map fun x y hxy => congrArg _ hxy

theorem levelOf_mirrors {tok : Config.Token} (ht : tok ≠ .eob) {c : Ctx} (v n : Word) (hi : c.init = true) :
    s.Mirrors Eq (Spec.levelOf (tokenNumber tok) (s.atRead c v n)) (tokenLevel rom s.stream tok c) := by
  rw [levelOf_eq]
  by_cases h0 : tok = .dct 0
  · subst h0
    exact .answers v n rfl hi
  · rw [if_neg (mt (tokenNumber_eq_zero_iff tok).mp h0), tokenLevel_of_ne _ h0]
    refine (magOf_mirrors hf ht v n hi).bind fun x y c' v' n' hxy hi' => ?_
    subst hxy
    refine (bitOf_mirrors hf 128#8 v' n' hi').map (R' := Eq) (f := fun r => if r = 1 then -(x : Int) else x)
      (g := fun b => if b then -(x : Int) else x) fun r b hr => ?_
    subst hr
    cases b <;> rfl

end

/-! ## The levels of a block -/

theorem tokens_succ_bind (stream cprob : Memory 8) (t left ctx : Nat) (entry : Fin 11) (c : Ctx) :
    tokens rom stream cprob t (left + 1) ctx entry c =
      (walkToken rom stream
          (fun k => cprob.read (cprobIx t (rom.band[Fin.ofNat 16 (15 - left)]).val ctx k)) 11 entry c).bind fun r =>
        if r.1 = .eob then .ok ([], r.2)
        else
          (tokenLevel rom stream r.1 r.2).bind fun w =>
            (tokens rom stream cprob t left (nextCtx r.1) (nextEntry r.1) w.2).bind fun z =>
              .ok (BitVec.ofInt 16 w.1 :: z.1, z.2) := by
  rw [tokens_succ]
  cases walkToken rom stream
      (fun k => cprob.read (cprobIx t (rom.band[Fin.ofNat 16 (15 - left)]).val ctx k)) 11 entry c with
  | error e => rfl
  | ok r =>
    simp only [Except.bind]
    split
    · rfl
    · cases tokenLevel rom stream r.1 r.2 with
      | error e => rfl
      | ok w => dsimp only; cases tokens rom stream cprob t left (nextCtx r.1) (nextEntry r.1) w.2 <;> rfl

theorem nextCtx_eq (tok : Config.Token) :
    (if tokenNumber tok = 0 then 0 else if tokenNumber tok = 1 then 1 else 2) = nextCtx tok := by
  simp only [nextCtx, tokenNumber_eq_zero_iff, tokenNumber_eq_one_iff]

theorem nextEntry_eq (tok : Config.Token) : (if tokenNumber tok = 0 then 1 else 0) = (nextEntry tok).val := by
  simp only [nextEntry, tokenNumber_eq_zero_iff]
  split <;> rfl

/-- BAND (41_td R165). -/
theorem band_eq : ∀ j : Fin 16, Spec.band.getD j.val 0 = (rom.band[j]).val := by decide

/-- The levels of a block, each ReadBool a BD_BOOL command (41_td R170, R172). -/
theorem levelsOf_mirrors {s : State} (hf : s.fault = false) (t left ctx : Nat) (entry : Fin 11) {c : Ctx} (v n : Word)
    (hi : c.init = true) :
    s.Mirrors (fun vs levels => vs = levels.map BitVec.toInt)
      (Spec.levelsOf t left ctx entry.val (s.atRead c v n)) (tokens rom s.stream s.cprob t left ctx entry c) := by
  induction left generalizing ctx entry c v n with
  | zero => exact .answers v n rfl hi
  | succ left ih =>
    have hband : Spec.band.getD (15 - left) 0 = (rom.band[Fin.ofNat 16 (15 - left)]).val := by
      rw [← band_eq, Fin.val_ofNat, Nat.mod_eq_of_lt (by omega)]
    have hdepth := tokenDepth_le entry
    rw [Spec.levelsOf, tokens_succ_bind, hband]
    refine (tokenOf_mirrors hf _ v n hdepth (by omega) hi).bind fun x tok c1 v1 n1 hx hi1 => ?_
    subst hx
    dsimp only
    by_cases heob : tok = .eob
    · rw [if_pos ((tokenNumber_eq_eleven_iff tok).mpr heob), if_pos heob]
      exact .answers v1 n1 rfl hi1
    · rw [if_neg (mt (tokenNumber_eq_eleven_iff tok).mp heob), if_neg heob, nextCtx_eq, nextEntry_eq]
      have hlevel := (levelOf_mirrors hf heob v1 n1 hi1).imp
        (R₂ := fun x y => x = (BitVec.ofInt 16 y).toInt) fun x y c' hy hxy => by
          rw [hxy, toInt_level (tokenLevel_read hy).2]
      refine hlevel.bind fun w y c2 v2 n2 hw hi2 => ?_
      refine (ih (nextCtx tok) (nextEntry tok) v2 n2 hi2).map (f := fun vs => w :: vs) fun vs levels hvs => ?_
      rw [hvs, List.map_cons, hw]

/-! ## TD_BLK -/

theorem firstPos_toNat (type : BitVec 2) : firstPos type.toNat = if type = 0 then 1 else 0 := by
  have h0 : type.toNat = 0 ↔ type = 0 := by rw [← BitVec.toNat_inj]; rfl
  simp only [firstPos, h0]

/-- The tokens TD_BLK reads from a state (41_td R169, R170). -/
def State.blockTokens (s : State) (blk : BitVec 5) (type : BitVec 2) (col : BitVec 10) :
    Except Trap (List (BitVec 16) × Ctx) :=
  tokens rom s.stream s.cprob type.toNat (16 - firstPos type.toNat) (firstCtx s.lnz (s.anz.read col.toNat) blk.toNat) 0
    s.curCtx

section
variable {blk : BitVec 5} {type : BitVec 2} {col : BitVec 10} {s : State} (hw : blk.toNat ≤ 24)
  (hi : s.curCtx.init = true)
include hw hi

/-- TD_BLK whose tokens are read (41_td R170, R171, R173). -/
theorem execTdBlk_ok {levels : List (BitVec 16)} {c : Ctx} (h : s.blockTokens blk type col = .ok (levels, c)) :
    execTdBlk blk type col s = .next { s with
      result := BitVec.ofNat 32 (firstPos type.toNat + levels.length)
      bd := s.bd.set s.cur c
      lnz := withFlag s.lnz (lBit blk.toNat) (decide (0 < levels.length))
      anz := s.anz.write col.toNat
        (withFlag (s.anz.read col.toNat) (aBit blk.toNat) (decide (0 < levels.length)))
      qcoef := s.qcoef.writeSeq (coefIx blk.toNat 0) (blockLevels (firstPos type.toNat) levels)
      cmdcnt := s.cmdcnt + 1 } := by
  refine (guardLegal_of_wf (i := .tdBlk blk type col) (blkLegal_iff.mpr hw)).trans ((if_pos hi).trans ?_)
  unfold State.blockTokens at h
  simp only [tdBlk, State.work, h]
  rfl

/-- TD_BLK whose tokens overrun (60_exceptions R257). -/
theorem execTdBlk_error {e : Trap} (h : s.blockTokens blk type col = .error e) :
    execTdBlk blk type col s =
      .next ((s.scrambleTdBlk blk.toNat col.toNat).raise (encode (.tdBlk blk type col)) e) := by
  refine (guardLegal_of_wf (i := .tdBlk blk type col) (blkLegal_iff.mpr hw)).trans ((if_pos hi).trans ?_)
  unfold State.blockTokens at h
  simp only [tdBlk, State.work, h]
  rfl

end

/-- The entries of a block after its levels are written: 0 before the first position and after the last level (41_td R170). -/
theorem read_blockLevels (m : Memory 16) {blk first j : Nat} {levels : List (BitVec 16)}
    (hlen : first + levels.length ≤ 16) (hj : j < 16) :
    ((m.writeSeq (coefIx blk 0) (blockLevels first levels)).read (blk * 16 + j)).toInt =
      if first ≤ j then (levels.map BitVec.toInt).getD (j - first) 0 else 0 := by
  have hix : blk * 16 + j - coefIx blk 0 = j := by unfold coefIx; omega
  have hmap : (levels.map BitVec.toInt).getD (j - first) 0 = (levels.getD (j - first) 0).toInt :=
    List.getD_map (f := BitVec.toInt) (d := 0) ..
  rw [Memory.read_writeSeq, blockLevels_length hlen, if_pos (by unfold coefIx; omega), hix, blockLevels_getD, hmap]
  by_cases h1 : first ≤ j
  · by_cases h2 : j < first + levels.length
    · rw [if_pos ⟨h1, h2⟩, if_pos h1]
    · rw [if_neg fun h => h2 h.2, if_pos h1, List.getD_eq_default _ _ (by omega)]
  · rw [if_neg fun h => h1 h.1, if_neg h1]
    rfl

/-- Settles O43: the token loop over BD_BOOL commands mirrors the tokens TD_BLK reads. -/
theorem tdBlkDecodesItsTokens : Obligations.TdBlkDecodesItsTokens := by
  intro s blk type col hblk hf hi first c0
  have hfirst : firstPos type.toNat = first := firstPos_toNat type
  have hc0 : firstCtx s.lnz (s.anz.read col.toNat) blk.toNat = c0 := by
    show _ = (s.lnz.getLsbD (Spec.lnzBit blk.toNat)).toNat + _
    rw [lnzBit_eq_lBit, anzBit_eq_aBit]
    rfl
  have hblock : tokens rom s.stream s.cprob type.toNat (16 - first) c0 0 (s.ctx s.cur) = s.blockTokens blk type col := by
    rw [State.blockTokens, hfirst, hc0]
    rfl
  have hmirror := levelsOf_mirrors hf type.toNat (16 - first) c0 0 s.result s.cmdcnt hi
  rw [State.atRead_self, Fin.val_zero, hblock] at hmirror
  refine ⟨fun vs u hlevels => ?_, fun hlevels => ?_⟩
  · rw [hlevels] at hmirror
    obtain ⟨levels, c, _, _, htokens, rfl, rfl⟩ := hmirror.of_some
    obtain ⟨-, hlen, -⟩ := tokens_read htokens
    have hpos := firstPos_le type.toNat
    have hnz : decide (levels.map BitVec.toInt ≠ []) = decide (0 < levels.length) :=
      decide_eq_decide.mpr (by rw [ne_eq, List.map_eq_nil_iff, List.length_pos_iff])
    rw [List.length_map, ← hfirst]
    refine ⟨_, _, _, execTdBlk_ok hblk hi htokens, fun j hj => read_blockLevels _ (by omega) hj, ?_, ?_⟩
    · rw [lnzBit_eq_lBit, withFlag_getLsbD _ _ _ (lBit_lt _), if_pos rfl, hnz]
    · rw [anzBit_eq_aBit, Memory.read_write_same, withFlag_getLsbD _ _ _ (aBit_lt _), if_pos rfl, hnz]
  · rw [hlevels] at hmirror
    obtain ⟨e, he⟩ := hmirror.of_none
    obtain ⟨hfault, hcode, hclass⟩ := State.raise_overrun (u := s.scrambleTdBlk blk.toNat col.toNat)
      (w := encode (.tdBlk blk type col)) (tokens_error_name he)
    exact ⟨_, execTdBlk_error hblk hi he, hfault, hcode, hclass, rfl⟩

end Sys2Proof.Machine
end

section
/-! PROOFS. The tree walk: its end on forward trees (O36), one node of it in commands (O37), and its bound (O39; 40_bd R137, R139). -/

namespace Sys2Proof.Machine

/-! ## BD_TREE by its walk -/

section
variable {start : BitVec 6} {s : State} (hi : (s.ctx s.cur).init = true) (hstart : start.toNat ≤ 62)
include hi hstart

theorem execBdTree_ok {v : Word} {c : Ctx}
    (h : treeWalk s.stream s.tree s.tprob (walkBound (s.ctx s.cur)) start.toNat (s.ctx s.cur) = .ok (v, c)) :
    execBdTree start s = .next ({ s.setCtx s.cur c with result := v } : State).complete :=
  (execBdTree_of_le hstart).trans (bdRead_ok hi h)

theorem execBdTree_error {e : Trap}
    (h : treeWalk s.stream s.tree s.tprob (walkBound (s.ctx s.cur)) start.toNat (s.ctx s.cur) = .error e) :
    execBdTree start s = .next (s.scrambleRead.raise (encode (.bdTree start)) e) :=
  (execBdTree_of_le hstart).trans (bdRead_error hi h)

end

/-- A number below 2^32 as a word. -/
theorem toNat_ofInt_word {x : Int} (h0 : 0 ≤ x) (h : x < 2 ^ 32) : (BitVec.ofInt 32 x).toNat = x.toNat := by
  rw [BitVec.toNat_ofInt, Int.emod_eq_of_lt h0 (by push_cast; exact h)]

/-! ## Forward trees (40_bd R137) -/

/-- From index `i` on every entry is a leaf or leads to a larger index up to 62. -/
def Forward (tree : Memory 8) (i : Nat) : Prop :=
  ∀ j, i ≤ j → j ≤ 63 → (tree.read j).toInt < 0 ∨ ((j : Int) < (tree.read j).toInt ∧ (tree.read j).toInt ≤ 62)

theorem Forward.mono {tree : Memory 8} {i j : Nat} (h : Forward tree i) (hij : i ≤ j) : Forward tree j :=
  fun k hk => h k (hij.trans hk)

/-- A leaf symbol is 1 to 128 (40_bd R137). -/
theorem leaf_bounds {b : Byte} (h : b.toInt < 0) :
    1 ≤ (BitVec.ofInt 32 (-b.toInt)).toNat ∧ (BitVec.ofInt 32 (-b.toInt)).toNat ≤ 128 := by
  have hb : -128 ≤ b.toInt := b.le_toInt
  rw [toNat_ofInt_word (by omega) (by omega)]
  omega

/-- The index grows at every node, so a forward walk ends within the nodes left, seven shifts each. -/
theorem treeWalk_forward {stream tree tprob : Memory 8} {fuel i : Nat} {c : Ctx} (hfwd : Forward tree i) (hi : i ≤ 62)
    (hfuel : 63 ≤ i + fuel) (hs : c.shifted + 7 * (63 - i) ≤ 8 * c.endAddr.toNat + 7) :
    ∃ v c', treeWalk stream tree tprob fuel i c = .ok (v, c') ∧ 1 ≤ v.toNat ∧ v.toNat ≤ 128 := by
  induction fuel generalizing i c with
  | zero => omega
  | succ fuel ih =>
    obtain ⟨b, c1, h1⟩ := readBool_succeeds (stream := stream) (tprob.read (i / 2)) (c := c) (by omega)
    obtain ⟨n, hn, ha⟩ := readBool_adv h1
    have hb : b.toNat ≤ 1 := Bool.toNat_le b
    rw [treeWalk_succ, if_neg (by omega), h1]
    dsimp only
    rcases hfwd (i + b.toNat) (by omega) (by omega) with hleaf | ⟨hlt, hle⟩
    · rw [if_pos hleaf]
      exact ⟨_, c1, rfl, leaf_bounds hleaf⟩
    · rw [if_neg (by omega)]
      refine ih (hfwd.mono (by omega)) (by omega) (by omega) ?_
      rw [ha.shifted, ha.endAddr]
      omega

/-- Settles O36: 63 nodes at most, of seven shifts at most, fit into 56 bytes. -/
theorem bdTreeCompletesOnForwardTrees : Obligations.BdTreeCompletesOnForwardTrees := by
  intro s start hi hr hstart hfwd hleft
  have hbits := (s.ctx s.cur).bitcnt.isLt
  obtain ⟨v, c, h, hv⟩ := treeWalk_forward (stream := s.stream) (tprob := s.tprob)
    (fuel := walkBound (s.ctx s.cur)) (c := s.ctx s.cur) hfwd hstart (by unfold walkBound; omega)
    (by unfold Ctx.shifted; omega)
  exact ⟨v, c, execBdTree_ok hi hstart h, hv⟩

/-! ## One node of the walk (40_bd R137) -/

section
variable {stream tree tprob : Memory 8} {i : Nat} {c : Ctx}

/-- The bound of R139 leaves room for a node. -/
theorem walkBound_eq_succ (c : Ctx) : ∃ n, walkBound c = n + 1 :=
  ⟨walkBound c - 1, by unfold walkBound; omega⟩

theorem treeWalk_outside (hi : 62 < i) :
    treeWalk stream tree tprob (walkBound c) i c = .error ⟨.treeRange, BitVec.ofNat 32 i⟩ := by
  obtain ⟨n, hn⟩ := walkBound_eq_succ c
  rw [hn, treeWalk_succ, if_pos hi]

theorem treeWalk_overrun {e : Trap} (hi : i ≤ 62) (h : readBool stream (tprob.read (i / 2)) c = .error e) :
    treeWalk stream tree tprob (walkBound c) i c = .error e := by
  obtain ⟨n, hn⟩ := walkBound_eq_succ c
  rw [hn, treeWalk_succ, if_neg (Nat.not_lt.mpr hi), h]

/-- The rest of a walk is the walk from the next index and the context the read left: what is left of the bound is enough for it
(40_bd R139). -/
theorem treeWalk_node {b : Bool} {c1 : Ctx} (hi : i ≤ 62) (hr : 128 ≤ c.range.toNat)
    (hp : c.pos.toNat ≤ c.endAddr.toNat) (h : readBool stream (tprob.read (i / 2)) c = .ok (b, c1)) :
    treeWalk stream tree tprob (walkBound c) i c =
      if (tree.read (i + b.toNat)).toInt < 0 then .ok (BitVec.ofInt 32 (-(tree.read (i + b.toNat)).toInt), c1)
      else treeWalk stream tree tprob (walkBound c1) (tree.read (i + b.toNat)).toInt.toNat c1 := by
  obtain ⟨n, hn⟩ := walkBound_eq_succ c
  obtain ⟨_, -, ha⟩ := readBool_adv h
  have hused := readBool_readsLeft h hr hp
  have hbound := readsLeft_le_walkBound hp
  have hbound1 := readsLeft_le_walkBound (ha.inRange hp)
  rw [hn, treeWalk_succ, if_neg (Nat.not_lt.mpr hi), h]
  dsimp only
  rw [treeWalk_stable (fuel' := walkBound c1) c1.readsLeft _ (readBool_range h hr) (ha.inRange hp) le_rfl (by omega)
    hbound1]

end

/-- The next index as the operand of BD_TREE. -/
theorem toNat_ofInt_start {x : Int} (h0 : 0 ≤ x) (h : x ≤ 62) : (BitVec.ofInt 6 x).toNat = x.toNat := by
  rw [BitVec.toNat_ofInt, Int.emod_eq_of_lt h0 (by omega)]

/-- Two commands that reach the same fault record the same code, class and information (60_exceptions R257). -/
theorem State.raise_same_trap (s s' : State) (w w' : Word) (e : Trap) :
    (s.raise w e).fcode = (s'.raise w' e).fcode ∧ (s.raise w e).fclass = (s'.raise w' e).fclass ∧
      (s.raise w e).finfo = (s'.raise w' e).finfo := ⟨rfl, rfl, rfl⟩

/-- A walk that goes on as the walk of BD_TREE from the next index, from the state the node's read left, completes or faults as that
command does. -/
theorem execBdTree_continues {s t : State} {start next : BitVec 6} {c : Ctx} {v n : Word} (hf : s.fault = false)
    (hi : (s.ctx s.cur).init = true) (hstart : start.toNat ≤ 62) (hic : c.init = true) (hnext : next.toNat ≤ 62)
    (hwalk : treeWalk s.stream s.tree s.tprob (walkBound (s.ctx s.cur)) start.toNat (s.ctx s.cur) =
      treeWalk s.stream s.tree s.tprob (walkBound c) next.toNat c)
    (ht : exec (.bdTree next) (s.atRead c v n) = .next t) :
    (t.fault = false → exec (.bdTree start) s = .next { t with cmdcnt := s.cmdcnt + 1 }) ∧
      (t.fault = true → ∃ t', exec (.bdTree start) s = .next t' ∧ t'.fault = true ∧ t'.fcode = t.fcode ∧
        t'.fclass = t.fclass ∧ t'.finfo = t.finfo ∧ t'.fcmd = encode (.bdTree start) ∧ t'.cmdcnt = s.cmdcnt) := by
  have hcur : (s.atRead c v n).curCtx = c := State.atRead_ctx_cur ..
  rcases bdRead_cases ((execBdTree_of_le hnext).symm.trans ht) with
    ⟨huninit, -⟩ | ⟨-, w, c', hread, rfl⟩ | ⟨-, e, hread, rfl⟩
  · rw [hcur, hic] at huninit
    cases huninit
  · rw [hcur] at hread
    refine ⟨fun _ => (execBdTree_ok hi hstart (hwalk.trans hread)).trans ?_,
      fun hfault => absurd (hf.symm.trans hfault) Bool.false_ne_true⟩
    exact congrArg (fun u : State => Host.Outcome.next { u with result := w, cmdcnt := s.cmdcnt + 1 })
      (s.setCtx_setCtx s.cur c c').symm
  · rw [hcur] at hread
    obtain ⟨hcode, hclass, hinfo⟩ := State.raise_same_trap s.scrambleRead (s.atRead c v n).scrambleRead
      (encode (.bdTree start)) (encode (.bdTree next)) e
    exact ⟨nofun, fun _ => ⟨_, execBdTree_error hi hstart (hwalk.trans hread), rfl, hcode, hclass, hinfo, rfl, rfl⟩⟩

/-- Settles O37, by the outcome of the node's read, and then by the entry it leads to. -/
theorem bdTreeWalksOneNodeAtATime : Obligations.BdTreeWalksOneNodeAtATime := by
  intro s u start hinv hf hi hstart hu e
  obtain ⟨-, hpos, -, hrange, -⟩ := hinv.ctxs hf s.cur hi
  cases h : readBool s.stream (s.tprob.read (start.toNat / 2)) (s.ctx s.cur) with
  | error trap =>
    obtain rfl := Host.Outcome.next.inj (hu.symm.trans (bdRead_readBool_error hi h))
    have hrun := execBdTree_error hi hstart (treeWalk_overrun (tree := s.tree) hstart h)
    obtain ⟨hfault, hcode, hclass⟩ := State.raise_overrun (u := s.scrambleRead) (w := encode (.bdTree start))
      (readBool_error_name h)
    obtain ⟨-, -, hinfo⟩ := State.raise_same_trap s.scrambleRead s.scrambleRead (encode (.bdTree start))
      (encode (.bdBool (s.tprob.read (start.toNat / 2)))) trap
    have hnot {P : Prop} (hnf : (s.scrambleRead.raise (encode (.bdBool (s.tprob.read (start.toNat / 2)))) trap).fault
        = false) : P := absurd rfl (Bool.eq_false_iff.mp hnf)
    exact ⟨fun _ => ⟨_, hrun, hfault, hcode, hclass, hinfo, rfl, rfl⟩, hnot, hnot, hnot⟩
  | ok r =>
    obtain ⟨b, c⟩ := r
    obtain rfl : u = s.atRead c (if b then 1 else 0) (s.cmdcnt + 1) :=
      Host.Outcome.next.inj (hu.symm.trans (bdRead_readBool_ok hi h))
    obtain ⟨_, -, ha⟩ := readBool_adv h
    have hentry : (s.tree.read (start.toNat + b.toNat)).toInt = e := by cases b <;> rfl
    have hnode := treeWalk_node (tree := s.tree) hstart hrange hpos h
    rw [hentry] at hnode
    refine ⟨fun hfault => absurd (hf.symm.trans hfault) Bool.false_ne_true, fun _ hleaf => ?_, fun _ h0 h62 t ht => ?_,
      fun _ h63 => ?_⟩
    · exact execBdTree_ok hi hstart (hnode.trans (if_pos hleaf))
    · have hnext := toNat_ofInt_start h0 h62
      refine execBdTree_continues hf hi hstart (ha.init.trans hi) (by omega) ?_ ht
      rw [hnode, if_neg (Int.not_lt.mpr h0), hnext]
    · have hout : 62 < e.toNat := by omega
      have hinfo : BitVec.ofNat 32 e.toNat = BitVec.ofInt 32 e := by
        rw [← BitVec.ofInt_natCast, Int.toNat_of_nonneg (by omega)]
      rw [if_neg (by omega), treeWalk_outside hout] at hnode
      exact ⟨_, execBdTree_error hi hstart hnode, rfl, rfl, rfl, hinfo, rfl, rfl⟩

/-! ## The bound of R139 -/

/-- Every one of several reads uses up one of the reads left. -/
theorem readBits_readsLeft {stream : Memory 8} {ps : List Byte} {acc v : Nat} {c c' : Ctx}
    (h : readBits stream ps acc c = .ok (v, c')) (hr : 128 ≤ c.range.toNat) (hp : c.pos.toNat ≤ c.endAddr.toNat) :
    ps.length + c'.readsLeft ≤ c.readsLeft := by
  induction ps generalizing acc c with
  | nil =>
    obtain ⟨-, rfl⟩ := Prod.mk.inj (Except.ok.inj h)
    exact (Nat.zero_add _).le
  | cons p ps ih =>
    rw [readBits_cons] at h
    split at h
    · cases h
    · next b c1 h1 =>
      obtain ⟨_, -, ha⟩ := readBool_adv h1
      have hused := readBool_readsLeft h1 hr hp
      have hrest := ih h (readBool_range h1 hr) (ha.inRange hp)
      rw [List.length_cons]
      omega

/-- With a pass for every read left a walk comes to its end, after no more reads than passes. -/
theorem walkReads_of_readsLeft {stream tree tprob : Memory 8} {fuel i : Nat} {c : Ctx} (hr : 128 ≤ c.range.toNat)
    (hp : c.pos.toNat ≤ c.endAddr.toNat) (hfuel : c.readsLeft ≤ fuel) :
    ∃ n, Spec.walkReads stream tree tprob fuel i c = some n ∧ n ≤ fuel := by
  induction fuel generalizing i c with
  | zero =>
    have hleft := readsLeft_pos hr
    omega
  | succ fuel ih =>
    unfold Spec.walkReads
    by_cases hi : 62 < i
    · exact ⟨0, if_pos hi, by omega⟩
    · rw [if_neg hi]
      cases h : readBool stream (tprob.read (i / 2)) c with
      | error e => exact ⟨0, rfl, by omega⟩
      | ok r =>
        obtain ⟨b, c1⟩ := r
        obtain ⟨_, -, ha⟩ := readBool_adv h
        have hused := readBool_readsLeft h hr hp
        obtain ⟨n, hn, hle⟩ := ih (i := (tree.read (i + b.toNat)).toInt.toNat) (readBool_range h hr) (ha.inRange hp)
          (by omega)
        by_cases hleaf : (tree.read (i + b.toNat)).toInt < 0
        · exact ⟨1, if_pos hleaf, by omega⟩
        · refine ⟨n + 1, (if_neg hleaf).trans ?_, by omega⟩
          rw [hn]
          rfl

/-- Settles O39: the reads left of a context bound its BD_BOOL commands and the passes of its walks. -/
theorem bdTreeEndsWithinTheBound : Obligations.BdTreeEndsWithinTheBound := by
  refine ⟨fun s u ps v hi hr hp hbits => ?_, fun stream tree tprob i m c hr hp => ?_⟩
  · cases hf : s.fault with
    | true =>
      cases ps with
      | nil => exact Nat.zero_le _
      | cons p ps =>
        rw [Spec.bitsOf, bitOf_of_fault hf] at hbits
        cases hbits
    | false =>
      have hmirror := bitsOf_mirrors hf ps 0 s.result s.cmdcnt hi
      rw [State.atRead_self, hbits] at hmirror
      obtain ⟨_, c, _, _, hread, -, -⟩ := hmirror.of_some
      exact (Nat.le_add_right _ _).trans ((readBits_readsLeft hread hr hp).trans (readsLeft_le_walkBound hp))
  · have hbound := readsLeft_le_walkBound hp
    exact ⟨walkReads_of_readsLeft hr hp hbound,
      treeWalk_stable c.readsLeft i hr hp le_rfl (hbound.trans (Nat.le_add_right _ m)) hbound⟩

end Sys2Proof.Machine
end

section
/-! PROOFS. The commands of the token decoder on one block or none: TD_RST (O28), TD_MB with SKIP = 1 (O45), and TD_BLK by its working set (O42, O44; 41_td R161 to R177). -/

namespace Sys2Proof.Machine

/-! ## Commands that clear flags and coefficients -/

/-- Settles O28, by what a cleared range reads as. -/
theorem tdRstClearsTheNeighbourFlags : Obligations.TdRstClearsTheNeighbourFlags := by
  refine fun s => ⟨s.anz.clear 0 1024, rfl, fun col hcol => ?_⟩
  rw [Memory.read_clear, if_pos (by omega)]

/-- The mask of a skipped macroblock covers the flags 7:0, and the Y2 flag with a Y2 block (41_td R177). -/
theorem skipMask_getLsbD : ∀ hasy2 : Bool, ∀ j < 9, (skipMask hasy2).getLsbD j = (decide (j ≠ 8) || hasy2) := by decide

/-- Of the flags, a skipped macroblock leaves the Y2 flag at most, and that without a Y2 block (41_td R177). -/
theorem getLsbD_and_not_skipMask (v : BitVec 9) (hasy2 : Bool) {j : Nat} (hj : j < 9) :
    (v &&& ~~~(skipMask hasy2)).getLsbD j = (decide (j = 8) && !hasy2 && v.getLsbD j) := by
  rw [BitVec.getLsbD_and, BitVec.getLsbD_not, skipMask_getLsbD hasy2 j hj, decide_eq_true hj]
  by_cases h8 : j = 8
  · simp [h8, Bool.and_comm]
  · simp [h8]

/-- Settles O45, by the one next state of a skipped macroblock. -/
theorem tdMbSkipClearsTheMacroblock : Obligations.TdMbSkipClearsTheMacroblock := by
  intro s seg col hasy2
  refine ⟨s.qcoef.clear 0 400, s.coef.clear 0 400, s.lnz &&& ~~~(skipMask hasy2),
    s.anz.write col.toNat (s.anz.read col.toNat &&& ~~~(skipMask hasy2)), execTdMb_skip seg col hasy2 s, fun a ha => ?_,
    fun j hj => ?_, fun x hx => Memory.read_write_ne _ _ hx⟩
  · exact ⟨by rw [Memory.read_clear, if_pos (by omega)], by rw [Memory.read_clear, if_pos (by omega)]⟩
  · rw [Memory.read_write_same]
    exact ⟨getLsbD_and_not_skipMask _ _ hj, getLsbD_and_not_skipMask _ _ hj⟩

/-! ## The working set put back -/

/-- The state after token commands at column `col` that left the working set `a`: RESULT and CMDCNT may differ too
(41_td R171, R177). -/
def State.atWork (s : State) (col : Nat) (a : Work) (v n : Word) : State :=
  { s.putWork col a with result := v, cmdcnt := n }

@[simp] theorem State.atWork_work (s : State) (col : Nat) (a : Work) (v n : Word) : (s.atWork col a v n).work col = a := by
  have hctx : (s.atWork col a v n).curCtx = a.ctx := State.ctx_setCtx_same s s.cur a.ctx
  have hanz : (s.atWork col a v n).anz.read col = a.anz := Memory.read_write_same ..
  rw [State.work, hctx, hanz]
  rfl

/-- Of two working sets put back at one column the second stays. -/
@[simp] theorem State.atWork_atWork (s : State) (col : Nat) (a b : Work) (v w m n : Word) :
    (s.atWork col a v m).atWork col b w n = s.atWork col b w n := by
  have hbd : (s.atWork col a v m).setCtx (s.atWork col a v m).cur b.ctx =
      { s.atWork col a v m with bd := (s.setCtx s.cur b.ctx).bd } := by
    rw [← s.setCtx_setCtx s.cur a.ctx b.ctx]
    rfl
  have hanz : (s.atWork col a v m).anz.write col b.anz = s.anz.write col b.anz := Memory.write_write_same ..
  rw [State.atWork, State.putWork, hbd, hanz]
  rfl

@[simp] theorem State.atWork_ctx_cur (s : State) (col : Nat) (a : Work) (v n : Word) :
    (s.atWork col a v n).ctx s.cur = a.ctx := State.ctx_setCtx_same s s.cur a.ctx

@[simp] theorem State.atWork_anz_same (s : State) (col : Nat) (a : Work) (v n : Word) :
    (s.atWork col a v n).anz.read col = a.anz := Memory.read_write_same ..

theorem State.atWork_anz_ne (s : State) {col x : Nat} (a : Work) (v n : Word) (h : x ≠ col) :
    (s.atWork col a v n).anz.read x = s.anz.read x := Memory.read_write_ne _ _ h

/-! ## TD_BLK by its working set -/

section
variable {blk : BitVec 5} {type : BitVec 2} {col : BitVec 10} {s : State} (hw : blk.toNat ≤ 24)
  (hi : s.curCtx.init = true)
include hw hi

/-- TD_BLK puts back what TdBlk leaves of the working set (41_td R171). -/
theorem execTdBlk_of_tdBlk_ok {n : Nat} {nz : Bool} {a : Work}
    (h : tdBlk rom s.stream s.cprob blk.toNat type.toNat (s.work col.toNat) = .ok (n, nz, a)) :
    execTdBlk blk type col s = .next (s.atWork col.toNat a (BitVec.ofNat 32 n) (s.cmdcnt + 1)) := by
  refine (guardLegal_of_wf (i := .tdBlk blk type col) (blkLegal_iff.mpr hw)).trans ((if_pos hi).trans ?_)
  rw [h]
  rfl

/-- TD_BLK raises the fault of TdBlk (60_exceptions R257). -/
theorem execTdBlk_of_tdBlk_error {e : Trap}
    (h : tdBlk rom s.stream s.cprob blk.toNat type.toNat (s.work col.toNat) = .error e) :
    execTdBlk blk type col s =
      .next ((s.scrambleTdBlk blk.toNat col.toNat).raise (encode (.tdBlk blk type col)) e) := by
  refine (guardLegal_of_wf (i := .tdBlk blk type col) (blkLegal_iff.mpr hw)).trans ((if_pos hi).trans ?_)
  rw [h]
  rfl

end

section
variable {stream cprob : Memory 8} {blk t n : Nat} {a a' : Work} {nz : Bool}
  (h : tdBlk rom stream cprob blk t a = .ok (n, nz, a'))
include h

/-- RESULT of a block lies between its first position and 16 (41_td R170). -/
theorem tdBlk_result_bounds : firstPos t ≤ n ∧ n ≤ 16 := by
  obtain ⟨levels, -, hn, hn16, -⟩ := tdBlk_ok h
  omega

/-- The answer `nz` says whether a token other than EOB was decoded (41_td R173). -/
theorem tdBlk_nz : nz = decide (firstPos t < n) := by
  obtain ⟨levels, -, hn, -, hnz, -⟩ := tdBlk_ok h
  rw [hnz, decide_eq_decide]
  omega

/-- Both flags of the block hold `nz` (41_td R173). -/
theorem tdBlk_flags : a'.lnz.getLsbD (lBit blk) = nz ∧ a'.anz.getLsbD (aBit blk) = nz := by
  obtain ⟨levels, -, -, -, -, -, ha⟩ := tdBlk_ok h
  rw [ha]
  exact ⟨(withFlag_getLsbD _ _ _ (lBit_lt blk)).trans (if_pos rfl),
    (withFlag_getLsbD _ _ _ (aBit_lt blk)).trans (if_pos rfl)⟩

/-- Before the first position and from the last on a block is 0 (41_td R170). -/
theorem tdBlk_zeros {j : Nat} (hj : j < 16) (hout : j < firstPos t ∨ n ≤ j) : a'.qcoef.read (blk * 16 + j) = 0 := by
  obtain ⟨levels, -, hn, hn16, -, -, ha⟩ := tdBlk_ok h
  have hread := read_blockLevels a.qcoef (blk := blk) (levels := levels) (hn ▸ hn16) hj
  rw [ha]
  refine BitVec.eq_of_toInt_eq (hread.trans ?_)
  rcases Nat.lt_or_ge j (firstPos t) with hlt | hge
  · exact if_neg (by omega)
  · rw [if_pos hge, List.getD_eq_default _ _ (by rw [List.length_map]; omega)]
    rfl

/-- Every level of the block is between -2114 and 2114 (41_td R174). -/
theorem tdBlk_level_bounds {j : Nat} (hj : j < 16) :
    -2114 ≤ (a'.qcoef.read (blk * 16 + j)).toInt ∧ (a'.qcoef.read (blk * 16 + j)).toInt ≤ 2114 := by
  by_cases hout : j < firstPos t ∨ n ≤ j
  · rw [tdBlk_zeros h hj hout]
    decide
  · obtain ⟨levels, -, hn, hn16, -, hlevels, ha⟩ := tdBlk_ok h
    have hread := read_blockLevels a.qcoef (blk := blk) (levels := levels) (hn ▸ hn16) hj
    have hix : j - firstPos t < levels.length := by omega
    rw [if_pos (by omega), List.getD_eq_getElem _ _ (by rwa [List.length_map]), List.getElem_map] at hread
    rw [ha, hread]
    exact hlevels _ (List.getElem_mem hix)

/-- TdBlk leaves every level outside its block (41_td R170). -/
theorem tdBlk_qcoef_outside {x : Nat} (hx : x < blk * 16 ∨ blk * 16 + 16 ≤ x) : a'.qcoef.read x = a.qcoef.read x := by
  obtain ⟨levels, -, hn, hn16, -, -, ha⟩ := tdBlk_ok h
  rw [ha, Memory.read_writeSeq, blockLevels_length (hn ▸ hn16), if_neg (by unfold coefIx; omega)]

end

/-- Settles O42: 266 bytes hold the 2128 shifts a block can take. -/
theorem tdBlkCompletes : Obligations.TdBlkCompletes := by
  intro s blk type col hblk hi hr hbytes first
  have hfirst : firstPos type.toNat = first := firstPos_toNat type
  have hbit := (s.ctx s.cur).bitcnt.isLt
  obtain ⟨n, nz, a, h⟩ := tdBlk_succeeds (stream := s.stream) (cprob := s.cprob) blk.toNat type.toNat
    (a := s.work col.toNat) (show (s.ctx s.cur).shifted + 2128 ≤ 8 * (s.ctx s.cur).endAddr.toNat + 7 by
      unfold Ctx.shifted; omega)
  obtain ⟨_, hread, -⟩ := tdBlk_ok h
  obtain ⟨m, hm, hadv⟩ := hread.adv
  obtain ⟨hn, hn16⟩ := tdBlk_result_bounds h
  obtain ⟨hlnz, hanz⟩ := tdBlk_flags h
  have hpos : a.ctx.pos.toNat ≤ (s.ctx s.cur).pos.toNat + 266 := by
    have hshift : a.ctx.shifted = (s.ctx s.cur).shifted + m := hadv.shifted
    unfold Ctx.shifted at hshift
    omega
  refine ⟨_, n, execTdBlk_of_tdBlk_ok hblk hi h, rfl, rfl, Nat.mod_eq_of_lt (by omega), hfirst ▸ hn, hn16, ?_,
    fun j hj => ?_, ?_, ?_⟩
  · rwa [State.atWork_ctx_cur]
  · obtain ⟨hlo, hhi⟩ := tdBlk_level_bounds h hj
    exact ⟨hlo, hhi, fun hout => tdBlk_zeros h hj (hfirst ▸ hout)⟩
  · rw [lnzBit_eq_lBit, ← hfirst, ← tdBlk_nz h]
    exact hlnz
  · rw [anzBit_eq_aBit, State.atWork_anz_same, ← hfirst, ← tdBlk_nz h]
    exact hanz

/-! ## A block that ends at its first decision -/

/-- Both first positions are their own band (41_td R161, R165). -/
theorem band_firstPos (t : Nat) : (rom.band[Fin.ofNat 16 (15 - (15 - firstPos t))]).val = firstPos t := by
  unfold firstPos
  split <;> rfl

/-- A first decision of 0 is EOB: no level, and no flag (41_td R169, R170, R173). -/
theorem tdBlk_of_eob {stream cprob : Memory 8} {blk t : Nat} {a : Work} {c : Ctx}
    (h : readBool stream (cprob.read (cprobIx t (firstPos t) (firstCtx a.lnz a.anz blk) 0)) a.ctx = .ok (false, c)) :
    ∃ a', tdBlk rom stream cprob blk t a = .ok (firstPos t, false, a') ∧ a'.ctx = c := by
  have hfirst := firstPos_le t
  have htokens : tokens rom stream cprob t (16 - firstPos t) (firstCtx a.lnz a.anz blk) 0 a.ctx = .ok ([], c) := by
    rw [show 16 - firstPos t = 15 - firstPos t + 1 by omega]
    refine tokens_of_eob ?_
    rwa [band_firstPos]
  rw [tdBlk, htokens]
  exact ⟨_, rfl, rfl⟩

/-- A BD_BOOL that completes with RESULT 0 read a 0 (40_bd R134). -/
theorem exec_bdBool_zero {s u : State} {p : BitVec 8} (h : exec (.bdBool p) s = .next u) (hf : u.fault = false)
    (hres : u.result = 0) : ∃ c, readBool s.stream p s.curCtx = .ok (false, c) ∧ u.bd = (s.setCtx s.cur c).bd := by
  rcases bdRead_cases h with ⟨-, rfl⟩ | ⟨-, v, c, hv, rfl⟩ | ⟨-, e, -, rfl⟩
  · cases hf
  · obtain ⟨b, hb, rfl⟩ := readBoolWord_ok hv
    cases b with
    | false => exact ⟨c, hb, rfl⟩
    | true => exact absurd (show 1#32 = 0 from hres) (by decide)
  · cases hf

/-- Settles O44: BD_BOOL makes the first decision of the block. -/
theorem tdBlkEndsAtAnImmediateEob : Obligations.TdBlkEndsAtAnImmediateEob := by
  intro s blk type col u hblk hi first c0 hf hbool huf hres
  have hfirst : firstPos type.toNat = first := firstPos_toNat type
  have hc0 : firstCtx s.lnz (s.anz.read col.toNat) blk.toNat = c0 := by
    show _ = (s.lnz.getLsbD (Spec.lnzBit blk.toNat)).toNat + _
    rw [lnzBit_eq_lBit, anzBit_eq_aBit]
    rfl
  obtain ⟨c, hread, hbd⟩ := exec_bdBool_zero hbool huf hres
  rw [← hfirst, ← hc0] at hread
  obtain ⟨a, h, rfl⟩ := tdBlk_of_eob (a := s.work col.toNat) hread
  obtain ⟨hlnz, hanz⟩ := tdBlk_flags h
  refine ⟨_, execTdBlk_of_tdBlk_ok hblk hi h, hf, rfl, congrArg (BitVec.ofNat 32) hfirst, hbd.symm,
    fun j hj => tdBlk_zeros h hj (Nat.lt_or_ge _ _), ?_, ?_⟩
  · rw [lnzBit_eq_lBit]
    exact hlnz
  · rw [anzBit_eq_aBit, State.atWork_anz_same]
    exact hanz

end Sys2Proof.Machine
end

section
/-! PROOFS. TD_MB with SKIP = 0: it completes within its bytes (O46), and it is the sequence of the TD_BLK and DQ_BLK it is built from (O47; 41_td R174 to R178). -/

namespace Sys2Proof.Machine

/-! ## The working set TD_MB starts from -/

/-- The state TD_MB decodes from: without a Y2 block, with block 24 cleared (41_td R177, R178). -/
def State.atMacroblock (s : State) (hasy2 : Bool) : State :=
  if hasy2 then s
  else { s with qcoef := s.qcoef.clear (coefIx 24 0) 16, coef := s.coef.clear (coefIx 24 0) 16 }

theorem State.atMacroblock_work (s : State) (hasy2 : Bool) (col : Nat) :
    (s.atMacroblock hasy2).work col = if hasy2 then s.work col else clearY2 (s.work col) := by
  cases hasy2 <;> rfl

theorem State.atMacroblock_curCtx (s : State) (hasy2 : Bool) : (s.atMacroblock hasy2).curCtx = s.curCtx := by
  cases hasy2 <;> rfl

/-- Without a Y2 block, block 24 starts at 0 (41_td R177). -/
theorem State.atMacroblock_y2_zero (s : State) (col : Nat) {j : Nat} (hj : j < 16) :
    ((s.atMacroblock false).work col).qcoef.read (24 * 16 + j) = 0 ∧
      ((s.atMacroblock false).work col).coef.read (24 * 16 + j) = 0 := by
  have hin : coefIx 24 0 ≤ 24 * 16 + j ∧ 24 * 16 + j < coefIx 24 0 + 16 := by unfold coefIx; omega
  exact ⟨(Memory.read_clear ..).trans (if_pos hin), (Memory.read_clear ..).trans (if_pos hin)⟩

/-- Writing zeros one after the other clears the range. -/
theorem Memory.writeSeq_zeros {w : Nat} (m : Memory w) (a n : Nat) :
    m.writeSeq a (List.replicate n 0) = m.clear a n := by
  induction n generalizing m a with
  | zero =>
    refine (List.filter_eq_self.mpr fun e _ => ?_).symm
    simp only [Bool.not_eq_true', Bool.and_eq_false_iff, decide_eq_false_iff_not]
    omega
  | succ n ih =>
    have hhead : m.write a 0 = m.erase a := if_pos rfl
    rw [List.replicate_succ, Memory.writeSeq, ih, hhead]
    unfold Memory.clear Memory.erase
    rw [List.filter_filter]
    refine List.filter_congr fun e _ => Bool.eq_iff_iff.mpr ?_
    simp only [Bool.and_eq_true, Bool.not_eq_true', Bool.and_eq_false_iff, decide_eq_false_iff_not, bne_iff_ne]
    omega

section
variable {seg : BitVec 2} {col : BitVec 10} {hasy2 : Bool} {s : State} (hi : s.curCtx.init = true)
include hi

/-- TD_MB puts back what its blocks leave of the working set (41_td R177). -/
theorem execTdMb_of_tdBlocks_ok {any : Bool} {a : Work}
    (h : tdBlocks rom s.stream s.cprob s.dqf seg.toNat (macroblockBlocks hasy2) false
      ((s.atMacroblock hasy2).work col.toNat) = .ok (any, a)) :
    execTdMb seg col hasy2 false s = .next (s.atWork col.toNat a (BitVec.ofNat 32 any.toNat) (s.cmdcnt + 1)) := by
  rw [State.atMacroblock_work] at h
  simp only [execTdMb, Bool.false_eq_true, if_false, hi, if_true, h]
  rfl

/-- TD_MB raises the fault of its blocks (60_exceptions R257). -/
theorem execTdMb_of_tdBlocks_error {e : Trap}
    (h : tdBlocks rom s.stream s.cprob s.dqf seg.toNat (macroblockBlocks hasy2) false
      ((s.atMacroblock hasy2).work col.toNat) = .error e) :
    execTdMb seg col hasy2 false s =
      .next ((s.scrambleTdMb col.toNat).raise (encode (.tdMb seg col hasy2 false)) e) := by
  rw [State.atMacroblock_work] at h
  simp only [execTdMb, Bool.false_eq_true, if_false, hi, if_true, h]
  rfl

end

/-! ## The levels of a macroblock -/

/-- The sixteen levels of a block are between -2114 and 2114 (41_td R174). -/
def Memory.LevelsBounded (q : Memory 16) (blk : Nat) : Prop :=
  ∀ j < 16, -2114 ≤ (q.read (blk * 16 + j)).toInt ∧ (q.read (blk * 16 + j)).toInt ≤ 2114

/-- A decoded block is bounded, and every other block stays so. -/
theorem tdBlk_keeps_levelsBounded {stream cprob : Memory 8} {blk t n : Nat} {a a' : Work} {nz : Bool}
    (h : tdBlk rom stream cprob blk t a = .ok (n, nz, a')) {k : Nat} (hk : a.qcoef.LevelsBounded k) :
    a'.qcoef.LevelsBounded k := by
  intro j hj
  by_cases heq : k = blk
  · subst heq
    exact tdBlk_level_bounds h hj
  · rw [tdBlk_qcoef_outside h (by omega)]
    exact hk j hj

section
variable {stream cprob : Memory 8} {dqf : Memory 16} {seg : Nat}

theorem tdBlocks_keeps_levelsBounded {blocks : List (Nat × Nat)} {any any' : Bool} {a a' : Work}
    (h : tdBlocks rom stream cprob dqf seg blocks any a = .ok (any', a')) {k : Nat} (hk : a.qcoef.LevelsBounded k) :
    a'.qcoef.LevelsBounded k :=
  tdBlocks_induct (fun a => a.qcoef.LevelsBounded k) h hk fun _ _ _ _ _ _ hk h1 => tdBlk_keeps_levelsBounded h1 hk

/-- Every decoded block ends bounded. -/
theorem tdBlocks_levelsBounded {blocks : List (Nat × Nat)} {any any' : Bool} {a a' : Work}
    (h : tdBlocks rom stream cprob dqf seg blocks any a = .ok (any', a')) :
    ∀ b ∈ blocks, a'.qcoef.LevelsBounded b.1 := by
  induction blocks generalizing any a with
  | nil => exact fun b hb => absurd hb List.not_mem_nil
  | cons head rest ih =>
    obtain ⟨blk, t⟩ := head
    rw [tdBlocks_cons] at h
    split at h
    · cases h
    · next h1 =>
      intro b hb
      rcases List.mem_cons.mp hb with rfl | hb
      · exact tdBlocks_keeps_levelsBounded h fun j hj => tdBlk_level_bounds h1 hj
      · exact ih h b hb

/-- What a macroblock without a Y2 block keeps of the Y2 block: its flags, and its zeros (41_td R177). -/
structure Work.Y2Kept (a a' : Work) : Prop where
  lnz   : a'.lnz.getLsbD 8 = a.lnz.getLsbD 8
  anz   : a'.anz.getLsbD 8 = a.anz.getLsbD 8
  qcoef : ∀ j < 16, a'.qcoef.read (24 * 16 + j) = 0
  coef  : ∀ j < 16, a'.coef.read (24 * 16 + j) = 0

/-- Only block 24 has the flags numbered 8 (10_state R47). -/
theorem lBit_aBit_ne_eight {blk : Nat} (h : blk ≤ 23) : 8 ≠ lBit blk ∧ 8 ≠ aBit blk := by
  unfold lBit aBit
  constructor <;> split_ifs <;> omega

theorem Work.Y2Kept.afterBlock {a0 a a' : Work} {blk t n : Nat} {nz : Bool} (hk : a0.Y2Kept a) (hblk : blk ≤ 23)
    (h : tdBlk rom stream cprob blk t a = .ok (n, nz, a')) :
    a0.Y2Kept { a' with coef := dqBlk rom a'.qcoef dqf blk t seg a'.coef } := by
  obtain ⟨hl, ha⟩ := lBit_aBit_ne_eight hblk
  obtain ⟨levels, -, -, -, -, -, heq⟩ := tdBlk_ok h
  have hlnz : a'.lnz = withFlag a.lnz (lBit blk) nz := congrArg Work.lnz heq
  have hanz : a'.anz = withFlag a.anz (aBit blk) nz := congrArg Work.anz heq
  have hcoef : a'.coef = a.coef := by rw [heq]
  refine ⟨?_, ?_, fun j hj => ?_, fun j hj => ?_⟩
  · rw [← hk.lnz]
    show a'.lnz.getLsbD 8 = _
    rw [hlnz, withFlag_getLsbD _ _ _ (lBit_lt blk), if_neg hl]
  · rw [← hk.anz]
    show a'.anz.getLsbD 8 = _
    rw [hanz, withFlag_getLsbD _ _ _ (aBit_lt blk), if_neg ha]
  · exact (tdBlk_qcoef_outside h (by omega)).trans (hk.qcoef j hj)
  · rw [dqBlk_read_of_ne _ _ _ _ _ _ _ (by omega), hcoef]
    exact hk.coef j hj

end

/-- The blocks of a macroblock are blocks 0 to 23, and block 24 with a Y2 block (41_td R177). -/
theorem macroblockBlocks_cover : ∀ hasy2 : Bool, ∀ blk < 25,
    (∃ b ∈ macroblockBlocks hasy2, b.1 = blk) ∨ (hasy2 = false ∧ blk = 24) := by decide

/-- All levels of a decoded macroblock are bounded (41_td R174, R177). -/
theorem macroblock_levels {s : State} {seg col : Nat} {hasy2 any : Bool} {a : Work}
    (h : tdBlocks rom s.stream s.cprob s.dqf seg (macroblockBlocks hasy2) false ((s.atMacroblock hasy2).work col) =
      .ok (any, a)) {x : Nat} (hx : x < 400) : -2114 ≤ (a.qcoef.read x).toInt ∧ (a.qcoef.read x).toInt ≤ 2114 := by
  have hbounded : a.qcoef.LevelsBounded (x / 16) := by
    rcases macroblockBlocks_cover hasy2 (x / 16) (by omega) with ⟨b, hb, hblk⟩ | ⟨rfl, hblk⟩
    · exact hblk ▸ tdBlocks_levelsBounded h b hb
    · refine tdBlocks_keeps_levelsBounded h fun j hj => ?_
      rw [hblk, (s.atMacroblock_y2_zero col hj).1]
      decide
  have hsplit : x / 16 * 16 + x % 16 = x := by omega
  rw [← hsplit]
  exact hbounded (x % 16) (Nat.mod_lt _ (by decide))

/-- A macroblock without a Y2 block keeps the flags of the Y2 block and leaves block 24 at 0 (41_td R177). -/
theorem macroblock_keeps_y2 {s : State} {seg col : Nat} {any : Bool} {a : Work}
    (h : tdBlocks rom s.stream s.cprob s.dqf seg (macroblockBlocks false) false ((s.atMacroblock false).work col) =
      .ok (any, a)) : (s.work col).Y2Kept a := by
  have hstart : (s.work col).Y2Kept ((s.atMacroblock false).work col) :=
    ⟨rfl, rfl, fun _ hj => (s.atMacroblock_y2_zero col hj).1, fun _ hj => (s.atMacroblock_y2_zero col hj).2⟩
  exact tdBlocks_induct _ h hstart fun b hb _ _ _ _ hk h1 =>
    hk.afterBlock (((macroblockBlocks_bounds false).2 b hb).2 rfl) h1

/-- Settles O46: 25 times 266 bytes hold the 2128 shifts that each of at most 25 blocks can take. -/
theorem tdMbCompletes : Obligations.TdMbCompletes := by
  intro s seg col hasy2 hi hr hbytes
  have hbit := (s.ctx s.cur).bitcnt.isLt
  have hlen := (macroblockBlocks_bounds hasy2).1
  have hctx : ((s.atMacroblock hasy2).work col.toNat).ctx = s.ctx s.cur := s.atMacroblock_curCtx hasy2
  obtain ⟨any, a, h⟩ := tdBlocks_succeeds (stream := s.stream) (cprob := s.cprob) (dqf := s.dqf) (seg := seg.toNat)
    (macroblockBlocks hasy2) false (a := (s.atMacroblock hasy2).work col.toNat)
    (by rw [hctx]; unfold Ctx.shifted; omega)
  refine ⟨_, execTdMb_of_tdBlocks_ok hi h, rfl, rfl, ?_, fun x hx => macroblock_levels h hx,
    fun x hx => s.atWork_anz_ne _ _ _ hx, fun hy2 => ?_⟩
  · cases any with
    | false => exact .inl rfl
    | true => exact .inr rfl
  · subst hy2
    obtain ⟨hlnz, hanz, hqcoef, hcoef⟩ := macroblock_keeps_y2 h
    rw [State.atWork_anz_same]
    exact ⟨hlnz, hanz, fun j hj => ⟨hqcoef j hj, hcoef j hj⟩⟩

/-! ## A state between two blocks -/

/-- `u` is `s` but for RESULT, CMDCNT and the working set at column `col`, which is `a`. -/
structure State.Worked (s : State) (col : Nat) (a : Work) (u : State) : Prop where
  same : ∀ b v n, u.atWork col b v n = s.atWork col b v n
  work : u.work col = a

theorem State.Worked.refl (s : State) (col : Nat) : s.Worked col (s.work col) s := ⟨fun _ _ _ => rfl, rfl⟩

theorem State.Worked.trans {s u w : State} {col : Nat} {a b : Work} (h : s.Worked col a u) (h' : u.Worked col b w) :
    s.Worked col b w :=
  ⟨fun c v n => (h'.same c v n).trans (h.same c v n), h'.work⟩

theorem State.worked_atWork (s : State) (col : Nat) (a : Work) (v n : Word) : s.Worked col a (s.atWork col a v n) :=
  ⟨fun _ _ _ => s.atWork_atWork .., s.atWork_work ..⟩

/-- The state TD_MB decodes from differs in the working set only. -/
theorem State.worked_atMacroblock (s : State) (hasy2 : Bool) (col : Nat) :
    s.Worked col ((s.atMacroblock hasy2).work col) (s.atMacroblock hasy2) :=
  ⟨fun _ _ _ => by cases hasy2 <;> rfl, rfl⟩

section
variable {s u : State} {col : Nat} {a : Work} (h : s.Worked col a u)
include h

theorem State.Worked.init : u.curCtx.init = a.ctx.init := congrArg (fun b : Work => b.ctx.init) h.work

theorem State.Worked.cur : u.cur = s.cur := by
  have hsame := congrArg State.cur (h.same a 0 0)
  exact hsame

theorem State.Worked.fault_fields :
    u.fault = s.fault ∧ u.fcode = s.fcode ∧ u.fclass = s.fclass ∧ u.finfo = s.finfo := by
  have hsame := congrArg (fun w : State => (w.fault, w.fcode, w.fclass, w.finfo)) (h.same a 0 0)
  simp only [Prod.mk.injEq] at hsame
  exact hsame

theorem State.Worked.fault : u.fault = s.fault := h.fault_fields.1

/-- The blocks still to come find STREAM and the tables as they were. -/
theorem State.Worked.tdBlocks_eq (seg : Nat) (blocks : List (Nat × Nat)) (any : Bool) :
    tdBlocks rom u.stream u.cprob u.dqf seg blocks any (u.work col) =
      tdBlocks rom s.stream s.cprob s.dqf seg blocks any a := by
  have hsame := congrArg (fun w : State => tdBlocks rom w.stream w.cprob w.dqf seg blocks any a) (h.same a 0 0)
  rw [h.work]
  exact hsame

theorem State.Worked.bd : u.bd = (s.setCtx s.cur a.ctx).bd := by
  have hctx : u.ctx u.cur = a.ctx := congrArg Work.ctx h.work
  have hsame := congrArg State.bd (h.same a 0 0)
  calc u.bd = (u.setCtx u.cur (u.ctx u.cur)).bd := by rw [State.setCtx_self]
    _ = (u.setCtx u.cur a.ctx).bd := by rw [hctx]
    _ = (s.setCtx s.cur a.ctx).bd := hsame

theorem State.Worked.anz (v n : Word) (x : Nat) : u.anz.read x = (s.atWork col a v n).anz.read x := by
  by_cases hx : x = col
  · rw [hx, State.atWork_anz_same]
    exact congrArg Work.anz h.work
  · rw [← h.same, State.atWork_anz_ne _ _ _ _ hx]

end

/-! ## The commands of a block -/

/-- The two commands of one block (41_td R178). -/
def blockCommands (seg : BitVec 2) (col : BitVec 10) (b : Nat × Nat) : List Instr :=
  [.tdBlk (BitVec.ofNat 5 b.1) (BitVec.ofNat 2 b.2) col, .dqBlk (BitVec.ofNat 5 b.1) (BitVec.ofNat 2 b.2) seg]

/-- The commands of a macroblock are those of its blocks (41_td R177, R178). -/
theorem macroblockCommands_eq (seg : BitVec 2) (col : BitVec 10) (hasy2 : Bool) :
    Spec.macroblockCommands seg col hasy2 = (macroblockBlocks hasy2).flatMap (blockCommands seg col) := by
  cases hasy2 <;> rfl

/-- A block and a type that the operands of a command can name. -/
def BlockLegal (b : Nat × Nat) : Prop := b.1 ≤ 24 ∧ b.2 ≤ 3

theorem macroblockBlocks_legal (hasy2 : Bool) : ∀ b ∈ macroblockBlocks hasy2, BlockLegal b := by
  unfold BlockLegal
  revert hasy2
  decide

theorem toNat_ofNat_blk {n : Nat} (h : n ≤ 24) : (BitVec.ofNat 5 n).toNat = n := Nat.mod_eq_of_lt (by omega)

theorem toNat_ofNat_type {n : Nat} (h : n ≤ 3) : (BitVec.ofNat 2 n).toNat = n := Nat.mod_eq_of_lt (by omega)

section
variable {seg : BitVec 2} {col : BitVec 10} {blk t : Nat} {s : State} (hf : s.fault = false)
  (hi : s.curCtx.init = true) (hb : BlockLegal (blk, t))
include hf hi hb

/-- The two commands of a block do what TD_MB does for it (41_td R177, R178). -/
theorem blockCommands_run {n : Nat} {nz : Bool} {a : Work}
    (h : tdBlk rom s.stream s.cprob blk t (s.work col.toNat) = .ok (n, nz, a)) :
    ∃ u, s.Worked col.toNat { a with coef := dqBlk rom a.qcoef s.dqf blk t seg.toNat a.coef } u ∧
      ∀ is, execSeq (blockCommands seg col (blk, t) ++ is) s = execSeq is u ∧
        Spec.tokenSeen (blockCommands seg col (blk, t) ++ is) s = (nz || Spec.tokenSeen is u) := by
  obtain ⟨hblk, htype⟩ := hb
  have hblkNat := toNat_ofNat_blk hblk
  have htypeNat := toNat_ofNat_type htype
  have htd : exec (.tdBlk (BitVec.ofNat 5 blk) (BitVec.ofNat 2 t) col) s =
      .next (s.atWork col.toNat a (BitVec.ofNat 32 n) (s.cmdcnt + 1)) :=
    execTdBlk_of_tdBlk_ok (by rwa [hblkNat]) hi (by rwa [hblkNat, htypeNat])
  have hdq : exec (.dqBlk (BitVec.ofNat 5 blk) (BitVec.ofNat 2 t) seg)
      (s.atWork col.toNat a (BitVec.ofNat 32 n) (s.cmdcnt + 1)) = .next (s.atWork col.toNat
        { a with coef := dqBlk rom a.qcoef s.dqf blk t seg.toNat a.coef } (BitVec.ofNat 32 n) (s.cmdcnt + 1 + 1)) := by
    refine (guardLegal_of_wf (i := .dqBlk ..) (blkLegal_iff.mpr (by rwa [hblkNat]))).trans ?_
    rw [hblkNat, htypeNat]
    rfl
  refine ⟨_, s.worked_atWork .., fun is => ⟨(execSeq_of_next hf htd).trans (execSeq_of_next hf hdq), ?_⟩⟩
  have hn16 := (tdBlk_result_bounds h).2
  have hres : (s.atWork col.toNat a (BitVec.ofNat 32 n) (s.cmdcnt + 1)).result.toNat = n := Nat.mod_eq_of_lt (by omega)
  have hseen : nz = decide ((if BitVec.ofNat 2 t = 0 then 1 else 0) < n) := by
    rw [tdBlk_nz h, ← firstPos_toNat, htypeNat]
  simp only [blockCommands, List.cons_append, List.nil_append, Spec.tokenSeen, htd, hdq, hres, ← hseen, Bool.false_or]

/-- The commands of a block that overruns end in its fault (60_exceptions R257, R259). -/
theorem blockCommands_error {e : Trap} (h : tdBlk rom s.stream s.cprob blk t (s.work col.toNat) = .error e)
    (is : List Instr) : ∃ u w, execSeq (blockCommands seg col (blk, t) ++ is) s = .next (State.raise u w e) := by
  obtain ⟨hblk, htype⟩ := hb
  have hblkNat := toNat_ofNat_blk hblk
  have htd : exec (.tdBlk (BitVec.ofNat 5 blk) (BitVec.ofNat 2 t) col) s = _ :=
    execTdBlk_of_tdBlk_error (e := e) (by rwa [hblkNat]) hi (by rwa [hblkNat, toNat_ofNat_type htype])
  exact ⟨_, _, (execSeq_of_next hf htd).trans (execSeq_of_fault rfl)⟩

end

/-! ## The commands of several blocks -/

/-- TdBlk keeps INIT (40_bd R133). -/
theorem tdBlk_init {stream cprob : Memory 8} {blk t n : Nat} {a a' : Work} {nz : Bool}
    (h : tdBlk rom stream cprob blk t a = .ok (n, nz, a')) : a'.ctx.init = a.ctx.init := by
  obtain ⟨_, hread, -⟩ := tdBlk_ok h
  obtain ⟨_, -, hadv⟩ := hread.adv
  exact hadv.init

section
variable {seg : BitVec 2} {col : BitVec 10} {blocks : List (Nat × Nat)} {any : Bool} {s : State}
  (hf : s.fault = false) (hi : s.curCtx.init = true) (hb : ∀ b ∈ blocks, BlockLegal b)
include hf hi hb

/-- Blocks that decode leave the working set their commands leave, and their OR says whether a command saw a token
(41_td R177, R178). -/
theorem blocksCommands_run {any' : Bool} {a : Work}
    (h : tdBlocks rom s.stream s.cprob s.dqf seg.toNat blocks any (s.work col.toNat) = .ok (any', a)) :
    ∃ u, execSeq (blocks.flatMap (blockCommands seg col)) s = .next u ∧ s.Worked col.toNat a u ∧
      any' = (any || Spec.tokenSeen (blocks.flatMap (blockCommands seg col)) s) := by
  induction blocks generalizing any s with
  | nil =>
    obtain ⟨rfl, rfl⟩ := Prod.mk.inj (Except.ok.inj h)
    exact ⟨s, rfl, .refl s col.toNat, (Bool.or_false any).symm⟩
  | cons b rest ih =>
    obtain ⟨hhead, hrest⟩ := List.forall_mem_cons.mp hb
    rw [tdBlocks_cons] at h
    split at h
    · cases h
    · next h1 =>
      obtain ⟨u, hu, hrun⟩ := blockCommands_run hf hi hhead h1
      obtain ⟨hseq, hseen⟩ := hrun (rest.flatMap (blockCommands seg col))
      obtain ⟨w, hw, hworked, hany⟩ := ih (hu.fault.trans hf) (hu.init.trans ((tdBlk_init h1).trans hi)) hrest
        ((hu.tdBlocks_eq ..).trans h)
      refine ⟨w, hseq.trans hw, hu.trans hworked, ?_⟩
      rw [List.flatMap_cons, hseen, hany, Bool.or_assoc]

/-- Blocks that overrun do so in their commands (41_td R178; 60_exceptions R257). -/
theorem blocksCommands_error {e : Trap}
    (h : tdBlocks rom s.stream s.cprob s.dqf seg.toNat blocks any (s.work col.toNat) = .error e) :
    ∃ u w, execSeq (blocks.flatMap (blockCommands seg col)) s = .next (State.raise u w e) := by
  induction blocks generalizing any s with
  | nil => cases h
  | cons b rest ih =>
    obtain ⟨hhead, hrest⟩ := List.forall_mem_cons.mp hb
    rw [tdBlocks_cons] at h
    split at h
    · next h1 =>
      obtain rfl := Except.error.inj h
      exact blockCommands_error hf hi hhead h1 _
    · next h1 =>
      obtain ⟨u, hu, hrun⟩ := blockCommands_run hf hi hhead h1
      obtain ⟨w, word, hw⟩ := ih (hu.fault.trans hf) (hu.init.trans ((tdBlk_init h1).trans hi)) hrest
        ((hu.tdBlocks_eq ..).trans h)
      exact ⟨w, word, (hrun _).1.trans hw⟩

end

/-! ## The commands of a macroblock -/

/-- Without a context the first command of a macroblock raises BD_UNINIT (40_bd R145). -/
theorem macroblockCommands_uninit (seg : BitVec 2) (col : BitVec 10) (hasy2 : Bool) {s : State} (hf : s.fault = false)
    (hi : s.curCtx.init = false) :
    ∃ u w, execSeq (Spec.macroblockCommands seg col hasy2) s =
      .next (State.raise u w ⟨.bdUninit, BitVec.ofNat 32 s.cur.val⟩) := by
  have hfirst (blk : BitVec 5) (type : BitVec 2) (hw : (Instr.tdBlk blk type col).wf = true) (is : List Instr) :
      execSeq (.tdBlk blk type col :: is) s =
        .next (s.raise (encode (.tdBlk blk type col)) ⟨.bdUninit, BitVec.ofNat 32 s.cur.val⟩) :=
    (execSeq_of_next (i := .tdBlk blk type col) hf (execTdBlk_uninit hw hi)).trans (execSeq_of_fault rfl)
  cases hasy2 with
  | true => exact ⟨s, _, hfirst 24 1 rfl _⟩
  | false => exact ⟨s, _, hfirst 0 3 rfl _⟩

/-- The state of the host's clearing in R178 is the one TD_MB decodes from. -/
theorem State.atMacroblock_eq_writeSeq (s : State) (hasy2 : Bool) : s.atMacroblock hasy2 = if hasy2 then s else { s with
    qcoef := s.qcoef.writeSeq (24 * 16) (List.replicate 16 0)
    coef := s.coef.writeSeq (24 * 16) (List.replicate 16 0) } := by
  rw [Memory.writeSeq_zeros, Memory.writeSeq_zeros]
  rfl

/-- Settles O47, by the blocks of the macroblock: one induction over them in TD_MB and in the sequence of their commands. -/
theorem tdMbIsTheSequenceOfItsBlocks : Obligations.TdMbIsTheSequenceOfItsBlocks := by
  intro s seg col hasy2 hf s0 cmds
  have hs0 : s0 = s.atMacroblock hasy2 := (s.atMacroblock_eq_writeSeq hasy2).symm
  have hcmds : cmds = (macroblockBlocks hasy2).flatMap (blockCommands seg col) := macroblockCommands_eq seg col hasy2
  have hstart := s.worked_atMacroblock hasy2 col.toNat
  have hctx := s.atMacroblock_curCtx hasy2
  rw [← hs0] at hstart hctx
  have hf0 : s0.fault = false := hstart.fault.trans hf
  have hlegal := macroblockBlocks_legal hasy2
  cases hi : s.curCtx.init with
  | false =>
    obtain ⟨u, w, hu⟩ := macroblockCommands_uninit seg col hasy2 hf0 (hctx ▸ hi)
    rw [hstart.cur] at hu
    exact ⟨_, _, execTdMb_uninit hi, hu, rfl, rfl, rfl, rfl, fun h => by cases h⟩
  | true =>
    have hi0 : s0.curCtx.init = true := hctx ▸ hi
    have hblocks := hstart.tdBlocks_eq seg.toNat (macroblockBlocks hasy2) false
    rw [hcmds]
    cases h : tdBlocks rom s.stream s.cprob s.dqf seg.toNat (macroblockBlocks hasy2) false (s0.work col.toNat) with
    | error e =>
      obtain ⟨u, w, hu⟩ := blocksCommands_error hf0 hi0 hlegal (hblocks.trans h)
      exact ⟨_, _, execTdMb_of_tdBlocks_error hi (hs0 ▸ h), hu, rfl, rfl, rfl, rfl, fun h => by cases h⟩
    | ok r =>
      obtain ⟨any, a⟩ := r
      obtain ⟨u, hu, hrun, hany⟩ := blocksCommands_run hf0 hi0 hlegal (hblocks.trans h)
      have hworked := hstart.trans hrun
      obtain ⟨hfault, hcode, hclass, hinfo⟩ := hworked.fault_fields
      rw [Bool.false_or] at hany
      refine ⟨_, u, execTdMb_of_tdBlocks_ok hi (hs0 ▸ h), hu, hfault.symm, hcode.symm, hclass.symm, hinfo.symm,
        fun _ => ⟨fun x => ?_, fun x => ?_, ?_, fun x => (hworked.anz ..).symm, hworked.bd.symm, ?_⟩⟩
      · exact congrArg (fun b : Work => b.qcoef.read x) hworked.work.symm
      · exact congrArg (fun b : Work => b.coef.read x) hworked.work.symm
      · exact congrArg Work.lnz hworked.work.symm
      · rw [← hany]
        exact ofNat_toNat_bool any

end Sys2Proof.Machine
end

section
/-! PROOFS. DQ_BLK scales one block exactly (O48; 42_dq R192 to R194). -/

namespace Sys2Proof.Machine

theorem zigzag_eq : ∀ n : Fin 16, Spec.zigzag.getD n.val 0 = (rom.zigzag[n]).val := by decide

/-- DQ_BLK of a legal block completes with the block scaled (42_dq R193). -/
theorem execDqBlk_of_legal {blk : BitVec 5} (type seg : BitVec 2) (s : State) (hw : blk.toNat ≤ 24) :
    execDqBlk blk type seg s = .next { s with
      coef := dqBlk rom s.qcoef s.dqf blk.toNat type.toNat seg.toNat s.coef
      cmdcnt := s.cmdcnt + 1 } :=
  guardLegal_of_wf (i := .dqBlk blk type seg) (blkLegal_iff.mpr hw)

/-- DqBlk at a scan position holds the product in the integers, read by the tables of the specification (42_dq R192, R194). -/
theorem dqBlk_read_toInt (qcoef dqf : Memory 16) (blk t seg : Nat) (coef : Memory 32) (n : Fin 16) :
    ((dqBlk rom qcoef dqf blk t seg coef).read (blk * 16 + Spec.zigzag.getD n.val 0)).toInt =
      (qcoef.read (blk * 16 + n.val)).toInt * (dqf.read ((seg * 4 + t) * 8 + Spec.band.getD n.val 0)).toNat := by
  have hread := congrArg BitVec.toInt (dqBlk_read qcoef dqf blk t seg coef n)
  rw [dequant_toInt] at hread
  rw [zigzag_eq, band_eq]
  exact hread

/-- Settles O48, by the product at each scan position and the frame outside the block. -/
theorem dqBlkScalesExactly : Obligations.DqBlkScalesExactly := by
  intro s blk type seg hblk
  exact ⟨_, execDqBlk_of_legal type seg s hblk, fun n hn => dqBlk_read_toInt _ _ _ _ _ _ ⟨n, hn⟩,
    fun _ ha => dqBlk_read_of_ne _ _ _ _ _ _ _ ha⟩

end Sys2Proof.Machine
end

section
/-! PROOFS. The filter of one segment in the spec's terms: levels and limits (O27; 43_lf R202, R203), the pixel arithmetic (O60; R204, R207 to R209), what the filter of each kind writes (R210), and LF_SEG (O49, O53, O54; R211, R217). -/

namespace Sys2Proof.Machine

/-! ## Levels and limits (43_lf R202, R203) -/

theorem adjustLevel_toNat (lvl : BitVec 6) (delta : BitVec 7) :
    ((adjustLevel lvl delta).toNat : Int) = Spec.clamp (lvl.toNat + delta.toInt) 0 63 := by
  unfold adjustLevel Spec.clamp
  rw [BitVec.toNat_ofInt]
  split_ifs <;> omega

/-- Settles O27: the sum in the integers, clamped into the six bits of LFLVL. -/
theorem lfAdjlvlClampsTheSum : Obligations.LfAdjlvlClampsTheSum :=
  fun s delta => ⟨adjustLevel s.lflvl delta, rfl, adjustLevel_toNat s.lflvl delta⟩

theorem interiorLimit_eq (lvl : Nat) {sharp : Nat} (h : sharp ≤ 7) :
    (interiorLimit lvl sharp : Int) = Spec.interior lvl sharp := by
  unfold interiorLimit Spec.interior
  dsimp only
  split_ifs <;> omega

/-- The edge limit a kind is tested against: EMB on macroblock edges, ESUB inside (43_lf R205). -/
def Limits.edge (lim : Limits) : Kind → Nat
  | .smb => lim.emb
  | .nmb => lim.emb
  | .ssub => lim.esub
  | .nsub => lim.esub

theorem State.sharp_toNat (s : State) : s.sharp.toNat = s.lfcfg.toNat / 2 % 8 := by
  rw [State.sharp, BitVec.extractLsb'_toNat, Nat.shiftRight_eq_div_pow]

theorem State.limits_interior (s : State) :
    (s.limits.interior : Int) = Spec.interior s.lflvl.toNat (s.lfcfg.toNat / 2 % 8 : Nat) := by
  rw [← s.sharp_toNat]
  exact interiorLimit_eq _ (by omega)

theorem State.limits_hevt (s : State) : (s.limits.hevt : Int) = Spec.hevThreshold s.lflvl.toNat := by
  simp only [State.limits, Machine.limits, Spec.hevThreshold]
  split_ifs <;> omega

theorem State.limits_edge (s : State) (kind : Kind) :
    (s.limits.edge kind : Int) = Spec.edgeLimit kind s.lflvl.toNat (s.lfcfg.toNat / 2 % 8 : Nat) := by
  have hi := s.limits_interior
  cases kind <;> simp only [Spec.edgeLimit, ← hi] <;> simp [Limits.edge, State.limits, Machine.limits]

/-! ## The pixel arithmetic (43_lf R204, R207 to R209) -/

theorem sat_eq_clamp (v : Int) : sat v = Spec.clamp v (-128) 127 := by
  unfold sat Spec.clamp
  split_ifs <;> omega

theorem absDiff_eq (a b : Byte) : (absDiff a b : Int) = |(a.toNat : Int) - b.toNat| := Int.natCast_natAbs _

/-- Settles O60: each adjustment is a saturated sum shifted right by three. -/
theorem commonAdjustIsBounded : Obligations.CommonAdjustIsBounded := by
  intro outer l
  have ha := sat_bounds (adjustBase outer l + 4)
  have hb := sat_bounds (adjustBase outer l + 3)
  unfold adjustA adjustB
  omega

/-- The pixel of a line by its name. -/
def Line.px (l : Line) : Px → Byte
  | .p3 => l.p3
  | .p2 => l.p2
  | .p1 => l.p1
  | .p0 => l.p0
  | .q0 => l.q0
  | .q1 => l.q1
  | .q2 => l.q2
  | .q3 => l.q3

/-- `px` gives the pixels a kind reads by their places along the segment (43_lf R205, R206). -/
def Line.Matches (l : Line) (kind : Kind) (px : Int → Int) : Prop :=
  ∀ p ∈ kindPixels kind, px p.offset = (l.px p).toNat

section
variable {kind : Kind} {l : Line} {px : Int → Int}

/-- The four pixels next to the edge are read by every kind. -/
theorem Line.Matches.inner (h : l.Matches kind px) :
    px (-2) = l.p1.toNat ∧ px (-1) = l.p0.toNat ∧ px 0 = l.q0.toNat ∧ px 1 = l.q1.toNat := by
  have hmem : ∀ p ∈ [Px.p1, .p0, .q0, .q1], p ∈ kindPixels kind := by cases kind <;> decide
  exact ⟨h .p1 (hmem _ (by simp)), h .p0 (hmem _ (by simp)), h .q0 (hmem _ (by simp)), h .q1 (hmem _ (by simp))⟩

theorem Line.Matches.inner_u2s (h : l.Matches kind px) :
    px (-2) - 128 = u2s l.p1 ∧ px (-1) - 128 = u2s l.p0 ∧ px 0 - 128 = u2s l.q0 ∧ px 1 - 128 = u2s l.q1 := by
  obtain ⟨hp1, hp0, hq0, hq1⟩ := h.inner
  rw [hp1, hp0, hq0, hq1]
  exact ⟨rfl, rfl, rfl, rfl⟩

theorem edgeTest_iff (h : l.Matches kind px) (e : Nat) :
    edgeTest e l = true ↔ |px (-1) - px 0| * 2 + |px (-2) - px 1| / 2 ≤ (e : Int) := by
  obtain ⟨hp1, hp0, hq0, hq1⟩ := h.inner
  rw [edgeTest, decide_eq_true_iff, hp1, hp0, hq0, hq1, ← absDiff_eq, ← absDiff_eq]
  omega

theorem filterYes_iff (h : l.Matches kind px) (hk : kind = .nmb ∨ kind = .nsub) (i e : Nat) :
    filterYes i e l = true ↔
      |px (-1) - px 0| * 2 + |px (-2) - px 1| / 2 ≤ (e : Int) ∧
        |px (-4) - px (-3)| ≤ (i : Int) ∧ |px (-3) - px (-2)| ≤ (i : Int) ∧ |px (-2) - px (-1)| ≤ (i : Int) ∧
          |px 3 - px 2| ≤ (i : Int) ∧ |px 2 - px 1| ≤ (i : Int) ∧ |px 1 - px 0| ≤ (i : Int) := by
  have hall (p : Px) : px p.offset = (l.px p).toNat := by
    refine h p ?_
    rcases hk with rfl | rfl <;> cases p <;> decide
  rw [← edgeTest_iff h, show px (-4) = _ from hall .p3, show px (-3) = _ from hall .p2, show px (-2) = _ from hall .p1,
    show px (-1) = _ from hall .p0, show px 0 = _ from hall .q0, show px 1 = _ from hall .q1,
    show px 2 = _ from hall .q2, show px 3 = _ from hall .q3]
  simp only [filterYes, Bool.and_eq_true, decide_eq_true_iff, and_assoc, ← Int.ofNat_le, absDiff_eq]
  rfl

theorem hev_iff (h : l.Matches kind px) (t : Nat) :
    hev t l = true ↔ (t : Int) < |px (-2) - px (-1)| ∨ (t : Int) < |px 1 - px 0| := by
  obtain ⟨hp1, hp0, hq0, hq1⟩ := h.inner
  rw [hev, Bool.or_eq_true, decide_eq_true_iff, decide_eq_true_iff, hp1, hp0, hq0, hq1, ← absDiff_eq, ← absDiff_eq]
  omega

/-! ## What the filter of a kind writes (43_lf R206 to R210) -/

/-- A pixel the filter writes takes the value the specification gives its place, and one it does not write has that value. -/
theorem filterWrites_filtered (h : l.Matches kind px) (lim : Limits) (p : Px) :
    (∀ v, (p, v) ∈ filterWrites lim kind l →
        (v.toNat : Int) = Spec.filtered kind lim.interior lim.hevt (lim.edge kind) px p.offset) ∧
      ((∀ v, (p, v) ∉ filterWrites lim kind l) →
        px p.offset = Spec.filtered kind lim.interior lim.hevt (lim.edge kind) px p.offset) := by
  obtain ⟨hp1, hp0, hq0, hq1⟩ := h.inner_u2s
  cases kind with
  | smb | ssub =>
    simp only [filterWrites, simpleFilter, Spec.filtered, ← edgeTest_iff h, Limits.edge]
    split
    · cases p <;>
        simp [Px.offset, commonAdjust, adjustA, adjustB, adjustBase, s2u_toNat, sat_eq_clamp, hp1, hp0, hq0, hq1]
    · simp
  | nmb =>
    have hp2 : px (-3) - 128 = u2s l.p2 := by rw [show px (-3) = _ from h .p2 (by decide)]; rfl
    have hq2 : px 2 - 128 = u2s l.q2 := by rw [show px 2 = _ from h .q2 (by decide)]; rfl
    simp only [filterWrites, normalMb, Spec.filtered, ← filterYes_iff h (.inl rfl), ← hev_iff h, Limits.edge]
    split
    · split
      · cases p <;>
          simp [Px.offset, commonAdjust, adjustA, adjustB, adjustBase, s2u_toNat, sat_eq_clamp, hp1, hp0, hq0, hq1]
      · cases p <;> simp [Px.offset, mbTap, mbWeight, s2u_toNat, sat_eq_clamp, hp1, hp0, hq0, hq1, hp2, hq2]
    · simp
  | nsub =>
    simp only [filterWrites, normalSub, Spec.filtered, ← filterYes_iff h (.inr rfl), ← hev_iff h, Limits.edge]
    split
    · cases hev lim.hevt l <;> cases p <;>
        simp [Px.offset, commonAdjust, adjustA, adjustB, adjustBase, s2u_toNat, sat_eq_clamp, hp1, hp0, hq0, hq1]
    · simp

/-- Over equal pixels the filter gives every pixel its old value (43_lf R217 c). -/
theorem filtered_of_equal {v : Byte} (hpx : ∀ k, -Spec.reach kind ≤ k → k < Spec.reach kind → px k = v.toNat)
    (lim hevt e : Int) {k : Int} (hlo : -Spec.reach kind ≤ k) (hhi : k < Spec.reach kind) :
    Spec.filtered kind lim hevt e px k = v.toNat := by
  have hv : Spec.clamp ((v.toNat : Int) - 128) (-128) 127 = (v.toNat : Int) - 128 := by unfold Spec.clamp; omega
  have h0 : Spec.clamp 0 (-128) 127 = 0 := by decide
  have h3 : Spec.clamp 3 (-128) 127 = 3 := by decide
  have h4 : Spec.clamp 4 (-128) 127 = 4 := by decide
  have hreach : 2 ≤ Spec.reach kind := by cases kind <;> decide
  have hp1 := hpx (-2) (by omega) (by omega)
  have hp0 := hpx (-1) (by omega) (by omega)
  have hq0 := hpx 0 (by omega) (by omega)
  have hq1 := hpx 1 (by omega) (by omega)
  have hk := hpx k hlo hhi
  cases kind with
  | nmb =>
    have hp2 := hpx (-3) (by decide) (by decide)
    have hq2 := hpx 2 (by decide) (by decide)
    simp [Spec.filtered, hp2, hp1, hp0, hq0, hq1, hq2, hk, hv, h0, h3, h4]
  | _ => simp [Spec.filtered, hp1, hp0, hq0, hq1, hk, hv, h0, h3, h4]

/-- No kind writes anything over an edge that fails the edge test (43_lf R217 d). -/
theorem filterWrites_of_sharp {lim : Limits} (h : edgeTest (lim.edge kind) l = false) : filterWrites lim kind l = [] := by
  cases kind <;> simp_all [Limits.edge, filterWrites, simpleFilter, normalMb, normalSub, filterYes]

end

/-! ## The addresses along a segment -/

/-- The places of a segment lie one step apart: 1 across a vertical edge, the stride across a horizontal one (20_memory R81). -/
theorem placeAddr_step (s : State) (pl : Nat) (dir : Dir) (x y : Int) :
    ∃ step, ∀ k, Spec.placeAddr s pl dir x y k = Spec.placeAddr s pl dir x y 0 + k * step := by
  refine ⟨match dir with | .v => 1 | .h => s.planeStride pl, fun k => ?_⟩
  cases dir <;> rcases pl with _ | _ | pl <;> simp [Spec.placeAddr, Spec.pixelAddr, State.planeStride] <;> ring

/-- Two places share an address only where all places do, which is at a stride of 0 across a horizontal edge. -/
theorem placeAddr_collision {s : State} {pl : Nat} {dir : Dir} {x y j k : Int}
    (h : Spec.placeAddr s pl dir x y j = Spec.placeAddr s pl dir x y k) :
    j = k ∨ ∀ i, Spec.placeAddr s pl dir x y i = Spec.placeAddr s pl dir x y k := by
  obtain ⟨step, hstep⟩ := placeAddr_step s pl dir x y
  rw [hstep j, hstep k, add_right_inj, mul_eq_mul_right_iff] at h
  refine h.imp_right fun h0 i => ?_
  rw [hstep i, hstep k, h0, mul_zero, mul_zero]

/-! ## What a Seg makes of PIX -/

/-- A read after writes: a value written at the address, or the old entry where nothing was written. -/
theorem Memory.read_writeAll_cases {w : Nat} (l : List (Nat × BitVec w)) (m : Memory w) (b : Nat) :
    (b, (m.writeAll l).read b) ∈ l ∨ (∀ e ∈ l, e.1 ≠ b) ∧ (m.writeAll l).read b = m.read b := by
  induction l generalizing m with
  | nil => simp [Memory.writeAll]
  | cons e l ih =>
    obtain ⟨a, v⟩ := e
    rw [Memory.writeAll]
    rcases ih (m.write a v) with hmem | ⟨hne, hread⟩
    · exact .inl (List.mem_cons_of_mem _ hmem)
    · rw [hread]
      by_cases hab : b = a
      · simp [hab]
      · rw [Memory.read_write_ne _ _ hab]
        exact .inr ⟨List.forall_mem_cons.mpr ⟨Ne.symm hab, hne⟩, rfl⟩

/-- The pixels of PIX along a segment, as numbers by their places. -/
def State.pxAlong (s : State) (op : SegOp) (pix : Memory 8) (k : Int) : Int :=
  ((pix.read (Spec.placeAddr s op.pl op.dir op.x op.y k).toNat).toNat : Int)

/-- The value the specification gives place `k` of a segment (43_lf R203 to R210). -/
def State.filteredAt (s : State) (op : SegOp) (pix : Memory 8) (k : Int) : Int :=
  Spec.filtered op.kind (Spec.interior s.lflvl.toNat (s.lfcfg.toNat / 2 % 8 : Nat)) (Spec.hevThreshold s.lflvl.toNat)
    (Spec.edgeLimit op.kind s.lflvl.toNat (s.lfcfg.toNat / 2 % 8 : Nat)) (s.pxAlong op pix) k

section
variable {s : State} {op : SegOp} {pix pix' : Memory 8} {p q : Px}
  (hok : ∀ p ∈ kindPixels op.kind, s.pxAddr op.pl op.dir op.x op.y p = .ok (s.pxPlace op p))
include hok

theorem placeAddr_eq_pxPlace (hp : p ∈ kindPixels op.kind) :
    Spec.placeAddr s op.pl op.dir op.x op.y p.offset = s.pxPlace op p :=
  (placeAddr_of_pxAddr_ok (hok p hp)).2.1.symm

theorem pxAlong_offset (hp : p ∈ kindPixels op.kind) : s.pxAlong op pix p.offset = (pix.read (s.pxPlace op p)).toNat := by
  rw [State.pxAlong, placeAddr_eq_pxPlace hok hp, Int.toNat_natCast]

/-- The line of a Seg whose pixels exist holds the pixels along the segment. -/
theorem lineAt_matches (pix : Memory 8) : (s.lineAt pix op).Matches op.kind (s.pxAlong op pix) := by
  intro p hp
  rw [pxAlong_offset hok hp]
  cases p <;> rfl

/-- Two pixels at one address take one value: they are the same pixel, or all pixels of the segment are equal. -/
theorem filteredAt_of_pxPlace_eq (hp : p ∈ kindPixels op.kind) (hq : q ∈ kindPixels op.kind)
    (h : s.pxPlace op q = s.pxPlace op p) : s.filteredAt op pix q.offset = s.filteredAt op pix p.offset := by
  have haddr : Spec.placeAddr s op.pl op.dir op.x op.y q.offset = Spec.placeAddr s op.pl op.dir op.x op.y p.offset := by
    rw [placeAddr_eq_pxPlace hok hq, placeAddr_eq_pxPlace hok hp, h]
  rcases placeAddr_collision haddr with hqp | hall
  · rw [hqp]
  · have hconst (r : Px) (hr : r ∈ kindPixels op.kind) :
        s.filteredAt op pix r.offset = (pix.read (Spec.placeAddr s op.pl op.dir op.x op.y p.offset).toNat).toNat := by
      obtain ⟨hlo, hhi⟩ := offset_of_mem_kindPixels _ r hr
      exact filtered_of_equal (fun i _ _ => by rw [State.pxAlong, hall i]) _ _ _ hlo hhi
    rw [hconst q hq, hconst p hp]

end

section
variable {s : State} {pix pix' : Memory 8}

/-- Every pixel a Seg reads takes the value of the filter (43_lf R206 to R210). -/
theorem seg_pxAlong {op : SegOp} (h : s.seg op pix = .ok pix') {p : Px} (hp : p ∈ kindPixels op.kind) :
    s.pxAlong op pix' p.offset = s.filteredAt op pix p.offset := by
  obtain ⟨hok, rfl⟩ := seg_ok h
  have hfilter (q : Px) := filterWrites_filtered (lineAt_matches hok pix) s.limits q
  simp only [s.limits_interior, s.limits_hevt, s.limits_edge] at hfilter
  rw [pxAlong_offset hok hp]
  rcases Memory.read_writeAll_cases ((filterWrites s.limits op.kind (s.lineAt pix op)).map
      fun pv => (s.pxPlace op pv.1, pv.2)) pix (s.pxPlace op p) with hmem | ⟨hne, hread⟩
  · obtain ⟨⟨q, v⟩, hqv, heq⟩ := List.mem_map.mp hmem
    obtain ⟨hplace, hv⟩ := Prod.mk.inj heq
    have hq := kindMayWrite_subset _ _ (filterWrites_mem hqv)
    rw [← hv, ← filteredAt_of_pxPlace_eq hok hp hq hplace]
    exact (hfilter q).1 v hqv
  · rw [hread, ← pxAlong_offset hok hp]
    exact (hfilter p).2 fun v hv => hne _ (List.mem_map_of_mem hv) rfl

variable {g : Spec.SegAt}

/-- A Seg has the effect of its specification (43_lf R206 to R210, R217 b). -/
theorem seg_effect (hpl : g.pl ≤ 2) (h : s.seg (segOp g) pix = .ok pix') : g.effect s pix pix' := by
  refine ⟨fun a ha => seg_read h fun hmem => ?_, fun k hlo hhi => ?_⟩
  · obtain ⟨k, hlo, hhi, -, haddr, -⟩ := segMayWriteOnlyNearTheEdge s (segOp g) a hpl hmem
    exact ha k hlo hhi haddr
  · obtain ⟨p, hp, rfl⟩ := exists_px_at g.kind k (Finset.mem_Ico.mpr ⟨hlo, hhi⟩)
    exact seg_pxAlong h hp

/-- A Seg over equal pixels leaves every byte (43_lf R217 c). -/
theorem read_of_effect_of_equal (h : g.effect s pix pix') {v : Byte}
    (hv : ∀ k : Int, -Spec.reach g.kind ≤ k → k < Spec.reach g.kind →
      pix.read (Spec.placeAddr s g.pl g.dir g.x g.y k).toNat = v) (a : Nat) : pix'.read a = pix.read a := by
  obtain ⟨hframe, hfilter⟩ := h
  by_cases ha : ∃ k : Int, -Spec.reach g.kind ≤ k ∧ k < Spec.reach g.kind ∧
      (a : Int) = Spec.placeAddr s g.pl g.dir g.x g.y k
  · obtain ⟨k, hlo, hhi, hk⟩ := ha
    have hread := hfilter k hlo hhi
    rw [filtered_of_equal (v := v) (fun j hjlo hjhi => by rw [hv j hjlo hjhi]) _ _ _ hlo hhi] at hread
    rw [show a = (Spec.placeAddr s g.pl g.dir g.x g.y k).toNat by omega, hv k hlo hhi]
    exact BitVec.eq_of_toNat_eq (Int.ofNat_inj.mp hread)
  · have hle : Spec.writeReach g.kind ≤ Spec.reach g.kind := by cases g.kind <;> decide
    exact hframe a fun k hlo hhi hk => ha ⟨k, by omega, by omega, hk⟩

theorem pxAddr_eq_pxPlace_of_inRange (h : g.inRange s) :
    ∀ p ∈ kindPixels g.kind, s.pxAddr g.pl g.dir g.x g.y p = .ok (s.pxPlace (segOp g) p) :=
  fun p hp => pxAddr_eq_pxPlace (op := segOp g) (pxAddr_of_inRange h p hp)

end

/-! ## LF_SEG -/

/-- The Seg of LF_SEG in the spec's form; its `segOp` is `segAtXY`. -/
def State.specSegAtXY (s : State) (plane : BitVec 2) (dir : Dir) (kind : Kind) : Spec.SegAt :=
  ⟨plane.toNat, dir, kind, s.lfx.toNat, s.lfy.toNat⟩

/-- LF_SEG of a legal plane completes with what its Seg leaves (43_lf R211). -/
theorem execLfSeg_of_seg {s : State} {plane : BitVec 2} {dir : Dir} {kind : Kind} {pix : Memory 8}
    (hpl : plane.toNat ≤ 2) (h : s.seg (s.segAtXY plane dir kind) s.pix = .ok pix) :
    execLfSeg plane dir kind s = .next { s with pix := pix, cmdcnt := s.cmdcnt + 1 } := by
  refine (guardLegal_of_wf (i := .lfSeg plane dir kind) (planeLegal_iff.mpr hpl)).trans ?_
  rw [h]
  rfl

section
variable {s : State} {plane : BitVec 2} {dir : Dir} {kind : Kind}

theorem segAtXY_effect {pix : Memory 8} (hpl : plane.toNat ≤ 2) (h : s.seg (s.segAtXY plane dir kind) s.pix = .ok pix) :
    (s.specSegAtXY plane dir kind).effect s s.pix pix := seg_effect hpl h

theorem pxAddr_segAtXY (h : Spec.segInRange s plane.toNat dir kind s.lfx.toNat s.lfy.toNat) :
    ∀ p ∈ kindPixels kind,
      s.pxAddr plane.toNat dir s.lfx.toNat s.lfy.toNat p = .ok (s.pxPlace (s.segAtXY plane dir kind) p) :=
  pxAddr_eq_pxPlace_of_inRange (g := s.specSegAtXY plane dir kind) h

end

/-- Settles O49: the Seg succeeds over pixels that exist, and has the effect of its specification. -/
theorem lfSegFiltersTheSegment : Obligations.LfSegFiltersTheSegment := by
  intro s plane dir kind hpl x y addr lvl sharp hin
  have hseg := seg_succeeds (op := s.segAtXY plane dir kind) s.pix (pxAddr_segAtXY hin)
  exact ⟨_, execLfSeg_of_seg hpl hseg, segAtXY_effect hpl hseg⟩

/-- Settles O53: completed, the filter gives every pixel its old value; faulted, LF_SEG leaves PIX. -/
theorem lfSegLeavesEqualPixels : Obligations.LfSegLeavesEqualPixels := by
  intro s t plane dir kind v hpl hv h a
  rcases execLfSeg_cases h with ⟨-, rfl⟩ | ⟨pix, hpix, rfl⟩ | ⟨e, -, rfl⟩
  · rfl
  · exact read_of_effect_of_equal (segAtXY_effect hpl hpix) hv a
  · rfl

/-- Settles O54: the edge test of the line read fails, so the filter writes nothing. -/
theorem lfSegLeavesSharpEdges : Obligations.LfSegLeavesSharpEdges := by
  intro s plane dir kind hpl px hin hsharp
  have hok := pxAddr_segAtXY hin
  have htest : edgeTest (s.limits.edge kind) (s.lineAt s.pix (s.segAtXY plane dir kind)) = false := by
    rw [Bool.eq_false_iff, Ne, edgeTest_iff (lineAt_matches (op := s.segAtXY plane dir kind) hok s.pix), s.limits_edge]
    exact not_le.mpr hsharp
  have hseg := seg_succeeds (op := s.segAtXY plane dir kind) s.pix hok
  rw [show filterWrites s.limits (s.segAtXY plane dir kind).kind _ = [] from filterWrites_of_sharp htest] at hseg
  exact execLfSeg_of_seg hpl hseg

end Sys2Proof.Machine
end

section
/-! PROOFS. The 2D commands of the loop filter: the bytes they leave (O51), LF_EDGE over pixels that exist (O55), the gate of LF_MB (O57), and LF_EDGE and LF_MB as sequences of their Segs and edges (O56, O59; 43_lf R214 to R217). -/

namespace Sys2Proof.Machine

/-! ## The bytes a command leaves -/

/-- A 2D operation, completed or faulted, leaves every byte no Seg of it may write (43_lf R217 b; 60_exceptions R257). -/
theorem runSegs_read {i : Instr} {ops : List SegOp} {s t : State} {a : Nat} (h : runSegs i s ops = .next t)
    (ha : a ∉ s.segsMayWrite ops) : t.pix.read a = s.pix.read a := by
  rcases runSegs_cases h with ⟨pix, hpix, rfl⟩ | ⟨e, -, rfl⟩
  · exact segs_read hpix ha
  · exact (s.scramblePix_spec ops).1 a ha

/-- Settles O51: each outcome of the three commands, by what a Seg and a sequence of Segs leave. -/
theorem lfCommandsWriteOnlyTheirPixels : Obligations.LfCommandsWriteOnlyTheirPixels := by
  intro s t a
  refine ⟨fun plane dir kind h ha => ?_, fun plane dir kind lenm1 h ha => ?_, fun mbx mby noinner h ha => ?_⟩
  · rcases execLfSeg_cases h with ⟨-, rfl⟩ | ⟨pix, hpix, rfl⟩ | ⟨e, -, rfl⟩
    · rfl
    · exact seg_read hpix ha
    · rfl
  · rcases execLfEdge_cases h with ⟨-, rfl⟩ | hrun
    · rfl
    · exact runSegs_read hrun ha
  · rcases execLfMb_cases h with ⟨-, rfl⟩ | ⟨-, hrun⟩
    · rfl
    · exact runSegs_read hrun ha

/-! ## LF_EDGE over pixels that exist -/

/-- LF_EDGE of a legal plane completes with what its Segs leave (43_lf R214). -/
theorem execLfEdge_of_segs {s : State} {plane : BitVec 2} {dir : Dir} {kind : Kind} {lenm1 : BitVec 4} {pix : Memory 8}
    (hpl : plane.toNat ≤ 2)
    (h : s.segs (edgeOps plane.toNat dir kind s.lfx.toNat s.lfy.toNat (lenm1.toNat + 1)) s.pix = .ok pix) :
    execLfEdge plane dir kind lenm1 s = .next { s with pix := pix, cmdcnt := s.cmdcnt + 1 } :=
  (guardLegal_of_wf (i := .lfEdge plane dir kind lenm1) (planeLegal_iff.mpr hpl)).trans (runSegs_ok h)

/-- Settles O55: every Seg of the edge succeeds. -/
theorem lfEdgeCompletes : Obligations.LfEdgeCompletes := by
  intro s plane dir kind lenm1 hpl hin
  have hsegs : ∀ g ∈ Spec.edgeSegs plane.toNat dir kind s.lfx.toNat s.lfy.toNat (lenm1.toNat + 1), g.inRange s := by
    intro g hg
    obtain ⟨k, hk, rfl⟩ := List.mem_map.mp hg
    have hk := hin k (Nat.lt_succ_iff.mp (List.mem_range.mp hk))
    cases dir <;> exact hk
  obtain ⟨pix, hpix⟩ := segs_succeeds (s := s) ((Spec.edgeSegs ..).map segOp) s.pix fun op hop p hp => by
    obtain ⟨g, hg, rfl⟩ := List.mem_map.mp hop
    exact pxAddr_eq_pxPlace_of_inRange (hsegs g hg) p hp
  exact ⟨pix, execLfEdge_of_segs hpl ((edgeOps_eq ..).symm ▸ hpix)⟩

/-! ## The gate of LF_MB -/

/-- Settles O57: the gate of the command is that of the rule. -/
theorem lfMbIsGatedByTheLevels : Obligations.LfMbIsGatedByTheLevels := by
  intro s mbx mby noinner hgate
  rw [← s.baselvl_eq_zero_iff] at hgate
  exact if_pos hgate

/-! ## Commands in place of Segs -/

/-- From every state that meets `P` the commands complete, leave the PIX that the Segs leave, and keep `P`. -/
def State.Gives (s : State) (P : State → Prop) (is : List Instr) (ops : List SegOp) : Prop :=
  ∀ u pix, P u → s.segs ops u.pix = .ok pix → ∃ v, execSeq is u = .next v ∧ P v ∧ v.pix = pix

section
variable {s : State} {P : State → Prop}

theorem State.Gives.nil : s.Gives P [] [] := fun u _ hu h => ⟨u, rfl, hu, Except.ok.inj h⟩

variable (hP : ∀ u, P u → u.fault = false)
include hP

theorem State.Gives.append {is js : List Instr} {ops ops' : List SegOp} (h : s.Gives P is ops) (h' : s.Gives P js ops') :
    s.Gives P (is ++ js) (ops ++ ops') := by
  intro u pix hu hsegs
  rw [segs_append] at hsegs
  split at hsegs
  · cases hsegs
  · next mid hmid =>
    obtain ⟨v, hv, hPv, rfl⟩ := h u mid hu hmid
    rw [execSeq_append hv (hP v hPv)]
    exact h' v pix hPv hsegs

theorem State.Gives.flatMap {α : Type} {l : List α} {f : α → List Instr} {g : α → List SegOp}
    (h : ∀ a ∈ l, s.Gives P (f a) (g a)) : s.Gives P (l.flatMap f) (l.flatMap g) := by
  induction l with
  | nil => exact .nil
  | cons a l ih => exact .append hP (h a (by simp)) (ih fun b hb => h b (by simp [hb]))

end

/-- A state that filters like `s`, with no fault recorded. -/
structure State.Filters (s u : State) : Prop where
  same  : s.SameFilter u
  fault : u.fault = false

theorem State.Filters.refl {s : State} (hf : s.fault = false) : s.Filters s :=
  ⟨⟨rfl, rfl, rfl, rfl, rfl, rfl, rfl, rfl⟩, hf⟩

/-- LFX, LFY, PIX and CMDCNT have no influence on the filter. -/
theorem State.Filters.moved {s u : State} (h : s.Filters u) (x y : BitVec 14) (pix : Memory 8) (n : Word) :
    s.Filters { u with lfx := x, lfy := y, pix := pix, cmdcnt := n } := by
  obtain ⟨⟨hybase, hubase, hvbase, hystride, huvstride, hparams, hlflvl, hlfcfg⟩, hfault⟩ := h
  exact ⟨⟨hybase, hubase, hvbase, hystride, huvstride, hparams, hlflvl, hlfcfg⟩, hfault⟩

/-- A 2D operation that completed left what its Segs leave. -/
theorem runSegs_completed {i : Instr} {ops : List SegOp} {s t : State} (h : runSegs i s ops = .next t)
    (hf : t.fault = false) : s.segs ops s.pix = .ok t.pix := by
  rcases runSegs_cases h with ⟨pix, hpix, rfl⟩ | ⟨e, -, rfl⟩
  · exact hpix
  · cases hf

/-! ## LF_EDGE as its Segs -/

theorem segs_effect {s : State} {gs : List Spec.SegAt} {pix pix' : Memory 8} (hpl : ∀ g ∈ gs, g.pl ≤ 2)
    (h : s.segs (gs.map segOp) pix = .ok pix') : Spec.segsEffect s gs pix pix' := by
  induction gs generalizing pix with
  | nil => exact (Except.ok.inj h).symm
  | cons g gs ih =>
    rw [List.map_cons, segs_cons] at h
    split at h
    · cases h
    · next mid hmid => exact ⟨mid, seg_effect (hpl g (by simp)) hmid, ih (fun b hb => hpl b (by simp [hb])) h⟩

/-- The coordinate along an edge, which LF_EDGE moves. -/
def State.along (s : State) : Dir → BitVec 14
  | .v => s.lfy
  | .h => s.lfx

/-- The coordinate across an edge, which LF_EDGE keeps. -/
def State.acrossEdge (s : State) : Dir → BitVec 14
  | .v => s.lfx
  | .h => s.lfy

/-- The command that sets the coordinate along an edge. -/
def setAlong : Dir → BitVec 14 → Instr
  | .v => .lfSety
  | .h => .lfSetx

/-- A state that filters like `s` and stands at the same coordinate across the edge. -/
structure State.OnEdge (s : State) (dir : Dir) (u : State) : Prop extends s.Filters u where
  across : u.acrossEdge dir = s.acrossEdge dir

theorem toNat_add_ofNat {w : Nat} {c : BitVec w} {k : Nat} (h : c.toNat + k < 2 ^ w) :
    (c + BitVec.ofNat w k).toNat = c.toNat + k := by
  rw [add_ofNat_eq]
  exact Nat.mod_eq_of_lt h

/-- The coordinate along the edge is set; the one across it, PIX and the filter stay (43_lf R212, R213). -/
theorem exec_setAlong {s u : State} {dir : Dir} (hu : s.OnEdge dir u) (c : BitVec 14) :
    ∃ v, exec (setAlong dir c) u = .next v ∧ s.OnEdge dir v ∧ v.along dir = c ∧ v.pix = u.pix := by
  cases dir <;> exact ⟨_, rfl, ⟨hu.moved _ _ _ _, hu.across⟩, rfl, rfl⟩

/-- Moving the coordinate along the edge and giving LF_SEG runs one Seg of the edge (43_lf R211 to R214). -/
theorem setAlong_lfSeg_gives {s : State} {plane : BitVec 2} {dir : Dir} {kind : Kind} (hpl : plane.toNat ≤ 2)
    {c : BitVec 14} {op : SegOp} (hop : ∀ u, s.OnEdge dir u → u.along dir = c → u.segAtXY plane dir kind = op) :
    s.Gives (s.OnEdge dir) [setAlong dir c, .lfSeg plane dir kind] [op] := by
  intro u pix hu hsegs
  obtain ⟨v, hv, hon, halong, hpix⟩ := exec_setAlong hu c
  have hseg : v.seg (v.segAtXY plane dir kind) v.pix = .ok pix := by
    rw [hop v hon halong, hon.same.seg, hpix]
    rw [segs_cons] at hsegs
    split at hsegs
    · cases hsegs
    · next h => rw [h, Except.ok.inj hsegs]
  refine ⟨_, (execSeq_of_next hu.fault hv).trans (execSeq_of_next hon.fault (execLfSeg_of_seg hpl hseg)), ?_, rfl⟩
  cases dir <;> exact ⟨hon.moved _ _ _ _, hon.across⟩

/-- An edge inside the 14-bit register is given by LF_SEG at each of its positions (43_lf R214). -/
theorem edge_segCommands_give {s : State} {plane : BitVec 2} {dir : Dir} {kind : Kind} {len : Nat}
    (hpl : plane.toNat ≤ 2) (hlen : ∀ k < len, (s.along dir).toNat + k < 2 ^ 14) :
    s.Gives (s.OnEdge dir)
      ((List.range len).flatMap fun k => [setAlong dir (s.along dir + BitVec.ofNat 14 k), .lfSeg plane dir kind])
      (edgeOps plane.toNat dir kind s.lfx.toNat s.lfy.toNat len) := by
  rw [edgeOps, List.map_eq_flatMap]
  refine .flatMap (fun u hu => hu.fault) fun k hk => setAlong_lfSeg_gives hpl fun u hu halong => ?_
  have hcoord : (u.along dir).toNat = (s.along dir).toNat + k :=
    halong ▸ toNat_add_ofNat (hlen k (List.mem_range.mp hk))
  have hacross := hu.across
  cases dir <;> simp only [State.along, State.acrossEdge] at hcoord hacross <;>
    simp only [State.segAtXY, hcoord, hacross, Nat.cast_add]

/-- Settles O56: the effect of each Seg in turn, and LF_SEG at each position while LFX and LFY can hold it. -/
theorem lfEdgeIsTheSequenceOfItsSegs : Obligations.LfEdgeIsTheSequenceOfItsSegs := by
  intro s t plane dir kind lenm1 hpl hf h hft
  rcases execLfEdge_cases h with ⟨-, rfl⟩ | hrun
  · cases hft
  have hsegs := runSegs_completed hrun hft
  refine ⟨segs_effect (fun g hg => ?_) (edgeOps_eq .. ▸ hsegs), fun hlen => ?_⟩
  · obtain ⟨k, -, rfl⟩ := List.mem_map.mp hg
    cases dir <;> exact hpl
  · have hon : s.OnEdge dir s := ⟨.refl hf, rfl⟩
    have halong : (s.along dir).toNat + lenm1.toNat < 2 ^ 14 := by cases dir <;> exact hlen
    obtain ⟨u, hu, hP, hpix⟩ := edge_segCommands_give hpl (fun k hk => by omega) s t.pix hon hsegs
    refine ⟨u, ?_, hpix.symm, hP.fault⟩
    cases dir <;> exact hu

/-! ## LF_MB as its edges -/

/-- Placing LFX and LFY and giving LF_EDGE runs the Segs of one edge (43_lf R212 to R214). -/
theorem edgeCommand_gives {s : State} {plane : BitVec 2} {dir : Dir} {kind : Kind} {x y size : Nat}
    (hpl : plane.toNat ≤ 2) (hx : x < 2 ^ 14) (hy : y < 2 ^ 14) (hs : size = 16 ∨ size = 8) :
    s.Gives s.Filters
      [.lfSetx (BitVec.ofNat 14 x), .lfSety (BitVec.ofNat 14 y), .lfEdge plane dir kind (BitVec.ofNat 4 (size - 1))]
      (edgeOps plane.toNat dir kind x y size) := by
  intro u pix hu hsegs
  have hsize : (BitVec.ofNat 4 (size - 1)).toNat + 1 = size := by rcases hs with rfl | rfl <;> rfl
  let v : State := { u with lfx := BitVec.ofNat 14 x, cmdcnt := u.cmdcnt + 1 }
  let w : State := { v with lfy := BitVec.ofNat 14 y, cmdcnt := v.cmdcnt + 1 }
  have hv : s.Filters v := hu.moved _ _ _ _
  have hw : s.Filters w := hv.moved _ _ _ _
  have hsetx : exec (.lfSetx (BitVec.ofNat 14 x)) u = .next v := rfl
  have hsety : exec (.lfSety (BitVec.ofNat 14 y)) v = .next w := rfl
  have hedge : w.segs (edgeOps plane.toNat dir kind w.lfx.toNat w.lfy.toNat ((BitVec.ofNat 4 (size - 1)).toNat + 1))
      w.pix = .ok pix := by
    rw [hw.same.segs, hsize, BitVec.toNat_ofNat, BitVec.toNat_ofNat, Nat.mod_eq_of_lt hx, Nat.mod_eq_of_lt hy]
    exact hsegs
  rw [execSeq_of_next hu.fault hsetx, execSeq_of_next hv.fault hsety]
  exact ⟨_, execSeq_of_next hw.fault (execLfEdge_of_segs hpl hedge), hw.moved _ _ _ _, rfl⟩

/-- The corners of the edges of a macroblock fit LFX and LFY (43_lf R212, R213, R215). -/
theorem planeEdges_lt {size : Nat} (hs : size = 16 ∨ size = 8) {km ks : Kind} {mbx mby : BitVec 10} {noinner : Bool} :
    ∀ e ∈ Spec.planeEdges size km ks mbx.toNat mby.toNat noinner, e.2.2.1 < 2 ^ 14 ∧ e.2.2.2 < 2 ^ 14 := by
  have hinner : ∀ d ∈ (if size = 16 then [4, 8, 12] else [4] : List Nat), d + 4 ≤ size := by
    rcases hs with rfl | rfl <;> decide
  have hlast (mb : BitVec 10) : size * mb.toNat + size ≤ 2 ^ 14 := by rcases hs with rfl | rfl <;> omega
  have hx := hlast mbx
  have hy := hlast mby
  have hpos : 0 < size := by omega
  intro e he
  simp only [Spec.planeEdges, List.mem_append, List.mem_map, List.mem_ite_nil_left, List.mem_singleton] at he
  rcases he with ((⟨-, rfl⟩ | ⟨d, ⟨-, hd⟩, rfl⟩) | ⟨-, rfl⟩) | ⟨d, ⟨-, hd⟩, rfl⟩
  · dsimp only; omega
  · have := hinner d hd
    dsimp only; omega
  · dsimp only; omega
  · have := hinner d hd
    dsimp only; omega

/-- The commands of a plane's edges run the Segs of the plane (43_lf R214, R215). -/
theorem planeEdges_give {s : State} {plane : BitVec 2} {size : Nat} (hs : size = 16 ∨ size = 8) (hpl : plane.toNat ≤ 2)
    (km ks : Kind) (mbx mby : BitVec 10) (noinner : Bool) :
    s.Gives s.Filters (Spec.edgeCommands plane size (Spec.planeEdges size km ks mbx.toNat mby.toNat noinner))
      ((Spec.planeSegs plane.toNat size km ks mbx.toNat mby.toNat noinner).map segOp) := by
  rw [Spec.planeSegs, List.map_flatMap]
  refine .flatMap (fun u hu => hu.fault) fun e he => ?_
  obtain ⟨hx, hy⟩ := planeEdges_lt hs e he
  rw [← edgeOps_eq]
  exact edgeCommand_gives hpl hx hy hs

/-- The commands of a macroblock's edges run its Segs, plane after plane (43_lf R215). -/
theorem macroblockEdges_give (s : State) (simple : Bool) (mbx mby : BitVec 10) (noinner : Bool) :
    s.Gives s.Filters (Spec.macroblockEdges simple mbx.toNat mby.toNat noinner)
      (macroblockOps simple mbx.toNat mby.toNat noinner) := by
  have hP (u : State) (hu : s.Filters u) : u.fault = false := hu.fault
  rw [macroblockOps_eq]
  cases simple with
  | true => exact planeEdges_give (plane := 0) (.inl rfl) (by decide) _ _ _ _ _
  | false =>
    simp only [Spec.macroblockSegs, Bool.false_eq_true, if_false, List.map_append]
    refine .append hP (.append hP ?_ ?_) ?_
    · exact planeEdges_give (plane := 0) (.inl rfl) (by decide) _ _ _ _ _
    · exact planeEdges_give (plane := 1) (.inr rfl) (by decide) _ _ _ _ _
    · exact planeEdges_give (plane := 2) (.inr rfl) (by decide) _ _ _ _ _

/-- Settles O59: not gated, the Segs of LF_MB are those of its edges in order, and LF_EDGE at each edge runs them. -/
theorem lfMbIsTheSequenceOfItsEdges : Obligations.LfMbIsTheSequenceOfItsEdges := by
  intro s t mbx mby noinner hf hbase hlvl h hft
  rcases execLfMb_cases h with ⟨hgate, -⟩ | ⟨-, hrun⟩
  · rw [s.baselvl_eq_zero_iff] at hgate
    exact absurd hgate (not_or.mpr ⟨hbase, hlvl⟩)
  · obtain ⟨u, hu, hP, hpix⟩ := macroblockEdges_give s s.simple mbx mby noinner s t.pix
      (.refl hf) (runSegs_completed hrun hft)
    exact ⟨u, hu, hpix.symm, hP.fault⟩

end Sys2Proof.Machine
end

section
/-! PROOFS. The system command NOP (O25; 44_system R240). -/

namespace Sys2Proof.Machine

/-- NOP is completion alone (44_system R240). -/
theorem exec_nop (s : State) : exec .nop s = completed s := rfl

/-- Settles O25: completion, which is all NOP does, advances CMDCNT. -/
theorem nopAdvancesOnlyCmdcnt : Obligations.NopAdvancesOnlyCmdcnt := exec_nop

end Sys2Proof.Machine
end

section
/-! PROOFS. Which command can raise which fault in execution (O20; 60_exceptions R255). -/

namespace Sys2Proof.Machine

/-! ## The codes a recorded fault can have -/

/-- If a fault is recorded in `t`, FCODE is one of `codes`. -/
def State.FaultsIn (t : State) (codes : List (BitVec 4)) : Prop := t.fault = true → t.fcode ∈ codes

theorem State.FaultsIn.of_complete {u : State} {codes : List (BitVec 4)} (h : u.fault = false) :
    u.complete.FaultsIn codes :=
  fun hf => absurd (h.symm.trans hf) Bool.false_ne_true

/-- A command whose one outcome is to complete. -/
theorem State.FaultsIn.of_completed {t u : State} {codes : List (BitVec 4)} (h : completed u = .next t)
    (hu : u.fault = false) : t.FaultsIn codes := by
  obtain rfl := Host.Outcome.next.inj h
  exact .of_complete hu

theorem State.FaultsIn.of_raise {u : State} {w : Word} {e : Trap} {codes : List (BitVec 4)}
    (h : e.name.code ∈ codes) : (u.raise w e).FaultsIn codes := fun _ => h

/-- A check that fails before the command reads anything (60_exceptions R255). -/
theorem State.FaultsIn.of_check {u : State} {w info : Word} {name : FaultName} {codes : List (BitVec 4)}
    (h : name.code ∈ codes) : (u.raise w ⟨name, info⟩).FaultsIn codes := .of_raise h

/-- A well-formed command does not reach ILLEGAL_OPERAND(1) (30_encoding R104; log 16). -/
theorem State.FaultsIn.of_not_wf {t : State} {i : Instr} {codes : List (BitVec 4)} (hw : i.wf = true) (h : i.wf = false) :
    t.FaultsIn codes := absurd (hw.symm.trans h) nofun

theorem FaultName.code_mem {a b : FaultName} {codes : List (BitVec 4)} (h : a = b) (hb : b.code ∈ codes := by decide) :
    a.code ∈ codes := h ▸ hb

/-! ## The commands that can fault -/

section
variable {s t : State}

variable (hf : s.fault = false)
include hf

theorem execBdSeek_faultsIn {ctx : BitVec 4} (hw : (Instr.bdSeek ctx).wf = true) (h : execBdSeek ctx s = .next t) :
    t.FaultsIn [4, 5] := by
  rcases execBdSeek_cases h with ⟨hn, -⟩ | ⟨-, rfl⟩ | ⟨-, -, ⟨c, -, rfl⟩ | ⟨e, he, rfl⟩⟩
  · exact .of_not_wf hw hn
  · exact .of_check (by decide)
  · exact .of_complete hf
  · exact .of_raise (FaultName.code_mem (seek_error_name he))

/-- A read command can raise BD_UNINIT and what its read can raise (40_bd R134, R145). -/
theorem bdRead_faultsIn {i : Instr} {read : Ctx → Except Trap (Word × Ctx)} {codes : List (BitVec 4)}
    (hread : ∀ e, read s.curCtx = .error e → e.name.code ∈ codes) (h : bdRead i s read = .next t) :
    t.FaultsIn (3 :: codes) := by
  rcases bdRead_cases h with ⟨-, rfl⟩ | ⟨-, v, c, -, rfl⟩ | ⟨-, e, he, rfl⟩
  · exact .of_check List.mem_cons_self
  · exact .of_complete hf
  · exact .of_raise (List.mem_cons_of_mem _ (hread e he))

theorem readBoolWord_bdRead_faultsIn {i : Instr} {p : BitVec 8} (h : bdRead i s (readBoolWord s.stream p) = .next t) :
    t.FaultsIn [3, 5] :=
  bdRead_faultsIn hf (fun _ he => FaultName.code_mem (readBool_error_name (readBoolWord_error.mp he))) h

theorem execBdLit_faultsIn {n : BitVec 5} (h : execBdLit n s = .next t) : t.FaultsIn [3, 5] :=
  bdRead_faultsIn hf (fun _ he => FaultName.code_mem (readBits_error_name (readLitWord_error.mp he))) h

theorem execBdTree_faultsIn {start : BitVec 6} (h : execBdTree start s = .next t) : t.FaultsIn [3, 5, 6] := by
  rcases execBdTree_cases h with ⟨-, -, rfl⟩ | ⟨-, h⟩
  · exact .of_check (by decide)
  · refine bdRead_faultsIn hf (fun e he => ?_) h
    rcases treeWalk_error_name he with hn | hn
    · exact FaultName.code_mem hn
    · exact FaultName.code_mem hn

theorem execTdBlk_faultsIn {blk : BitVec 5} {type : BitVec 2} {col : BitVec 10}
    (hw : (Instr.tdBlk blk type col).wf = true) (h : execTdBlk blk type col s = .next t) : t.FaultsIn [3, 5] := by
  rcases execTdBlk_cases h with ⟨hn, -⟩ | ⟨-, rfl⟩ | ⟨-, -, ⟨n, nz, a, -, rfl⟩ | ⟨e, he, rfl⟩⟩
  · exact .of_not_wf hw hn
  · exact .of_check (by decide)
  · exact .of_complete hf
  · exact .of_raise (FaultName.code_mem (tdBlk_error_name he))

/-- With SKIP = 1 TD_MB reads nothing and cannot fault (41_td R177). -/
theorem execTdMb_faultsIn {seg : BitVec 2} {col : BitVec 10} {hasy2 skip : Bool}
    (h : execTdMb seg col hasy2 skip s = .next t) : t.FaultsIn (if skip then [] else [3, 5]) := by
  cases skip with
  | true => exact .of_completed ((execTdMb_skip seg col hasy2 s).symm.trans h) hf
  | false =>
    rcases execTdMb_cases h with ⟨-, rfl⟩ | ⟨-, ⟨any, a, -, rfl⟩ | ⟨e, he, rfl⟩⟩
    · exact .of_check (by decide)
    · exact .of_complete hf
    · exact .of_raise (FaultName.code_mem (tdBlocks_error_name he))

theorem execLfSeg_faultsIn {plane : BitVec 2} {dir : Dir} {kind : Kind} (hw : (Instr.lfSeg plane dir kind).wf = true)
    (h : execLfSeg plane dir kind s = .next t) : t.FaultsIn [7] := by
  rcases execLfSeg_cases h with ⟨hn, -⟩ | ⟨pix, -, rfl⟩ | ⟨e, he, rfl⟩
  · exact .of_not_wf hw hn
  · exact .of_complete hf
  · exact .of_raise (FaultName.code_mem (seg_error_name he))

theorem runSegs_faultsIn {i : Instr} {ops : List SegOp} (h : runSegs i s ops = .next t) : t.FaultsIn [7] := by
  rcases runSegs_cases h with ⟨pix, -, rfl⟩ | ⟨e, he, rfl⟩
  · exact .of_complete hf
  · exact .of_raise (FaultName.code_mem (segs_error_name he))

theorem execLfEdge_faultsIn {plane : BitVec 2} {dir : Dir} {kind : Kind} {lenm1 : BitVec 4}
    (hw : (Instr.lfEdge plane dir kind lenm1).wf = true) (h : execLfEdge plane dir kind lenm1 s = .next t) :
    t.FaultsIn [7] := by
  rcases execLfEdge_cases h with ⟨hn, -⟩ | hrun
  · exact .of_not_wf hw hn
  · exact runSegs_faultsIn hf hrun

theorem execLfMb_faultsIn {mbx mby : BitVec 10} {noinner : Bool} (h : execLfMb mbx mby noinner s = .next t) :
    t.FaultsIn [7] := by
  rcases execLfMb_cases h with ⟨-, rfl⟩ | ⟨-, hrun⟩
  · exact .of_complete hf
  · exact runSegs_faultsIn hf hrun

end

/-- Settles O20: each command by the faults its checks and its procedure can raise; the others only complete. -/
theorem faultsEachCommandCanRaise : Obligations.FaultsEachCommandCanRaise := by
  intro i s t hw hf ht
  show t.FaultsIn (Spec.faultsOf i)
  cases i with
  | bdSeek ctx => exact execBdSeek_faultsIn hf hw ht
  | bdBit | bdBool prob => exact readBoolWord_bdRead_faultsIn hf ht
  | bdLit n => exact execBdLit_faultsIn hf ht
  | bdTree start => exact execBdTree_faultsIn hf ht
  | tdBlk blk type col => exact execTdBlk_faultsIn hf hw ht
  | tdMb seg col hasy2 skip => exact execTdMb_faultsIn hf ht
  | lfSeg plane dir kind => exact execLfSeg_faultsIn hf hw ht
  | lfEdge plane dir kind lenm1 => exact execLfEdge_faultsIn hf hw ht
  | lfMb mbx mby noinner => exact execLfMb_faultsIn hf ht
  | bdSel ctx | dqBlk blk type seg => exact .of_completed ((guardLegal_of_wf hw).symm.trans ht) hf
  | nop | tdRst | tdNewrow | lfSetlvl lvl | lfAdjlvl delta | lfSetx coord | lfSety coord =>
    exact .of_completed ht hf

end Sys2Proof.Machine
end

section
/-! PROOFS. The reset input, between two commands and during one (O10; 70_reset R280, R282; 60_exceptions R257). -/

namespace Sys2Proof.Machine

/-! ## What a command abandoned in the middle keeps outside its write set -/

/-- The sixteen places of a block, as the write sets of the spec bound them (10_state R47). -/
theorem mem_coefIx_range {blk a : Nat} : a ∈ List.range' (coefIx blk 0) 16 ↔ blk * 16 ≤ a ∧ a < blk * 16 + 16 := by
  rw [List.mem_range'_1]
  rfl

theorem State.scrambleTdBlk_sameOutsideBlock (s : State) (blk col : Nat) :
    s.SameOutsideBlock (s.scrambleTdBlk blk col) blk col := by
  refine .of_flags _ _ (fun a ha => Memory.read_scramble_of_not_mem _ _ _ _ ?_) rfl rfl
  rw [mem_coefIx_range]
  omega

/-- The host's pending events have no part in the write set. -/
theorem pixSet_inbox (i : Instr) (s : State) (inbox : List HostEvent) :
    Spec.pixSet i { s with inbox := inbox } = Spec.pixSet i s := rfl

section
variable {i : Instr} {s : State} {a : Nat}

theorem State.abandon_qcoef_read (h : ¬Spec.inQcoefSet i a) : (s.abandon i).qcoef.read a = s.qcoef.read a := by
  cases i with
  | tdBlk blk type col =>
    have hout : a < blk.toNat * 16 ∨ blk.toNat * 16 + 16 ≤ a := by
      simp only [Spec.inQcoefSet] at h
      omega
    exact (s.scrambleTdBlk_sameOutsideBlock _ col.toNat).qcoef a hout
  | tdMb seg col hasy2 skip => exact absurd trivial h
  | _ => exact congrArg (Memory.read · a) (State.abandon_qcoef (by nofun) (by nofun))

theorem State.abandon_coef_read (h : ¬Spec.inCoefSet i a) : (s.abandon i).coef.read a = s.coef.read a := by
  cases i with
  | dqBlk blk type seg => exact Memory.read_scramble_of_not_mem _ _ _ _ (mt mem_coefIx_range.mp h)
  | tdMb seg col hasy2 skip => exact absurd trivial h
  | _ => exact congrArg (Memory.read · a) (State.abandon_coef (by nofun) (by nofun))

/-- TD_BLK may lose one flag of its column, TD_MB the whole column. -/
theorem State.abandon_anz_flag {x j : Nat} (h : ¬Spec.inAnzSet i x j) :
    ((s.abandon i).anz.read x).getLsbD j = (s.anz.read x).getLsbD j := by
  cases i with
  | tdRst => exact absurd trivial h
  | tdBlk blk type col =>
    have hsame := s.scrambleTdBlk_sameOutsideBlock blk.toNat col.toNat
    by_cases hx : x = col.toNat
    · have hj : j ≠ aBit blk.toNat := fun hj => h ⟨hx, hj.trans (anzBit_eq_aBit _).symm⟩
      exact hx ▸ hsame.above j hj
    · exact congrArg (BitVec.getLsbD · j) (hsame.anz x hx)
  | tdMb seg col hasy2 skip => exact congrArg (BitVec.getLsbD · j) (Memory.read_write_ne _ _ h)
  | _ => exact congrArg (fun m => (Memory.read m x).getLsbD j) (State.abandon_anz (by nofun) (by nofun) (by nofun))

/-- LF_SEG may lose bytes of its one Seg, a gated LF_MB none (43_lf R216). -/
theorem State.abandon_pix_read (h : a ∉ Spec.pixSet i s) : (s.abandon i).pix.read a = s.pix.read a := by
  cases i with
  | lfSeg plane dir kind =>
    refine (s.scramblePix_spec _).1 a ?_
    rwa [State.segsMayWrite, List.flatMap_singleton]
  | lfEdge plane dir kind lenm1 => exact (s.scramblePix_spec _).1 a h
  | lfMb mbx mby noinner =>
    simp only [Spec.pixSet, ← s.baselvl_eq_zero_iff] at h
    simp only [State.abandon]
    split
    · rfl
    · next hgate => exact (s.scramblePix_spec _).1 a (by rwa [if_neg hgate] at h)
  | _ => exact congrArg (Memory.read · a) (State.abandon_pix (by nofun) (by nofun) (by nofun))

end

/-! ## The reset input -/

/-- The reset values of the model are those the spec lists (10_state R51). -/
theorem State.resetRegs_eq_regsCleared (s : State) : s.resetRegs = Spec.regsCleared s := rfl

/-- Settles O10: the reset between two commands, the reset of a word that does not decode, and a command abandoned in the middle,
which keeps each memory outside its write set. -/
theorem powerOnResetClearsTheRegisters : Obligations.PowerOnResetClearsTheRegisters := by
  intro s rest
  refine ⟨fun h => ?_, fun w e h hf hd => ?_, fun w i h hf hd => ?_⟩
  · have hstep : step s = .next ({ s with inbox := rest } : State).powerOn := by
      rcases h with h | ⟨w, h, hf⟩
      · exact step_powerOn h
      · exact step_resetDuring_faulted h hf
    obtain ⟨tree, tprob, dqf, cprob, qcoef, coef, anz, n, -, heq⟩ := ({ s with inbox := rest } : State).powerOn_cases
    rw [State.resetRegs_eq_regsCleared] at heq
    exact ⟨tree, tprob, dqf, cprob, qcoef, coef, anz, n, hstep.trans (congrArg _ heq)⟩
  · rw [step_resetDuring_undecodable h hf hd, State.resetRegs_eq_regsCleared]
  · obtain ⟨_, _, _, _, n, heq, rfl, rfl, rfl, rfl⟩ := ({ s with inbox := rest } : State).abandon_cases i
    rw [State.resetRegs_eq_regsCleared] at heq
    exact ⟨_, _, _, _, n, (step_resetDuring h hf hd).trans (congrArg _ heq), fun _ => State.abandon_qcoef_read,
      fun _ => State.abandon_coef_read, fun _ _ => State.abandon_anz_flag,
      fun _ ha => State.abandon_pix_read (by rwa [pixSet_inbox])⟩

end Sys2Proof.Machine
end
